-- ==== Sys2Proof/Word.lean ====
section
/-!
DEFINITION. The word types of the core and the plain data that stands for its real and complex values.

The core's words are the fixed-width words of 30_encoding.md rule R120.  Its real numbers (00_scope.md rules R17, R18)
are held as exact rationals: every value of a `NUMERICS` format (rule R9) is one, and so is every binary32 sample.
A value computed from a NaN or infinite sample may be no real number at all (93_implementation_defined.md I3): that is
the constructor `nonFinite`.
-/

namespace Sys2Proof

/-- A 32-bit word: CMD, DATA, RSP, BBEAT and MSG (30_encoding.md rule R120). -/
abbrev Word := BitVec 32

/-- A 96-bit stream beat, SBEAT (30_encoding.md rule R120). -/
abbrev Beat := BitVec 96

/-- A byte of a BBFRAME (44_bb_deheader.md rule R320). -/
abbrev Byte := BitVec 8

/-- The payload of a TS tag, as wide as the widest `TAG_W` (00_scope.md rule R9). -/
abbrev TagPayload := BitVec 64

/-- A PLS value (30_encoding.md rule R132). -/
abbrev Pls := BitVec 7

/-- A complex number with rational parts (00_scope.md rule R17). -/
structure CQ where
  re : Rat
  im : Rat
deriving DecidableEq, Repr, Inhabited

/-- A real value of a unit's data path: a real number, or no real number (a NaN or an infinity, I3). -/
inductive Num where
  | fin (q : Rat)
  | nonFinite
deriving DecidableEq, Repr, Inhabited

/-- A complex value of a unit's data path: a complex number, or one with a NaN or infinite part (I3). -/
inductive Cx where
  | fin (z : CQ)
  | nonFinite
deriving DecidableEq, Repr, Inhabited

end Sys2Proof
end

