-- ==== Sys2Proof/Machine/Fields.lean ====
section
/-!
DEFINITION. The bit fields of the formats of 30_encoding.md: taking a word or beat apart and putting one together.
-/

namespace Sys2Proof

/-! ### CMD (rule R121) -/

/-- `cmd[31:24]`, the opcode. -/
def opField (cmd : Word) : BitVec 8 := cmd.extractLsb' 24 8

/-- `cmd[23:16]`, the CSR address or unit mask. -/
def addrField (cmd : Word) : BitVec 8 := cmd.extractLsb' 16 8

/-- `cmd[15:0]`, which must be 0. -/
def zField (cmd : Word) : BitVec 16 := cmd.extractLsb' 0 16

/-- The command word `{op, addr, 0x0000}`. -/
def cmdWord (op addr : BitVec 8) : Word := op ++ addr ++ 0#16

/-- Rule R133 for a word with OP in 0x00..0x04: a non-zero Z field, a non-zero ADDR under NOP or CLRERR, or non-zero
`cmd[23:20]` under RESET. -/
def malformedWord (cmd : Word) : Bool :=
  zField cmd != 0 ||
  ((opField cmd == 0 || opField cmd == 4) && addrField cmd != 0) ||
  (opField cmd == 3 && cmd.extractLsb' 20 4 != 0)

/-- The unit mask of a RESET as an ADDR field (rule R124): bit 16 TS, bit 17 FS, bit 18 BB, bit 19 HIF. -/
def resetMask (ts fs bb hif : Bool) : BitVec 8 :=
  0#4 ++ BitVec.ofBool hif ++ BitVec.ofBool bb ++ BitVec.ofBool fs ++ BitVec.ofBool ts

/-! ### SBEAT (rule R126) -/

/-- `beat[95:94]`, the KIND. -/
def sKind (b : Beat) : BitVec 2 := b.extractLsb' 94 2

/-- `beat[31:0]`, the real part's binary32 field. -/
def sRe (b : Beat) : Word := b.extractLsb' 0 32

/-- `beat[63:32]`, the imaginary part's binary32 field. -/
def sIm (b : Beat) : Word := b.extractLsb' 32 32

/-- `beat[63:0]`, which holds every tag payload (`TAG_W ≤ 64`). -/
def sPayload (b : Beat) : TagPayload := b.extractLsb' 0 64

/-- A SAMPLE beat, its ignored bits 0. -/
def sampleBeat (re im : Word) : Beat := 0#32 ++ im ++ re

/-- A TAG beat with a TS tag payload, its other bits 0. -/
def tagBeat (payload : TagPayload) : Beat := 1#2 ++ 0#30 ++ payload

/-- An EOS beat, its ignored bits 0. -/
def eosBeat : Beat := 2#2 ++ 0#94

/-- A reserved beat with its other bits 0 (rule R128). -/
def reservedBeat : Beat := 3#2 ++ 0#94

/-- The frame-start TAG of `FS_OUT` (rule R127): `[4:0]` MODCOD, `[5]` SHORT_FRAME, the rest 0. -/
def frameTagBeat (modcod : BitVec 5) (shortFrame : Bool) : Beat :=
  1#2 ++ 0#88 ++ BitVec.ofBool shortFrame ++ modcod

/-- The low `tagW` bits of a tag payload (rule R126). -/
def maskTag (tagW : Nat) (p : TagPayload) : TagPayload := BitVec.ofNat 64 (p.toNat % 2 ^ tagW)

/-! ### BBEAT (rules R129, R130) -/

/-- `beat[31:30]`, the KIND. -/
def bKind (w : Word) : BitVec 2 := w.extractLsb' 30 2

/-- A BYTE beat of `BB_IN`, its ignored bits 0. -/
def byteBeat (b : Byte) : Word := 0#24 ++ b

/-- A FRAME_START beat, its ignored bits 0. -/
def startBeat (kbch : BitVec 16) (disc : Bool) : Word := 1#2 ++ 0#13 ++ BitVec.ofBool disc ++ kbch

/-- An EOS beat of `BB_IN` or `BB_OUT`. -/
def bbEosBeat : Word := 2#2 ++ 0#30

/-- A reserved beat of `BB_IN` with its other bits 0. -/
def bbReservedBeat : Word := 3#2 ++ 0#30

/-- A BYTE beat of `BB_OUT`: `[7:0]` the byte, `[8]` SOP. -/
def outByteBeat (b : Byte) (sop : Bool) : Word := 0#23 ++ BitVec.ofBool sop ++ b

end Sys2Proof
end

