-- ==== Sys2Proof/Config.lean ====
section
/-!
DEFINITION. What is fixed when the core is built (00_scope.md rule R9) and the free values.

`Params` holds the two open parameters of rule R9, `NUMERICS` and `TAG_W`.  "The model takes each as an argument": the
step of the host's interface has no argument but the state, so `State` carries a `Params` that no step changes
(assumption log 1 and 2).  The opaque constants below are the free values: nothing in Lean can evaluate one, so a
statement that holds of the model holds whatever they are.
-/

namespace Sys2Proof

/-- The parameter `NUMERICS` (00_scope.md rules R9, R18; 93_implementation_defined.md I1). -/
inductive Numerics where
  /-- The reference of I1: the rules' own formulas in exact rational arithmetic, with √, arg, cis and π evaluated by
  `Machine/Arith.lean` (assumption log 7). -/
  | reference
  /-- Some implementation's number format, of which a model assumes only that a result depends on the operands
  (rule R18).  `id` tells one implementation from another. -/
  | other (id : Nat)
deriving DecidableEq, Repr, Inhabited

/-- The parameters fixed when the core is built (00_scope.md rule R9). -/
structure Params where
  /-- `TAG_W`, the width in bits of a TS tag payload, 1 to 64. -/
  tagW     : Nat
  numerics : Numerics
deriving DecidableEq, Repr, Inhabited

/-- The places of the rules whose result is a `NUMERICS` result (00_scope.md rule R18), one for each formula that
leaves a value in the state, in an output beat or in a decision. -/
inductive Site where
  | gainK1 | gainK2                     -- rule R183
  | midTime | onTime                    -- rule R185
  | interpolant                         -- rule R186
  | tedError                            -- rule R188
  | loopIntegrator | loopOutput         -- rule R189
  | sofMetric                           -- rule R268
  | plscSoft | plscMetric (v : Pls)     -- rules R272, R273
  | coarseMeasure | coarseAcc           -- rule R223
  | coarseEps                           -- rule R224
  | freqUpdate                          -- rules R225, R234
  | fineEps                             -- rules R227 to R229
  | command                             -- rule R238
  | descramble                          -- rule R301
deriving DecidableEq, Repr

/-- FREE VALUE.  A real result of the site `site` on `operands` (rule R18), for an implementation's arithmetic or for
operands that are no real numbers (I3).  `tick` is 0 when every operand is a real number. -/
opaque Config.freeReal (n : Numerics) (site : Site) (tick : Nat) (operands : List Num) : Rat

/-- FREE VALUE.  As `freeReal`, for a result that may itself be a NaN or an infinity (I3). -/
opaque Config.freeNum (n : Numerics) (site : Site) (tick : Nat) (operands : List Num) : Num

/-- FREE VALUE.  As `freeNum`, for a complex result. -/
opaque Config.freeCx (n : Numerics) (site : Site) (tick : Nat) (operands : List Num) : Cx

/-- FREE VALUE.  The binary32 field sent for a value that is no real number (I3); `k` tells apart the fields sent in
one step. -/
opaque Config.freeBits (tick : Nat) (k : Nat) : Word

/-- FREE VALUE.  The PLS used at an expected header in CCM when none was latched at lock, which 43_frame_sync.md rule
R276 does not state (assumption log 10). -/
opaque Config.freePls (tick : Nat) : Pls

end Sys2Proof
end

