-- ==== Sys2Proof/Machine/State.lean ====
section
/-!
DEFINITION. The state of the core as plain data (10_state.md), and its reset value (70_reset_and_hazards.md rule R390).

One record per unit (rules R78 to R82), the RW registers of the CSR map (rule R38), the ports (rule R84), and what the
model adds: the build parameters, the environment's script and the mark of free values (assumption log 1, 2, 3, 9).
RO registers are no storage of their own: each is a view of the unit state it shows (`Machine/Flags.lean`).
-/

namespace Sys2Proof.Machine

/-! ### CSR file (rule R38) -/

/-- The RW registers.  `HIF_ID` and `HIF_VERSION` are constants and every other RO register mirrors unit state. -/
structure Csrs where
  tsSps         : Word
  tsLoopBw      : Word
  tsDamping     : Word
  tsRolloff     : Word
  tsRrcDelay    : Word
  tsNfilt       : Word
  tsInterp      : Word
  tsTedGain     : Word
  fsGold        : Word
  fsFreqPeriod  : Word
  fsCtrl        : Word
  fsPlsFilter0  : Word
  fsPlsFilter1  : Word
  fsPlsFilter2  : Word
  fsPlsFilter3  : Word
  fsSofThresh   : Word
  fsLockCount   : Word
  fsUnlockCount : Word
  fsFineThresh  : Word
deriving DecidableEq, Repr

/-! ### HIF (rule R82) -/

/-- HIF's state: `HIF_STATUS` and the single-slot outbox. -/
structure HifState where
  status  : Word
  obValid : Bool
  /-- rad/symbol -/
  obValue : Rat
deriving DecidableEq, Repr

/-! ### TS (rule R78) -/

/-- The kind of an interpolant. -/
inductive Phase where
  | mid
  | on
deriving DecidableEq, Repr

/-- An on-time interpolant not yet sent, and its time. -/
structure Held where
  y : Cx
  t : Rat
deriving DecidableEq, Repr

/-- A tag not yet attached to an output, and its index. -/
structure Tag where
  index   : Nat
  payload : TagPayload
deriving DecidableEq, Repr

/-- The state of the Symbol Timing Synchronizer. -/
structure TsState where
  /-- The samples received, the newest first (assumption log 16). -/
  x        : List Cx
  nIn      : Nat
  kOn      : Nat
  muOn     : Rat
  ph       : Phase
  v        : Rat
  /-- `I`, the PI integrator. -/
  integ    : Rat
  k1       : Rat
  k2       : Rat
  yMid     : Option Cx
  yPrev    : Option Cx
  tPrev    : Option Rat
  held     : Option Held
  tags     : List Tag
  outCount : Word
  eos      : Bool
deriving DecidableEq, Repr

/-! ### FS (rule R79) -/

/-- The lock state (rule R32). -/
inductive Lock where
  | unlocked
  | locked
deriving DecidableEq, Repr

/-- The geometry of a PLFRAME (43_frame_sync.md rule R275). -/
structure Geometry where
  /-- `S`, slots. -/
  slots       : Nat
  /-- `P`, pilot blocks. -/
  pilotBlocks : Nat
  /-- `XFEC`, payload symbols. -/
  xfec        : Nat
  /-- `L`, symbols of the PLFRAME. -/
  len         : Nat
deriving DecidableEq, Repr

/-- The frame whose payload is being processed (43_frame_sync.md rule R289). -/
structure Frame where
  /-- The index of its header. -/
  h    : Nat
  pls  : Pls
  emit : Bool
  /-- The gold code latched at its header (rule R262). -/
  gold : Nat
  /-- Whether a hit started it (rule R293). -/
  hit  : Bool
  geom : Geometry
deriving DecidableEq, Repr

/-- The state of the PL Frame Synchronizer. -/
structure FsState where
  /-- The symbols received, the newest first (assumption log 16). -/
  r            : List Cx
  nIn          : Nat
  lock         : Lock
  hits         : Nat
  misses       : Nat
  nextHdr      : Option Nat
  searchFrom   : Nat
  ccmPls       : Option Pls
  frm          : Option Frame
  lastPls      : Pls
  lastPlsValid : Bool
  frameCount   : Word
  eos          : Bool
deriving DecidableEq, Repr

/-! ### FE (rule R80) -/

/-- The tracking state (rule R32). -/
inductive FState where
  | uncorrected
  | coarseCorrected
  | fineTracking
deriving DecidableEq, Repr

/-- The state of the Frequency Offset Estimator. -/
structure FeState where
  fstate  : FState
  /-- cycles/symbol -/
  fCum    : Rat
  acc     : Cx
  cnt     : Nat
  /-- rad/symbol -/
  lastCmd : Rat
  /-- CLOSED_LOOP as latched at the latest header evaluation. -/
  mode    : Bool
deriving DecidableEq, Repr

/-! ### BB (rule R81) -/

/-- The state of the BBFRAME Deheader. -/
structure BbState where
  isOpen      : Bool
  kbch        : Nat
  disc        : Bool
  fbuf        : List Byte
  nbytes      : Nat
  /-- `partial`, the user packet in progress. -/
  part        : List Byte
  havePart    : Bool
  framesOk    : Word
  crcErr      : Word
  hdrErr      : Word
  malformed   : Word
  packetsOut  : Word
  eos         : Bool
deriving DecidableEq, Repr

/-! ### The environment (00_scope.md rule R22; assumption log 3) -/

/-- The ports the host takes output from (rule R84). -/
inductive OutPort where
  | rsp
  | ts
  | fs
  | bb
deriving DecidableEq, Repr

/-- The agents that take steps (00_scope.md rule R22), the host by the output port it takes from. -/
inductive Agent where
  | hif
  | ts
  | fs
  | bb
  | host (p : OutPort)
  | rotator
deriving DecidableEq, Repr

/-- What happens next: the host supplies a word or beat on an input port, or an agent has its turn. -/
inductive Event where
  | supplyCmd (w : Word)
  | supplyTs (b : Beat)
  | supplyFs (b : Beat)
  | supplyBb (w : Word)
  | turn (a : Agent)
deriving DecidableEq, Repr

/-! ### The whole state -/

/-- The core, its ports and its environment's script. -/
structure State where
  /-- `NUMERICS` and `TAG_W`; no step changes it. -/
  params : Params
  csr    : Csrs
  hif    : HifState
  ts     : TsState
  fs     : FsState
  fe     : FeState
  bb     : BbState
  cmdIn  : List Word
  rspOut : List Word
  tsIn   : List Beat
  tsOut  : List Beat
  fsIn   : List Beat
  fsOut  : List Beat
  bbIn   : List Word
  bbOut  : List Word
  /-- The MSG beats delivered to the rotator, the oldest first. -/
  rotOut : List Word
  /-- The environment's script: the order of the agents' steps and the host's supply of input. -/
  sched  : List Event
  /-- The mark of the next step's free values: it advances at every TS.SAMPLE, TS.EOS and FS.SAMPLE. -/
  tick   : Nat
deriving DecidableEq, Repr

/-- Why a step stops with a fault. -/
inductive Fault where
  /-- Raised by `step` when the host's turn finds on an output port a beat that no rule sends there, which no run
  from reset can hold.  Safe: the model stops, and the core has no such state. -/
  | beatNeverSent (p : OutPort)
deriving DecidableEq, Repr

/-- Why the model gives an instruction no meaning. -/
inductive Refusal where
  /-- Raised by `exec` for an instruction without a meaning; no arm uses it.  Safe: the model stops. -/
  | notModelled (mnemonic : String)
deriving DecidableEq, Repr

/-! ### Reset (70_reset_and_hazards.md rule R390) -/

/-- The reset column of rule R38. -/
def Csrs.reset : Csrs where
  tsSps         := 0x40000000
  tsLoopBw      := 0x00000000
  tsDamping     := 0x00000000
  tsRolloff     := 0x3E4CCCCD
  tsRrcDelay    := 0
  tsNfilt       := 1
  tsInterp      := 1
  tsTedGain     := 0x3F800000
  fsGold        := 0
  fsFreqPeriod  := 1
  fsCtrl        := 0
  fsPlsFilter0  := 0xFFFFFFFF
  fsPlsFilter1  := 0xFFFFFFFF
  fsPlsFilter2  := 0xFFFFFFFF
  fsPlsFilter3  := 0xFFFFFFFF
  fsSofThresh   := 0x3F333333
  fsLockCount   := 2
  fsUnlockCount := 3
  fsFineThresh  := 0x38D1B717

/-- The reset column of rule R82. -/
def HifState.reset : HifState where
  status  := 0
  obValid := false
  obValue := 0

/-- The reset column of rule R78. -/
def TsState.reset : TsState where
  x        := []
  nIn      := 0
  kOn      := 0
  muOn     := 0
  ph       := .mid
  v        := 0
  integ    := 0
  k1       := 0
  k2       := 0
  yMid     := none
  yPrev    := none
  tPrev    := none
  held     := none
  tags     := []
  outCount := 0
  eos      := false

/-- The reset column of rule R79. -/
def FsState.reset : FsState where
  r            := []
  nIn          := 0
  lock         := .unlocked
  hits         := 0
  misses       := 0
  nextHdr      := none
  searchFrom   := 0
  ccmPls       := none
  frm          := none
  lastPls      := 0
  lastPlsValid := false
  frameCount   := 0
  eos          := false

/-- The reset column of rule R80. -/
def FeState.reset : FeState where
  fstate  := .uncorrected
  fCum    := 0
  acc     := .fin ⟨0, 0⟩
  cnt     := 0
  lastCmd := 0
  mode    := false

/-- The reset column of rule R81. -/
def BbState.reset : BbState where
  isOpen     := false
  kbch       := 0
  disc       := false
  fbuf       := []
  nbytes     := 0
  part       := []
  havePart   := false
  framesOk   := 0
  crcErr     := 0
  hdrErr     := 0
  malformed  := 0
  packetsOut := 0
  eos        := false

/-- Power-on reset (rule R390): every register at its reset value, every port empty.  The build parameters are the
reference arithmetic and the widest tag (assumption log 1, 2); nothing is scripted (assumption log 3). -/
def State.reset : State where
  params := ⟨64, .reference⟩
  csr    := Csrs.reset
  hif    := HifState.reset
  ts     := TsState.reset
  fs     := FsState.reset
  fe     := FeState.reset
  bb     := BbState.reset
  cmdIn  := []
  rspOut := []
  tsIn   := []
  tsOut  := []
  fsIn   := []
  fsOut  := []
  bbIn   := []
  bbOut  := []
  rotOut := []
  sched  := []
  tick   := 0

end Sys2Proof.Machine
end

