-- ==== Sys2Proof/Machine/Flags.lean ====
section
/-!
DEFINITION. The flags of the core (10_state.md rule R32): the sticky error bits of `HIF_STATUS` (rule R43) and the
words of the status registers that show unit state (rules R45, R69).
-/

namespace Sys2Proof.Machine

/-- The error bits of `HIF_STATUS` (rule R43, 60_exceptions.md rule R362). -/
inductive Err where
  | cmdErr
  | csrAddrErr
  | csrValErr
  | beatErr
  | outboxOverwrite
  | tsTagDrop
  | bbStray
deriving DecidableEq, Repr

/-- The bit number of an error (rule R43). -/
def Err.bit : Err → Nat
  | .cmdErr => 0
  | .csrAddrErr => 1
  | .csrValErr => 2
  | .beatErr => 3
  | .outboxOverwrite => 4
  | .tsTagDrop => 5
  | .bbStray => 6

/-- The status word with only this error's bit set. -/
def Err.mask (e : Err) : Word := BitVec.twoPow 32 e.bit

/-- `HIF_STATUS` with an error's bit set; a bit already set stays set (rule R364). -/
def setErr (e : Err) (h : HifState) : HifState := { h with status := h.status ||| e.mask }

/-- `raise <Err>` (00_scope.md rule R16): sets the sticky bit and nothing else.  The core's only form of exception:
it never traps (60_exceptions.md rule R360). -/
def raise (e : Err) (s : State) : State := { s with hif := setErr e s.hif }

/-- `FREQ_STATE` (rule R69). -/
def FState.code : FState → BitVec 2
  | .uncorrected => 0
  | .coarseCorrected => 1
  | .fineTracking => 2

/-- `FS_STATUS` (rule R69). -/
def fsStatusWord (fs : FsState) (fe : FeState) : Word :=
  0#21 ++ BitVec.ofBool fs.lastPlsValid ++ fs.lastPls ++ fe.fstate.code ++ BitVec.ofBool (fs.lock == .locked)

/-- `HIF_OUTBOX_STATUS` (rule R45). -/
def outboxStatusWord (h : HifState) : Word := 0#31 ++ BitVec.ofBool h.obValid

end Sys2Proof.Machine
end

