-- ==== Sys2Proof/Machine/Arith.lean ====
section
/-!
DEFINITION. The arithmetic of the rules (00_scope.md rules R17, R18).

First exact complex arithmetic and the exact real functions of rule R17.  Then the reference evaluation of the
functions that leave the rationals, √, arg, cis and π (assumption log 7): fixed point with 96 fraction bits, exact
where the result is (a perfect square, an angle of a whole number of quarter turns).  Last the `NUMERICS` results of
rule R18: each is the rule's own formula under the reference arithmetic, and a free value that depends on the operands
under any other.
-/

namespace Sys2Proof

/-! ### Complex numbers -/

def CQ.zero : CQ := ⟨0, 0⟩
def CQ.add (a b : CQ) : CQ := ⟨a.re + b.re, a.im + b.im⟩
def CQ.sub (a b : CQ) : CQ := ⟨a.re - b.re, a.im - b.im⟩
def CQ.mul (a b : CQ) : CQ := ⟨a.re * b.re - a.im * b.im, a.re * b.im + a.im * b.re⟩
def CQ.conj (a : CQ) : CQ := ⟨a.re, -a.im⟩
def CQ.scale (c : Rat) (a : CQ) : CQ := ⟨c * a.re, c * a.im⟩
/-- `|a|²`. -/
def CQ.normSq (a : CQ) : Rat := a.re * a.re + a.im * a.im
def CQ.sum (l : List CQ) : CQ := l.foldl CQ.add CQ.zero

/-- Multiplication by `j^(−r)` (43_frame_sync.md rule R301): by 1, −j, −1 or j. -/
def CQ.mulJNeg (r : Fin 4) (a : CQ) : CQ :=
  match r with
  | 0 => a
  | 1 => ⟨a.im, -a.re⟩
  | 2 => ⟨-a.re, -a.im⟩
  | 3 => ⟨-a.im, a.re⟩

/-! ### Values that may be no real number (93_implementation_defined.md I3) -/

/-- Whether a value is a real number. -/
def Num.isFin : Num → Bool
  | .fin _ => true
  | .nonFinite => false

/-- The real number a value is, 0 for one that is none (never used as a result then). -/
def Num.val : Num → Rat
  | .fin q => q
  | .nonFinite => 0

/-- The complex number a value is, 0 for one that is none (never used as a result then). -/
def Cx.val : Cx → CQ
  | .fin z => z
  | .nonFinite => CQ.zero

/-- A complex value as two operands. -/
def Cx.operands : Cx → List Num
  | .fin z => [.fin z.re, .fin z.im]
  | .nonFinite => [.nonFinite, .nonFinite]

/-- `a > b`; a comparison involving a NaN is false (I3). -/
def Num.gt : Num → Num → Bool
  | .fin a, .fin b => decide (b < a)
  | _, _ => false

/-- `a ≥ b`; a comparison involving a NaN is false (I3). -/
def Num.ge : Num → Num → Bool
  | .fin a, .fin b => decide (b ≤ a)
  | _, _ => false

namespace Machine

/-! ### The real functions of rule R17 -/

/-- `clamp(x, lo, hi) = min(hi, max(lo, x))`. -/
def clampRat (x lo hi : Rat) : Rat := min hi (max lo x)

/-- `fmod(x, 1) = x − trunc(x)`, which keeps the sign of `x`. -/
def fmod1 (x : Rat) : Rat := if 0 ≤ x then x - (x.floor : Rat) else x - (x.ceil : Rat)

/-- The value in (−1/2, 1/2] congruent to `f` modulo 1: `wrapf` of 42_freq_estimator.md rule R225, and `wrap` of rule
R17 with the angle in turns. -/
def wrapf (f : Rat) : Rat := f - ((f - 1 / 2).ceil : Rat)

/-- `floor` of a time, a non-negative number. -/
def floorNat (t : Rat) : Nat := t.floor.toNat

/-- `Σ` of a list. -/
def sumRat (l : List Rat) : Rat := l.foldl (· + ·) 0

/-! ### Reference evaluation of √, arg, cis and π -/

/-- The fixed-point unit, 2^96. -/
def fxOne : Nat := 2 ^ 96

/-- Product of two fixed-point numbers. -/
def fxMul (a b : Int) : Int := a * b / (fxOne : Int)

/-- π, rounded down to 128 fraction bits. -/
def piRef : Rat := mkRat 0x3243f6a8885a308d313198a2e03707344 (2 ^ 128)

/-- π in fixed point. -/
def fxPi : Int := (0x3243f6a8885a308d313198a2e03707344 : Int) / (2 ^ 32 : Int)

/-- Newton's iteration for the integer square root of `n`, from an `x` at or above it. -/
def isqrtLoop (n : Nat) : Nat → Nat → Nat
  | 0, x => x
  | fuel + 1, x =>
      let y := (x + n / x) / 2
      if y < x then isqrtLoop n fuel y else x

/-- The integer square root, `⌊√n⌋`. -/
def isqrt (n : Nat) : Nat :=
  if n = 0 then 0 else isqrtLoop n (n.log2.log2 + 8) (2 ^ (n.log2 / 2 + 1))

/-- `√q` for `q ≥ 0`, to 64 bits or more, exact when it is rational. -/
def sqrtRef (q : Rat) : Rat :=
  if q ≤ 0 then 0
  else mkRat (isqrt (q.num.toNat * q.den * 4 ^ 64) : Int) (q.den * 2 ^ 64)

/-- `Σ_{i ≥ k} (−1)^(i−k) t^(2(i−k)) / (2i+1)` to `n` terms, `t2 = t²`. -/
def atanTail (t2 : Int) : Nat → Nat → Int
  | 0, k => (fxOne : Int) / (2 * k + 1 : Int)
  | n + 1, k => (fxOne : Int) / (2 * k + 1 : Int) - fxMul t2 (atanTail t2 n (k + 1))

/-- The tangent of half the angle whose tangent is `t`. -/
def atanHalf (t : Int) : Int :=
  t * fxOne / ((fxOne : Int) + (isqrt (fxOne * fxOne + (t * t).toNat) : Int))

/-- `atan t` in radians for a fixed-point `t` in [0, 1]. -/
def fxAtan (t : Int) : Int :=
  let u := atanHalf (atanHalf (atanHalf t))
  8 * fxMul u (atanTail (fxMul u u) 16 0)

/-- The angle of the point with coordinates `hi ≥ lo ≥ 0`, `hi > 0`, in turns. -/
def octantTurns (lo hi : Rat) : Rat :=
  if lo = 0 then 0
  else if lo = hi then 1 / 8
  else mkRat (fxAtan ((lo / hi * (fxOne : Rat)).floor) * fxOne / (2 * fxPi)) fxOne

/-- `arg(z)/(2π)`, the angle of `z` in turns, in (−1/2, 1/2], with `arg(0) = 0` (rule R17). -/
def argTurns (z : CQ) : Rat :=
  let ax := |z.re|
  let ay := |z.im|
  if ax = 0 ∧ ay = 0 then 0
  else
    let q1 := if ay ≤ ax then octantTurns ay ax else 1 / 4 - octantTurns ax ay
    let q2 := if z.re < 0 then 1 / 2 - q1 else q1
    wrapf (if z.im < 0 then -q2 else q2)

/-- `1 − x²/((2k+2)(2k+3)) (1 − …)`, the sine's series over `x`. -/
def sinTail (x2 : Int) : Nat → Nat → Int
  | 0, _ => fxOne
  | n + 1, k => fxOne - fxMul x2 (sinTail x2 n (k + 1)) / ((2 * k + 2) * (2 * k + 3) : Int)

/-- `1 − x²/((2k+1)(2k+2)) (1 − …)`, the cosine's series. -/
def cosTail (x2 : Int) : Nat → Nat → Int
  | 0, _ => fxOne
  | n + 1, k => fxOne - fxMul x2 (cosTail x2 n (k + 1)) / ((2 * k + 1) * (2 * k + 2) : Int)

/-- `cis(2π·f)` for `f` in turns: the nearest quarter turn exactly, the rest by series. -/
def cisTurns (f : Rat) : CQ :=
  let q := (4 * f + 1 / 2).floor
  let rest := f - mkRat q 4
  let x : Int := 2 * fxPi * (rest * (fxOne : Rat)).floor / fxOne
  let x2 := fxMul x x
  let c := mkRat (cosTail x2 14 0) fxOne
  let s := mkRat (fxMul x (sinTail x2 14 0)) fxOne
  match q % 4 with
  | 0 => ⟨c, s⟩
  | 1 => ⟨-s, c⟩
  | 2 => ⟨-c, -s⟩
  | _ => ⟨s, -c⟩

/-! ### `NUMERICS` results (rule R18, I1, I3) -/

/-- What the arithmetic of one step depends on beside its operands: the parameter `NUMERICS`, and the step's own mark
for values that are no real numbers (I3, assumption log 9). -/
structure NumCtx where
  numerics : Numerics
  tick     : Nat
deriving DecidableEq, Repr

/-- Whether the rule's own formula gives the result: the reference arithmetic on operands that are real numbers. -/
def NumCtx.exact (c : NumCtx) (operands : List Num) : Bool :=
  c.numerics == .reference && operands.all Num.isFin

/-- The mark of a free value: it depends on the operands alone when they are real numbers (rule R18). -/
def NumCtx.mark (c : NumCtx) (operands : List Num) : Nat :=
  if operands.all Num.isFin then 0 else c.tick

/-- A `NUMERICS` result of real type, `formula` under the reference arithmetic. -/
def numReal (c : NumCtx) (site : Site) (operands : List Num) (formula : Rat) : Rat :=
  if c.exact operands then formula else Config.freeReal c.numerics site (c.mark operands) operands

/-- As `numReal`, for a result the rules keep in [lo, hi]: the limit holds of a free value too. -/
def numWithin (c : NumCtx) (site : Site) (operands : List Num) (lo hi formula : Rat) : Rat :=
  if c.exact operands then formula
  else clampRat (Config.freeReal c.numerics site (c.mark operands) operands) lo hi

/-- A `NUMERICS` result that may itself be no real number (I3). -/
def numNum (c : NumCtx) (site : Site) (operands : List Num) (formula : Rat) : Num :=
  if c.exact operands then .fin formula else Config.freeNum c.numerics site (c.mark operands) operands

/-- A complex `NUMERICS` result (I3). -/
def numCx (c : NumCtx) (site : Site) (operands : List Num) (formula : CQ) : Cx :=
  if c.exact operands then .fin formula else Config.freeCx c.numerics site (c.mark operands) operands

end Machine
end Sys2Proof
end

