-- ==== Sys2Proof/Machine/Operands.lean ====
section
/-!
DEFINITION. The operand forms: binary32 patterns to real numbers and back (00_scope.md rule R15, 10_state.md rule R36).
-/

namespace Sys2Proof.Machine

/-- The magnitude `m·2^e / 2^150` of a finite binary32 pattern, by its exponent and fraction fields. -/
def f32Magnitude (expo frac : Nat) : Rat :=
  if expo = 0 then mkRat (frac * 2 : Nat) (2 ^ 150) else mkRat ((2 ^ 23 + frac) * 2 ^ expo : Nat) (2 ^ 150)

/-- `f32(w)`: the real number the binary32 pattern `w` denotes, or none for a NaN or an infinity (R15, R36). -/
def f32 (w : Word) : Num :=
  let expo := (w.extractLsb' 23 8).toNat
  let frac := (w.extractLsb' 0 23).toNat
  if expo = 255 then .nonFinite
  else .fin (if w.getLsbD 31 then -f32Magnitude expo frac else f32Magnitude expo frac)

/-- `f32(w)` of a register, whose legal set holds finite patterns only (R36). -/
def f32Val (w : Word) : Rat := (f32 w).val

/-- The complex sample of two binary32 fields (30_encoding.md rules R94, R126). -/
def f32Sample (re im : Word) : Cx :=
  match f32 re, f32 im with
  | .fin a, .fin b => .fin ⟨a, b⟩
  | _, _ => .nonFinite

/-- `n / d` rounded to the nearest integer, ties to even. -/
def roundEven (n d : Nat) : Nat :=
  let q := n / d
  let r := n % d
  if 2 * r < d then q else if d < 2 * r then q + 1 else if q % 2 = 0 then q else q + 1

/-- The exponent `e` with `2^e ≤ n/d < 2^(e+1)`, for `n, d > 0`. -/
def binExponent (n d : Nat) : Int :=
  let e : Int := (n.log2 : Int) - (d.log2 : Int)
  let below := if 0 ≤ e then decide (n < d * 2 ^ e.toNat) else decide (n * 2 ^ (-e).toNat < d)
  if below then e - 1 else e

/-- The binary32 pattern of `n/d > 0` without its sign, rounded to nearest-even; a magnitude that rounds past the
largest finite one is the infinity, as IEEE-754 rounds it (assumption log 12). -/
def bits32Magnitude (n d : Nat) : Nat :=
  let e := max (binExponent n d) (-126)
  let k := 23 - e
  let m := if 0 ≤ k then roundEven (n * 2 ^ k.toNat) d else roundEven n (d * 2 ^ (-k).toNat)
  min ((e + 126).toNat * 2 ^ 23 + m) (255 * 2 ^ 23)

/-- `bits32(x)`: the binary32 pattern of a real number, rounded to nearest-even (R15).  Zero is the pattern 0. -/
def bits32 (x : Rat) : Word :=
  if x = 0 then 0
  else
    let m := bits32Magnitude x.num.natAbs x.den
    BitVec.ofNat 32 (if x < 0 then 2 ^ 31 + m else m)

/-- The two binary32 fields sent for a complex value, the real part first (30_encoding.md rule R126). -/
def cxBits (tick k : Nat) : Cx → Word × Word
  | .fin z => (bits32 z.re, bits32 z.im)
  | .nonFinite => (Config.freeBits tick (2 * k), Config.freeBits tick (2 * k + 1))

end Sys2Proof.Machine
end

