-- ==== Sys2Proof/Machine/Ops.lean ====
section
/-!
DEFINITION. The named operations that instructions share: the CSR space (10_state.md rules R33 to R40), the loop gains
that three of its registers determine (41_timing_sync.md rule R183), the ports and the unit resets
(70_reset_and_hazards.md rule R391).

There is no exception to take and none to return from (60_exceptions.md rule R360): `raise` of Machine/Flags.lean is
what stands in that place.
-/

namespace Sys2Proof.Machine

/-- The parameters of one step's arithmetic. -/
def State.ctx (s : State) : NumCtx := ⟨s.params.numerics, s.tick⟩

/-! ### The CSR space -/

/-- The mapped registers, the 36 addresses that rules R38 and R40 list (assumption log 21). -/
inductive Csr where
  | hifId | hifVersion | hifStatus | hifOutbox | hifOutboxStatus
  | tsSps | tsLoopBw | tsDamping | tsRolloff | tsRrcDelay | tsNfilt | tsInterp | tsTedGain | tsK1 | tsK2 | tsOutCount
  | fsGold | fsFreqPeriod | fsCtrl | fsPlsFilter0 | fsPlsFilter1 | fsPlsFilter2 | fsPlsFilter3
  | fsSofThresh | fsLockCount | fsUnlockCount | fsFineThresh
  | fsStatus | fsFreqEst | fsFrameCount | fsLastCmd
  | bbFramesOk | bbFramesCrcErr | bbFramesHdrErr | bbFramesMalformed | bbPacketsOut
deriving DecidableEq, Repr

/-- The register at an address, none where the address is unmapped (rules R38, R40). -/
def Csr.ofAddr (a : BitVec 8) : Option Csr :=
  match a.toNat with
  | 0x00 => some .hifId
  | 0x01 => some .hifVersion
  | 0x02 => some .hifStatus
  | 0x03 => some .hifOutbox
  | 0x04 => some .hifOutboxStatus
  | 0x10 => some .tsSps
  | 0x11 => some .tsLoopBw
  | 0x12 => some .tsDamping
  | 0x13 => some .tsRolloff
  | 0x14 => some .tsRrcDelay
  | 0x15 => some .tsNfilt
  | 0x16 => some .tsInterp
  | 0x17 => some .tsTedGain
  | 0x18 => some .tsK1
  | 0x19 => some .tsK2
  | 0x1A => some .tsOutCount
  | 0x20 => some .fsGold
  | 0x21 => some .fsFreqPeriod
  | 0x22 => some .fsCtrl
  | 0x24 => some .fsPlsFilter0
  | 0x25 => some .fsPlsFilter1
  | 0x26 => some .fsPlsFilter2
  | 0x27 => some .fsPlsFilter3
  | 0x28 => some .fsSofThresh
  | 0x29 => some .fsLockCount
  | 0x2A => some .fsUnlockCount
  | 0x2B => some .fsFineThresh
  | 0x30 => some .fsStatus
  | 0x31 => some .fsFreqEst
  | 0x32 => some .fsFrameCount
  | 0x33 => some .fsLastCmd
  | 0x40 => some .bbFramesOk
  | 0x41 => some .bbFramesCrcErr
  | 0x42 => some .bbFramesHdrErr
  | 0x43 => some .bbFramesMalformed
  | 0x44 => some .bbPacketsOut
  | _ => none

/-- The value a CSRR reads (rules R41 to R77). -/
def readCsr (s : State) : Csr → Word
  | .hifId => 0x44533252
  | .hifVersion => 0x00070000
  | .hifStatus => s.hif.status
  | .hifOutbox => bits32 s.hif.obValue
  | .hifOutboxStatus => outboxStatusWord s.hif
  | .tsSps => s.csr.tsSps
  | .tsLoopBw => s.csr.tsLoopBw
  | .tsDamping => s.csr.tsDamping
  | .tsRolloff => s.csr.tsRolloff
  | .tsRrcDelay => s.csr.tsRrcDelay
  | .tsNfilt => s.csr.tsNfilt
  | .tsInterp => s.csr.tsInterp
  | .tsTedGain => s.csr.tsTedGain
  | .tsK1 => bits32 s.ts.k1
  | .tsK2 => bits32 s.ts.k2
  | .tsOutCount => s.ts.outCount
  | .fsGold => s.csr.fsGold
  | .fsFreqPeriod => s.csr.fsFreqPeriod
  | .fsCtrl => s.csr.fsCtrl
  | .fsPlsFilter0 => s.csr.fsPlsFilter0
  | .fsPlsFilter1 => s.csr.fsPlsFilter1
  | .fsPlsFilter2 => s.csr.fsPlsFilter2
  | .fsPlsFilter3 => s.csr.fsPlsFilter3
  | .fsSofThresh => s.csr.fsSofThresh
  | .fsLockCount => s.csr.fsLockCount
  | .fsUnlockCount => s.csr.fsUnlockCount
  | .fsFineThresh => s.csr.fsFineThresh
  | .fsStatus => fsStatusWord s.fs s.fe
  | .fsFreqEst => bits32 s.fe.fCum
  | .fsFrameCount => s.fs.frameCount
  | .fsLastCmd => bits32 s.fe.lastCmd
  | .bbFramesOk => s.bb.framesOk
  | .bbFramesCrcErr => s.bb.crcErr
  | .bbFramesHdrErr => s.bb.hdrErr
  | .bbFramesMalformed => s.bb.malformed
  | .bbPacketsOut => s.bb.packetsOut

/-- Whether the real value of a pattern is finite and satisfies `p` (rule R36). -/
def f32Legal (w : Word) (p : Rat → Bool) : Bool :=
  match f32 w with
  | .fin q => p q
  | .nonFinite => false

/-- Whether an unsigned value lies in lo..hi. -/
def u32Legal (w : Word) (lo hi : Nat) : Bool := decide (lo ≤ w.toNat) && decide (w.toNat ≤ hi)

/-- The legal set of an RW register (rules R50 to R68), none for an RO register. -/
def Csr.legal? (w : Word) : Csr → Option Bool
  | .tsSps => some (f32Legal w fun q => decide (1 < q) && decide (q ≤ 256))
  | .tsLoopBw => some (f32Legal w fun q => decide (0 ≤ q) && decide (q ≤ 1 / 2))
  | .tsDamping => some (f32Legal w fun q => decide (0 ≤ q) && decide (q ≤ 100))
  | .tsRolloff => some (f32Legal w fun q => decide (0 < q) && decide (q ≤ 1))
  | .tsRrcDelay => some (u32Legal w 0 255)
  | .tsNfilt => some (u32Legal w 1 4096)
  | .tsInterp => some (u32Legal w 1 3)
  | .tsTedGain => some (f32Legal w fun q => decide (0 < q) && decide (q ≤ 1000000))
  | .fsGold => some (u32Legal w 0 262141)
  | .fsFreqPeriod => some (u32Legal w 1 65535)
  | .fsCtrl => some true
  | .fsPlsFilter0 => some true
  | .fsPlsFilter1 => some true
  | .fsPlsFilter2 => some true
  | .fsPlsFilter3 => some true
  | .fsSofThresh => some (f32Legal w fun q => decide (0 < q) && decide (q ≤ 1))
  | .fsLockCount => some (u32Legal w 2 255)
  | .fsUnlockCount => some (u32Legal w 1 255)
  | .fsFineThresh => some (f32Legal w fun q => decide (0 ≤ q) && decide (q ≤ 1 / 2))
  | .hifId => none
  | .hifVersion => none
  | .hifStatus => none
  | .hifOutbox => none
  | .hifOutboxStatus => none
  | .tsK1 => none
  | .tsK2 => none
  | .tsOutCount => none
  | .fsStatus => none
  | .fsFreqEst => none
  | .fsFrameCount => none
  | .fsLastCmd => none
  | .bbFramesOk => none
  | .bbFramesCrcErr => none
  | .bbFramesHdrErr => none
  | .bbFramesMalformed => none
  | .bbPacketsOut => none

/-- The CSR file after a legal value is written, reserved bits cleared (rules R35, R63).  An RO register has no
storage here. -/
def writeCsr (c : Csrs) (w : Word) : Csr → Csrs
  | .tsSps => { c with tsSps := w }
  | .tsLoopBw => { c with tsLoopBw := w }
  | .tsDamping => { c with tsDamping := w }
  | .tsRolloff => { c with tsRolloff := w }
  | .tsRrcDelay => { c with tsRrcDelay := w }
  | .tsNfilt => { c with tsNfilt := w }
  | .tsInterp => { c with tsInterp := w }
  | .tsTedGain => { c with tsTedGain := w }
  | .fsGold => { c with fsGold := w }
  | .fsFreqPeriod => { c with fsFreqPeriod := w }
  | .fsCtrl => { c with fsCtrl := w &&& 0xF }
  | .fsPlsFilter0 => { c with fsPlsFilter0 := w }
  | .fsPlsFilter1 => { c with fsPlsFilter1 := w }
  | .fsPlsFilter2 => { c with fsPlsFilter2 := w }
  | .fsPlsFilter3 => { c with fsPlsFilter3 := w }
  | .fsSofThresh => { c with fsSofThresh := w }
  | .fsLockCount => { c with fsLockCount := w }
  | .fsUnlockCount => { c with fsUnlockCount := w }
  | .fsFineThresh => { c with fsFineThresh := w }
  | .hifId => c
  | .hifVersion => c
  | .hifStatus => c
  | .hifOutbox => c
  | .hifOutboxStatus => c
  | .tsK1 => c
  | .tsK2 => c
  | .tsOutCount => c
  | .fsStatus => c
  | .fsFreqEst => c
  | .fsFrameCount => c
  | .fsLastCmd => c
  | .bbFramesOk => c
  | .bbFramesCrcErr => c
  | .bbFramesHdrErr => c
  | .bbFramesMalformed => c
  | .bbPacketsOut => c

/-! ### Loop gains (41_timing_sync.md rule R183) -/

/-- `θ` of rule R183. -/
def loopTheta (b zeta : Rat) : Rat := b / (zeta + 1 / (4 * zeta))

/-- `d` of rule R183. -/
def loopDenom (b zeta : Rat) : Rat := 1 + 2 * zeta * loopTheta b zeta + loopTheta b zeta * loopTheta b zeta

/-- `gains(B, ζ, Kp)` of the three gain inputs (rule R183). -/
def gains (n : Numerics) (csr : Csrs) : Rat × Rat :=
  let c : NumCtx := ⟨n, 0⟩
  let b := f32 csr.tsLoopBw
  let zeta := f32 csr.tsDamping
  let kp := f32 csr.tsTedGain
  if zeta = .fin 0 ∨ b = .fin 0 then (0, 0)
  else
    let th := loopTheta b.val zeta.val
    let d := loopDenom b.val zeta.val
    (numReal c .gainK1 [b, zeta, kp] (4 * zeta.val * th / (d * kp.val)),
     numReal c .gainK2 [b, zeta, kp] (4 * th * th / (d * kp.val)))

/-- Whether a register is one of the three gain inputs (40_host_commands.md rule R161). -/
def Csr.isGainInput : Csr → Bool
  | .tsLoopBw | .tsDamping | .tsTedGain => true
  | _ => false

/-- TS with the gains recomputed from the CSR file. -/
def setGains (n : Numerics) (csr : Csrs) (ts : TsState) : TsState :=
  { ts with k1 := (gains n csr).1, k2 := (gains n csr).2 }

/-! ### Ports -/

/-- The host takes the beat `b` from an output port: the port without its head, where that is `b` (assumption log 5). -/
def takeHead {α : Type} [DecidableEq α] (port : List α) (b : α) : List α :=
  match port with
  | [] => []
  | x :: rest => if x = b then rest else x :: rest

/-! ### Unit resets (70_reset_and_hazards.md rule R391) -/

/-- `reset_unit(TS)`. -/
def resetTs (s : State) : State :=
  { s with ts := setGains s.params.numerics s.csr TsState.reset, tsIn := [] }

/-- `reset_unit(FS)`, with FE. -/
def resetFs (s : State) : State :=
  { s with fs := FsState.reset, fe := FeState.reset, fsIn := [] }

/-- `reset_unit(BB)`. -/
def resetBb (s : State) : State :=
  { s with bb := BbState.reset, bbIn := [] }

/-- `reset_unit(HIF)`. -/
def resetHif (s : State) : State :=
  { s with hif := HifState.reset }

end Sys2Proof.Machine
end

