-- ==== Sys2Proof/Machine/Bb.lean ====
section
/-!
DEFINITION. The BBFRAME Deheader (44_bb_deheader.md).
-/

namespace Sys2Proof.Machine

/-! ### CRC-8 (R324) -/

/-- One bit of the CRC register's shift. -/
def crcShift (c : Byte) : Byte := if c.getLsbD 7 then (c <<< 1) ^^^ 0xD5 else c <<< 1

/-- One byte into the CRC register: eight shifts. -/
def crcByte (c b : Byte) : Byte := (List.range 8).foldl (fun c _ => crcShift c) (c ^^^ b)

/-- `crc8(bytes)` (R324). -/
def crc8 (bytes : List Byte) : Byte := bytes.foldl crcByte 0

/-! ### The BBHEADER (R321, 20_memory.md rule R93) -/

/-- `F[i]`. -/
def byteAt (f : List Byte) (i : Nat) : Byte := f.getD i 0

/-- The big-endian two-byte field at `F[i], F[i+1]`. -/
def field16 (f : List Byte) (i : Nat) : Nat := 256 * (byteAt f i).toNat + (byteAt f (i + 1)).toNat

/-- `DFL`, in bits. -/
def dflOf (f : List Byte) : Nat := field16 f 4

/-- `SYNCD`, in bits. -/
def syncdOf (f : List Byte) : Nat := field16 f 7

/-- The CRC check of R334. -/
def crcGood (f : List Byte) : Bool := crc8 (f.take 9) == byteAt f 9

/-- The checks of R335 to R337. -/
def headerGood (f : List Byte) (kbch : Nat) : Bool :=
  decide (dflOf f + 80 ≤ kbch) && decide (dflOf f % 8 = 0) &&
  (decide (syncdOf f ≤ dflOf f) && decide (syncdOf f % 8 = 0))

/-- The DATAFIELD `F[10 .. 10 + DFL/8 − 1]` (R321). -/
def dataField (f : List Byte) : List Byte := (f.drop 10).take (dflOf f / 8)

/-! ### User packets (R340 to R343) -/

/-- BB in the middle of a step: its state and the beats sent so far. -/
structure BbRun where
  bb  : BbState
  out : List Word
deriving DecidableEq, Repr

/-- The beats of a user packet: 0x47 with SOP in place of its first byte, then the rest (R343). -/
def upBeats (u : List Byte) : List Word := outByteBeat 0x47 true :: u.tail.map fun b => outByteBeat b false

/-- `emit_up(U)` (R343). -/
def emitUp (u : List Byte) (r : BbRun) : BbRun :=
  { bb := { r.bb with packetsOut := r.bb.packetsOut + 1 }, out := r.out ++ upBeats u }

/-- `drop_partial()` (R329). -/
def dropPartial (b : BbState) : BbState := { b with part := [], havePart := false }

/-- The complete user packets of DATAFIELD bytes, and the bytes left over (R330, R341): at most `fuel` packets. -/
def cutPackets : Nat → List Byte → List (List Byte) × List Byte
  | 0, d => ([], d)
  | fuel + 1, d =>
      if 188 ≤ d.length then
        let (ups, rest) := cutPackets fuel (d.drop 188)
        (d.take 188 :: ups, rest)
      else ([], d)

/-- Whether the frame completes the partial packet (R340). -/
def completes (b : BbState) (s : Nat) : Bool := b.havePart && decide (b.part.length + s = 188)

/-- The partial packet that the bytes left over become, none for no bytes (R341). -/
def keepPartial (rest : List Byte) (b : BbState) : BbState :=
  if rest.isEmpty then b else { b with part := rest, havePart := true }

/-- The DATAFIELD of a valid frame (R330, R340, R341): `d` its bytes, `s` the offset of its first complete packet. -/
def takeData (d : List Byte) (s : Nat) (r : BbRun) : BbRun :=
  let r := if completes r.bb s then emitUp (r.bb.part ++ d.take s) r else r
  let r := { r with bb := dropPartial r.bb }
  let cut := cutPackets (d.length / 188) (d.drop s)
  let r := cut.1.foldl (fun r u => emitUp u r) r
  { r with bb := keepPartial cut.2 r.bb }

/-- `process_frame(F, kbch, disc)` (R330). -/
def processFrame (f : List Byte) (kbch : Nat) (disc : Bool) (b : BbState) : BbRun :=
  let b := if disc then dropPartial b else b
  if !crcGood f then { bb := dropPartial { b with crcErr := b.crcErr + 1 }, out := [] }
  else if !headerGood f kbch then { bb := dropPartial { b with hdrErr := b.hdrErr + 1 }, out := [] }
  else takeData (dataField f) (syncdOf f / 8) { bb := { b with framesOk := b.framesOk + 1 }, out := [] }

/-! ### Beats -/

/-- The state with BB's run put back: its beats appended to `BB_OUT` (20_memory.md rule R100). -/
def withBbRun (r : BbRun) (s : State) : State := { s with bb := r.bb, bbOut := s.bbOut ++ r.out }

/-- `legal_kbch(k)` (R333). -/
def legalKbch (k : Nat) : Bool := decide (k % 8 = 0) && decide (80 ≤ k) && decide (k ≤ 65528)

/-- A malformed frame is counted and the partial packet dropped (R332, R333). -/
def countMalformed (b : BbState) : BbState := dropPartial { b with malformed := b.malformed + 1 }

/-- `close_malformed()` (R329). -/
def closeMalformed (b : BbState) : BbState :=
  countMalformed { b with isOpen := false, fbuf := [], nbytes := 0 }

/-- BB after a FRAME_START (R325). -/
def startBb (k : Nat) (disc : Bool) (b : BbState) : BbState :=
  let b := if b.isOpen then closeMalformed b else b
  if legalKbch k then { b with isOpen := true, kbch := k, disc := disc, fbuf := [], nbytes := 0 }
  else countMalformed b

/-- BB.FRAME_START (R325, R342). -/
def execBbStart (kbch : BitVec 16) (disc : Bool) (s : State) : Host.Outcome State Fault Refusal :=
  .next (if s.bb.eos then s else { s with bb := startBb kbch.toNat disc s.bb })

/-- BB after a byte of the open frame (R326). -/
def appendByte (x : Byte) (b : BbState) : BbRun :=
  let b := { b with fbuf := b.fbuf ++ [x], nbytes := b.nbytes + 1 }
  if b.nbytes = b.kbch / 8 then processFrame b.fbuf b.kbch b.disc { b with isOpen := false }
  else { bb := b, out := [] }

/-- BB.BYTE (R326, R331, R342). -/
def execBbByte (x : Byte) (s : State) : Host.Outcome State Fault Refusal :=
  .next (if s.bb.eos then s
    else if s.bb.isOpen then withBbRun (appendByte x s.bb) s
    else raise .bbStray s)

/-- BB at the end of its stream (R327). -/
def endBb (b : BbState) : BbState :=
  { dropPartial (if b.isOpen then closeMalformed b else b) with eos := true }

/-- BB.EOS (R327, R342). -/
def execBbEos (s : State) : Host.Outcome State Fault Refusal :=
  .next (if s.bb.eos then s else withBbRun { bb := endBb s.bb, out := [bbEosBeat] } s)

/-- A reserved beat on `BB_IN` (30_encoding.md rule R128, R328); after EOS it too has no effect (R342, assumption
log 11). -/
def execBbReserved (s : State) : Host.Outcome State Fault Refusal :=
  .next (if s.bb.eos then s else raise .beatErr s)

end Sys2Proof.Machine
end

