-- ==== Sys2Proof/Machine/Header.lean ====
section
/-!
DEFINITION. The constants and functions of a PLFRAME: header bits and symbols (43_frame_sync.md rules R263 to R267),
geometry (rules R275, R291, R292) and the PL scrambling sequence (rules R300, R301).

A header symbol is held multiplied by √2, so that its parts are the integers ±1: every use of one is in a product or
an angle that this positive factor does not change, or is corrected for it (assumption log 18).
-/

namespace Sys2Proof.Machine

/-! ### PLS values (30_encoding.md rule R132) -/

/-- `PLS[6:2]`. -/
def modcodOf (p : Pls) : BitVec 5 := p.extractLsb' 2 5

/-- `PLS[1]`. -/
def shortOf (p : Pls) : Bool := p.getLsbD 1

/-- `PLS[0]`. -/
def pilotsOf (p : Pls) : Bool := p.getLsbD 0

/-- MODCOD 29..31, which has no geometry (R274). -/
def invalidPls (p : Pls) : Bool := decide (28 < (modcodOf p).toNat)

/-! ### Header bits (R263, R266, R267) -/

/-- The SOF, 26 bits, sent most significant first (R263). -/
def sofPattern : BitVec 26 := 0x18D2E82

/-- The fixed PLSC scrambling sequence, most significant bit first (R267). -/
def plscScramble : BitVec 64 := 0x719D83C953422DFA

/-- The rows `g_1..g_6` with the PLS bits that select them (R266). -/
def plscRows : List (Nat × BitVec 32) :=
  [(6, 0x55555555), (5, 0x33333333), (4, 0x0F0F0F0F), (3, 0x00FF00FF), (2, 0x0000FFFF), (1, 0xFFFFFFFF)]

/-- The 32-bit word `y` of a PLS value (R266). -/
def plscY (v : Pls) : BitVec 32 :=
  plscRows.foldl (fun acc row => if v.getLsbD row.1 then acc ^^^ row.2 else acc) 0

/-- `code_m(v)`, m = 0..63 (R266): each bit of `y`, then that bit plus the pilots bit. -/
def plscCode (v : Pls) (m : Nat) : Bool :=
  let y := (plscY v).getMsbD (m / 2)
  if m % 2 = 0 then y else y ^^ pilotsOf v

/-- The transmitted PLSC bit `code_m(v) ⊕ scr_m` (R267). -/
def plscBit (v : Pls) (m : Nat) : Bool := plscCode v m ^^ plscScramble.getMsbD m

/-- The header bit at position `k` = 0..89 (R265, R267). -/
def headerBit (v : Pls) (k : Nat) : Bool := if k < 26 then sofPattern.getMsbD k else plscBit v (k - 26)

/-! ### π/2-BPSK (R264) -/

/-- `√2 · q_k`, the symbol of header bit 0 at position `k` (R264, R272). -/
def bpskUnit (k : Nat) : CQ := if k % 2 = 0 then ⟨1, 1⟩ else ⟨-1, 1⟩

/-- `√2 · pi2bpsk(k, y)` (R264). -/
def bpskSymbol (k : Nat) (y : Bool) : CQ := if y then (bpskUnit k).scale (-1) else bpskUnit k

/-- `√2 · c_k`, k = 0..25 (R265). -/
def sofSymbol (k : Nat) : CQ := bpskSymbol k (sofPattern.getMsbD k)

/-- `√2 · c_k(v)`, k = 0..89 (R267). -/
def headerSymbol (v : Pls) (k : Nat) : CQ := bpskSymbol k (headerBit v k)

/-- `√2 · π0`, the unscrambled pilot symbol (R302). -/
def pilotSymbol : CQ := ⟨1, 1⟩

/-! ### Geometry (R275) -/

/-- Bits per symbol of a MODCOD in 1..28 (R275). -/
def bitsPerSymbol (m : Nat) : Nat := if m ≤ 11 then 2 else if m ≤ 17 then 3 else if m ≤ 23 then 4 else 5

/-- Slots of a normal frame by bits per symbol (R275). -/
def normalSlots (bps : Nat) : Nat :=
  match bps with
  | 2 => 360
  | 3 => 240
  | 4 => 180
  | _ => 144

/-- `S(p)` (R275); a dummy frame has 36 slots. -/
def slotsOf (p : Pls) : Nat :=
  let m := (modcodOf p).toNat
  if m = 0 then 36
  else if shortOf p then normalSlots (bitsPerSymbol m) / 4 else normalSlots (bitsPerSymbol m)

/-- `P(p)` (R275). -/
def pilotBlocksOf (p : Pls) : Nat :=
  if (modcodOf p).toNat = 0 || !pilotsOf p then 0 else (slotsOf p - 1) / 16

/-- `pl_info(p)` (R275). -/
def plInfo (p : Pls) : Geometry where
  slots       := slotsOf p
  pilotBlocks := pilotBlocksOf p
  xfec        := 90 * slotsOf p
  len         := 90 * (slotsOf p + 1) + 36 * pilotBlocksOf p

/-- The frame offset of payload symbol `m` (R291). -/
def payloadOffset (g : Geometry) (m : Nat) : Nat :=
  90 + m + (if 0 < g.pilotBlocks then 36 * (m / 90 / 16) else 0)

/-- The frame offset of pilot block `b` = 1..P (R292). -/
def pilotOffset (b : Nat) : Nat := 90 + 1440 * b + 36 * (b - 1)

/-- The payload symbol at frame offset `k`, none where `k` is no payload offset: with pilots, offsets past the header
run in groups of 16 slots and one pilot block, 1476 symbols (R291, R292). -/
def payloadIndex (g : Geometry) (k : Nat) : Option Nat :=
  if k < 90 then none
  else
    let d := k - 90
    let m := if 0 < g.pilotBlocks then 1440 * (d / 1476) + d % 1476 else d
    if payloadOffset g m = k ∧ m < g.xfec then some m else none

/-! ### The PL scrambling sequence (R300) -/

/-- The 18 bits `s(i)..s(i+17)` of an m-sequence, `s(i)` least significant. -/
abbrev Lfsr := BitVec 18

/-- A linear map of registers, by the images of its 18 unit registers. -/
abbrev LfsrMap := List Lfsr

/-- The image of a register under a linear map. -/
def applyMap (m : LfsrMap) (r : Lfsr) : Lfsr :=
  (m.zipIdx).foldl (fun acc p => if r.getLsbD p.2 then acc ^^^ p.1 else acc) 0

/-- The map of a function on registers. -/
def mapOf (f : Lfsr → Lfsr) : LfsrMap := (List.range 18).map fun i => f (BitVec.twoPow 18 i)

/-- The map `m` twice. -/
def squareMap (m : LfsrMap) : LfsrMap := m.map (applyMap m)

/-- One step of the x sequence: `x(i+18) = x(i+7) ⊕ x(i)` (R300). -/
def xStep (r : Lfsr) : Lfsr := BitVec.ofBool (r.getLsbD 7 ^^ r.getLsbD 0) ++ r.extractLsb' 1 17

/-- One step of the y sequence: `y(i+18) = y(i+10) ⊕ y(i+7) ⊕ y(i+5) ⊕ y(i)` (R300). -/
def yStep (r : Lfsr) : Lfsr :=
  BitVec.ofBool (r.getLsbD 10 ^^ r.getLsbD 7 ^^ r.getLsbD 5 ^^ r.getLsbD 0) ++ r.extractLsb' 1 17

/-- `maps` from the first on, squared each time, `n` of them. -/
def powerMaps : Nat → LfsrMap → List LfsrMap
  | 0, _ => []
  | n + 1, m => m :: powerMaps n (squareMap m)

/-- The maps of 2^0, 2^1, … 2^17 steps of the x sequence. -/
def xMaps : List LfsrMap := powerMaps 18 (mapOf xStep)

/-- The maps of 2^0, 2^1, … 2^17 steps of the y sequence. -/
def yMaps : List LfsrMap := powerMaps 18 (mapOf yStep)

/-- The register `i` steps on, for `i < 2^18`, by the binary digits of `i` (assumption log 17). -/
def jump : List LfsrMap → Nat → Lfsr → Lfsr
  | [], _, r => r
  | m :: rest, i, r => jump rest (i / 2) (if i % 2 = 1 then applyMap m r else r)

/-- `2^18 − 1`, the period of both sequences. -/
def goldPeriod : Nat := 2 ^ 18 - 1

/-- `x(i)` for `i < 2^18` (R300): the register starts with `x(0) = 1`, `x(1..17) = 0`. -/
def xSeq (i : Nat) : Bool := (jump xMaps i 1).getLsbD 0

/-- `y(i)` for `i < 2^18` (R300): the register starts with ones. -/
def ySeq (i : Nat) : Bool := (jump yMaps i (BitVec.allOnes 18)).getLsbD 0

/-- `z_n(i)` for `i < 2^18` (R300). -/
def zSeq (n i : Nat) : Bool := xSeq ((i + n) % goldPeriod) ^^ ySeq i

/-- `R_n(i)` (R300). -/
def scrambleR (n i : Nat) : Fin 4 :=
  match zSeq n ((i + 131072) % goldPeriod), zSeq n i with
  | false, false => 0
  | false, true => 1
  | true, false => 2
  | true, true => 3

end Sys2Proof.Machine
end

