-- ==== Sys2Proof/Machine/Fe.lean ====
section
/-!
DEFINITION. The Frequency Offset Estimator (42_freq_estimator.md), which FS calls.  It has no beat of its own.

Angles are in turns and frequencies in cycles per symbol, so that the factors 2π of the rules stand only where a
command in radians is issued (assumption log 18).
-/

namespace Sys2Proof.Machine

/-- FE with the outbox it writes (rule R245). -/
structure FeRun where
  fe  : FeState
  hif : HifState
deriving DecidableEq, Repr

/-- The settings latched at a header evaluation (43_frame_sync.md rule R262). -/
structure Latch where
  thresh  : Rat
  lLock   : Nat
  lUnlock : Nat
  acm     : Bool
  mode    : Bool
  period  : Nat
  tFine   : Rat
  filter0 : Word
  filter1 : Word
  filter2 : Word
  filter3 : Word
  gold    : Nat
deriving DecidableEq, Repr

/-- `latch configuration` (43_frame_sync.md rule R262). -/
def latchOf (c : Csrs) : Latch where
  thresh  := f32Val c.fsSofThresh
  lLock   := c.fsLockCount.toNat
  lUnlock := c.fsUnlockCount.toNat
  acm     := c.fsCtrl.getLsbD 1
  mode    := c.fsCtrl.getLsbD 0
  period  := c.fsFreqPeriod.toNat
  tFine   := f32Val c.fsFineThresh
  filter0 := c.fsPlsFilter0
  filter1 := c.fsPlsFilter1
  filter2 := c.fsPlsFilter2
  filter3 := c.fsPlsFilter3
  gold    := c.fsGold.toNat

/-! ### Commands and reset -/

/-- `outbox_write(c)` (R245): the latest value wins, an unconsumed one raises `OUTBOX_OVERWRITE`. -/
def outboxWrite (c : Rat) (h : HifState) : HifState :=
  { (if h.obValid then setErr .outboxOverwrite h else h) with obValue := c, obValid := true }

/-- `−2π·f_cum` in radians per symbol (R238). -/
def commandValue (c : NumCtx) (fCum : Rat) : Rat :=
  numReal c .command [.fin fCum] (-2 * piRef * fCum)

/-- `command()` (R238): nothing in open loop. -/
def feCommand (c : NumCtx) (r : FeRun) : FeRun :=
  if r.fe.mode then
    let v := commandValue c r.fe.fCum
    { fe := { r.fe with lastCmd := v }, hif := outboxWrite v r.hif }
  else r

/-- `fe_reset()` (R241). -/
def feReset (r : FeRun) : FeRun :=
  let sendsZero := r.fe.mode && decide (r.fe.lastCmd ≠ 0)
  { fe := { r.fe with
      fstate := .uncorrected
      fCum := 0
      acc := .fin CQ.zero
      cnt := 0
      lastCmd := if sendsZero then 0 else r.fe.lastCmd }
    hif := if sendsZero then outboxWrite 0 r.hif else r.hif }

/-- The mode check of a header evaluation (R221). -/
def feModeCheck (mode : Bool) (r : FeRun) : FeRun :=
  if r.fe.mode = mode then r else { feReset r with fe := { (feReset r).fe with mode := mode } }

/-! ### Estimates applied to `f_cum` -/

/-- `f_cum <- wrapf(f_cum + ε)` (R225, R234, R237). -/
def addEstimate (c : NumCtx) (eps : Num) (fe : FeState) : FeState :=
  { fe with fCum := wrapf (numReal c .freqUpdate [.fin fe.fCum, eps] (fe.fCum + eps.val)) }

/-- `|ε| < T_fine`, false for an ε that is no real number (R236, I3). -/
def belowFine (eps : Num) (tFine : Rat) : Bool :=
  match eps with
  | .fin q => decide (|q| < tFine)
  | .nonFinite => false

/-- `apply_coarse(ε_c)` (R225, R235). -/
def applyCoarse (c : NumCtx) (tFine : Rat) (eps : Num) (r : FeRun) : FeRun :=
  match r.fe.fstate with
  | .uncorrected =>
      feCommand c { r with fe := { addEstimate c eps r.fe with fstate := .coarseCorrected } }
  | .coarseCorrected =>
      feCommand c { r with fe := { addEstimate c eps r.fe with
        fstate := if belowFine eps tFine then .fineTracking else .coarseCorrected } }
  | .fineTracking => r

/-- `apply_fine(ε_f)`, in FINE_TRACKING only (R233, R234). -/
def applyFine (c : NumCtx) (eps : Num) (r : FeRun) : FeRun :=
  match r.fe.fstate with
  | .fineTracking => feCommand c { r with fe := addEstimate c eps r.fe }
  | _ => r

/-- `f_int` (R222). -/
def internalFreq (fe : FeState) : Rat := if fe.mode then 0 else fe.fCum

/-! ### Coarse estimate (R223, R224) -/

/-- `u_k` times √2 (R223). -/
def coarseU (fInt : Rat) (p : Pls) (k : Nat) (r : CQ) : CQ :=
  (r.mul (headerSymbol p k).conj).mul (cisTurns (-(fInt * (k : Rat))))

/-- `R_h` of the 90 header symbols (R223). -/
def coarseProduct (fInt : Rat) (p : Pls) (w : List CQ) : CQ :=
  let u := w.mapIdx fun k r => coarseU fInt p k r
  (CQ.sum (List.zipWith (fun a b => b.mul a.conj) u u.tail)).scale (1 / 2)

/-- The operands of a window of received symbols. -/
def windowOperands (w : List Cx) : List Num := w.flatMap Cx.operands

/-- The measurement of a hit header (R223): its 90 symbols, its PLS. -/
def coarseMeasure (c : NumCtx) (fInt : Rat) (p : Pls) (w : List Cx) : Cx :=
  numCx c .coarseMeasure (.fin fInt :: .fin (p.toNat : Rat) :: windowOperands w)
    (coarseProduct fInt p (w.map Cx.val))

/-- `acc + R_h` (R223). -/
def accumulate (c : NumCtx) (acc rh : Cx) : Cx :=
  numCx c .coarseAcc (acc.operands ++ rh.operands) (acc.val.add rh.val)

/-- `ε_c`, kept in (−1/2, 1/2] (R224). -/
def coarseEps (c : NumCtx) (acc : Cx) : Num :=
  match numNum c .coarseEps acc.operands (argTurns acc.val) with
  | .fin q => .fin (wrapf q)
  | .nonFinite => .nonFinite

/-- `fe_coarse(h, p)` (R223, R224) on the header's 90 symbols. -/
def feCoarse (c : NumCtx) (l : Latch) (p : Pls) (w : List Cx) (r : FeRun) : FeRun :=
  let acc := accumulate c r.fe.acc (coarseMeasure c (internalFreq r.fe) p w)
  let cnt := r.fe.cnt + 1
  if l.period ≤ cnt then
    applyCoarse c l.tFine (coarseEps c acc) { r with fe := { r.fe with acc := .fin CQ.zero, cnt := 0 } }
  else { r with fe := { r.fe with acc := acc, cnt := cnt } }

/-! ### Fine estimate (R227 to R229) -/

/-- `φ_b/(2π)` of a pilot block at frame offset `o`, of its 36 symbols (R227). -/
def pilotPhase (fInt : Rat) (gold o : Nat) (w : List CQ) : Rat :=
  argTurns (CQ.sum (w.mapIdx fun k r =>
    ((r.mulJNeg (scrambleR gold (o + k - 90))).mul (cisTurns (-(fInt * ((o + k : Nat) : Rat))))).mul
      pilotSymbol.conj))

/-- The unwrapped phases `ψ_b` after the block with phase `prev` and unwrapped phase `psi` (R228). -/
def unwrapFrom (prev psi : Rat) : List Rat → List Rat
  | [] => []
  | phi :: rest => (psi + wrapf (phi - prev)) :: unwrapFrom phi (psi + wrapf (phi - prev)) rest

/-- `ψ_1..ψ_P` (R228). -/
def unwrap : List Rat → List Rat
  | [] => []
  | phi :: rest => phi :: unwrapFrom phi phi rest

/-- The least-squares slope of `psi` against `tau` (R229). -/
def regression (tau psi : List Rat) : Rat :=
  let n : Rat := tau.length
  let tm := sumRat tau / n
  let pm := sumRat psi / n
  sumRat (List.zipWith (fun t p => (t - tm) * (p - pm)) tau psi) /
    sumRat (tau.map fun t => (t - tm) * (t - tm))

/-- `ε_f` of the symbols of pilot blocks 1..P (R227 to R229). -/
def fineFormula (fInt : Rat) (gold : Nat) (blocks : List (List CQ)) : Rat :=
  let tau := (List.range blocks.length).map fun b => (pilotOffset (b + 1) : Rat) + 35 / 2
  let phi := blocks.mapIdx fun b w => pilotPhase fInt gold (pilotOffset (b + 1)) w
  regression tau (unwrap phi)

/-- `fe_fine(frm)` (R227, R233) on the frame's pilot blocks. -/
def feFine (c : NumCtx) (gold : Nat) (blocks : List (List Cx)) (r : FeRun) : FeRun :=
  let fInt := internalFreq r.fe
  let eps := numNum c .fineEps (.fin fInt :: .fin (gold : Rat) :: blocks.flatMap windowOperands)
    (fineFormula fInt gold (blocks.map (List.map Cx.val)))
  applyFine c eps r

end Sys2Proof.Machine
end

