-- ==== Sys2Proof/Machine/Fs.lean ====
section
/-!
DEFINITION. The PL Frame Synchronizer (43_frame_sync.md).
-/

namespace Sys2Proof.Machine

/-! ### Correlation and decoding (R268 to R273) -/

/-- `c_k · conj(c_{k−1})`, which is ±j (R268). -/
def sofDiff (k : Nat) : CQ := ((sofSymbol k).mul (sofSymbol (k - 1)).conj).scale (1 / 2)

/-- The products `r[s+k]·conj(r[s+k−1])`, k = 1.., of a window. -/
def lagProducts (w : List CQ) : List CQ := List.zipWith (fun a b => b.mul a.conj) w w.tail

/-- `D(s)` of the 26 symbols of a window (R268). -/
def sofD (w : List CQ) : CQ :=
  CQ.sum ((lagProducts (w.take 26)).mapIdx fun j z => z.mul (sofDiff (j + 1)).conj)

/-- `E(s)` of the 26 symbols of a window (R268): `|a|·|b|` is taken as `√(|a|²·|b|²)`, which is exact for symbols of
one modulus (assumption log 7). -/
def sofE (w : List CQ) : Rat :=
  let w := w.take 26
  sumRat (List.zipWith (fun a b => sqrtRef (a.normSq * b.normSq)) w w.tail)

/-- `Λ(s)` of the 26 symbols of a window (R268). -/
def sofLambda (w : List CQ) : Rat :=
  if sofE w = 0 then 0 else sqrtRef (sofD w).normSq / sofE w

/-- `n` received symbols from index `s` on, in the order received. -/
def FsState.window (fs : FsState) (s n : Nat) : List Cx :=
  ((fs.r.drop (fs.nIn - (s + n))).take n).reverse

/-- `Λ(s)` (R268). -/
def sofMetric (c : NumCtx) (fs : FsState) (s : Nat) : Num :=
  let w := fs.window s 26
  numNum c .sofMetric (windowOperands w) (sofLambda (w.map Cx.val))

/-- `Λ(s−1)`, with `Λ(−1) = 0` (R268). -/
def sofMetricBefore (c : NumCtx) (fs : FsState) (s : Nat) : Num :=
  match s with
  | 0 => .fin 0
  | s + 1 => sofMetric c fs s

/-- A header evaluation at `h` is a hit (R271). -/
def isHit (c : NumCtx) (thresh : Rat) (fs : FsState) (h : Nat) : Bool :=
  (sofMetric c fs h).gt (.fin thresh)

/-- A window `s` is a candidate (R269). -/
def isCandidate (c : NumCtx) (thresh : Rat) (fs : FsState) (s : Nat) : Bool :=
  isHit c thresh fs s &&
  (sofMetric c fs s).gt (sofMetricBefore c fs s) &&
  (sofMetric c fs s).ge (sofMetric c fs (s + 1))

/-- The header's symbols without its own frequency and phase: `z_k` of R270. -/
def derotated (w : List CQ) : List CQ :=
  let f := argTurns (sofD w)
  let wk := w.mapIdx fun k r => r.mul (cisTurns (-(f * (k : Rat))))
  let theta := argTurns (CQ.sum ((wk.take 26).mapIdx fun k z => z.mul (sofSymbol k).conj))
  wk.map fun z => z.mul (cisTurns (-theta))

/-- The 64 soft values `a_26..a_89`, times √2 (R272). -/
def softFormula (w : List CQ) : List Rat :=
  ((derotated w).drop 26).mapIdx fun m z => (z.mul (bpskUnit (m + 26)).conj).re

/-- The 64 soft values of a header (R272). -/
def softValues (c : NumCtx) (w : List Cx) : List Num :=
  (softFormula (w.map Cx.val)).mapIdx fun m a =>
    numNum c .plscSoft (.fin (m : Rat) :: windowOperands w) a

/-- `M(v)` (R273). -/
def plscMetric (v : Pls) (soft : List Rat) : Rat :=
  sumRat (soft.mapIdx fun m a => if plscBit v m then -a else a)

/-- `M(v)` as the implementation evaluates it. -/
def plscScore (c : NumCtx) (soft : List Num) (v : Pls) : Num :=
  numNum c (.plscMetric v) soft (plscMetric v (soft.map Num.val))

/-- The value with the largest score, among equal ones the first: `best` unless a later one is above it (R273). -/
def argmaxFrom (score : Pls → Num) (best : Pls) : List Pls → Pls
  | [] => best
  | v :: rest => argmaxFrom score (if (score v).gt (score best) then v else best) rest

/-- `decode(h)` (R273) of a header's 90 symbols. -/
def decodePls (c : NumCtx) (w : List Cx) : Pls :=
  let soft := softValues c w
  argmaxFrom (plscScore c soft) 0 ((List.range 128).map (BitVec.ofNat 7))

/-! ### The step of one symbol -/

/-- What FS reads beside its own state: the arithmetic and the CSR file. -/
structure FsCfg where
  ctx : NumCtx
  csr : Csrs
deriving DecidableEq, Repr

/-- FS in the middle of a step: its state, FE's, HIF's and the beats sent so far. -/
structure FsRun where
  fs  : FsState
  fe  : FeState
  hif : HifState
  out : List Beat
deriving DecidableEq, Repr

/-- FE's part of a run. -/
def FsRun.feRun (r : FsRun) : FeRun := ⟨r.fe, r.hif⟩

/-- A run with FE's part put back. -/
def FsRun.withFe (r : FsRun) (f : FeRun) : FsRun := { r with fe := f.fe, hif := f.hif }

/-- `accept(p)` (R277): bit `p mod 32` of filter word `p div 32`. -/
def accepts (l : Latch) (p : Pls) : Bool :=
  let w := match p.toNat / 32 with
    | 0 => l.filter0
    | 1 => l.filter1
    | 2 => l.filter2
    | _ => l.filter3
  w.getLsbD (p.toNat % 32)

/-- `emit` of a hit in LOCKED (R281): accepted and no dummy frame (R277, R278). -/
def emits (l : Latch) (p : Pls) : Bool := accepts l p && decide (modcodOf p ≠ 0)

/-- `start_frame(h, p, emit)` (R289, R294). -/
def startFrame (l : Latch) (h : Nat) (p : Pls) (emit hit : Bool) (r : FsRun) : FsRun :=
  let fs := { r.fs with frm := some ⟨h, p, emit, l.gold, hit, plInfo p⟩ }
  if emit then
    { r with
      fs := { fs with frameCount := fs.frameCount + 1 }
      out := r.out ++ [frameTagBeat (modcodOf p) (shortOf p)] }
  else { r with fs := fs }

/-- `lose_frame(h)` (R283, R304). -/
def loseFrame (h : Nat) (r : FsRun) : FsRun :=
  { r with fs := { r.fs with
      lock := .unlocked
      hits := 0
      misses := 0
      ccmPls := none
      nextHdr := none
      searchFrom := h + 1
      frm := none } }.withFe (feReset r.feRun)

/-- `fe_coarse(h, p)` (R299). -/
def coarseAt (c : FsCfg) (l : Latch) (h : Nat) (p : Pls) (r : FsRun) : FsRun :=
  r.withFe (feCoarse c.ctx l p (r.fs.window h 90) r.feRun)

/-- The header at `h` is a hit with PLS `p` (R279, R281): FS's record of it. -/
def noteHit (p : Pls) (fs : FsState) : FsState := { fs with lastPls := p, lastPlsValid := true }

/-- The next header is expected a frame's length on. -/
def expectNext (h : Nat) (p : Pls) (r : FsRun) : FsRun :=
  { r with fs := { r.fs with nextHdr := some (h + (plInfo p).len) } }

/-- A hit in search with a valid PLS (R279). -/
def acquire (c : FsCfg) (l : Latch) (s : Nat) (p : Pls) (r : FsRun) : FsRun :=
  expectNext s p (coarseAt c l s p { r with fs := { noteHit p r.fs with hits := 1 } })

/-- The search at the window `s` (R279). -/
def searchAt (c : FsCfg) (s : Nat) (r : FsRun) : FsRun :=
  let l := latchOf c.csr
  if isCandidate c.ctx l.thresh r.fs s then
    let r := r.withFe (feModeCheck l.mode r.feRun)
    let p := decodePls c.ctx (r.fs.window s 90)
    if invalidPls p then r else acquire c l s p r
  else r

/-- `search_step(i)` (R279): the window `i − 89`, if there is one and the search may report it. -/
def searchStep (c : FsCfg) (i : Nat) (r : FsRun) : FsRun :=
  if 89 ≤ i ∧ r.fs.searchFrom ≤ i - 89 then searchAt c (i - 89) r else r

/-- A hit during confirmation (R281, R282). -/
def confirmHit (c : FsCfg) (l : Latch) (h : Nat) (p : Pls) (r : FsRun) : FsRun :=
  let hits := r.fs.hits + 1
  let r := coarseAt c l h p { r with fs := { noteHit p r.fs with hits := hits } }
  let r :=
    if l.lLock ≤ hits then
      startFrame l h p (emits l p) true
        { r with fs := { r.fs with
            lock := .locked
            misses := 0
            ccmPls := if l.acm then r.fs.ccmPls else some p } }
    else r
  expectNext h p r

/-- A hit while LOCKED (R281, R284). -/
def lockedHit (c : FsCfg) (l : Latch) (h : Nat) (p : Pls) (r : FsRun) : FsRun :=
  let r := coarseAt c l h p { r with fs := { r.fs with misses := 0, lastPls := p } }
  expectNext h p (startFrame l h p (emits l p) true r)

/-- A miss while LOCKED (R281, R285, R286). -/
def lockedMiss (l : Latch) (h : Nat) (p : Pls) (r : FsRun) : FsRun :=
  let misses := r.fs.misses + 1
  let r := { r with fs := { r.fs with misses := misses } }
  if l.lUnlock ≤ misses then loseFrame h r
  else expectNext h p (startFrame l h p false false r)

/-- The PLS of an expected header (R276).  In CCM while LOCKED it is the one latched at lock; the rules do not state
one where none was latched, and it is then a free value (assumption log 10). -/
def expectedPls (c : FsCfg) (l : Latch) (fs : FsState) (h : Nat) : Pls :=
  if fs.lock = .locked ∧ l.acm = false then
    match fs.ccmPls with
    | some p => p
    | none => Config.freePls c.ctx.tick
  else decodePls c.ctx (fs.window h 90)

/-- `evaluate(h)` (R281). -/
def evaluate (c : FsCfg) (h : Nat) (r : FsRun) : FsRun :=
  let l := latchOf c.csr
  let r := r.withFe (feModeCheck l.mode r.feRun)
  let hit := isHit c.ctx l.thresh r.fs h
  let p := expectedPls c l r.fs h
  if invalidPls p then loseFrame h r
  else match r.fs.lock, hit with
    | .unlocked, true => confirmHit c l h p r
    | .unlocked, false => loseFrame h r
    | .locked, true => lockedHit c l h p r
    | .locked, false => lockedMiss l h p r

/-- The symbol sent for `r[i]` at frame offset `k` (R293, R301). -/
def descrambled (c : NumCtx) (gold k : Nat) (z : Cx) : Cx :=
  let q := scrambleR gold (k - 90)
  numCx c .descramble (.fin (q.val : Rat) :: z.operands) (z.val.mulJNeg q)

/-- The pilot blocks 1..P of a frame. -/
def pilotSymbols (fs : FsState) (f : Frame) : List (List Cx) :=
  (List.range f.geom.pilotBlocks).map fun b => fs.window (f.h + pilotOffset (b + 1)) 36

/-- The payload symbol at frame offset `k`, if the frame is sent and `k` is a payload offset (R293). -/
def sendPayload (c : FsCfg) (f : Frame) (k : Nat) (z : Cx) (r : FsRun) : FsRun :=
  if f.emit && (payloadIndex f.geom k).isSome then
    let bits := cxBits c.ctx.tick 0 (descrambled c.ctx f.gold k z)
    { r with out := r.out ++ [sampleBeat bits.1 bits.2] }
  else r

/-- The fine measurement at the last symbol of the last pilot block (R293, R227). -/
def measureFine (c : FsCfg) (f : Frame) (k : Nat) (r : FsRun) : FsRun :=
  if 1 ≤ f.geom.pilotBlocks ∧ k = pilotOffset f.geom.pilotBlocks + 35 ∧ r.fs.lock = .locked ∧ f.hit = true then
    r.withFe (feFine c.ctx f.gold (pilotSymbols r.fs f) r.feRun)
  else r

/-- The end of a frame (R293). -/
def closeFrame (f : Frame) (k : Nat) (r : FsRun) : FsRun :=
  if k + 1 = f.geom.len then { r with fs := { r.fs with frm := none } } else r

/-- `payload_step(i)` (R293) of the symbol `z = r[i]`. -/
def payloadStep (c : FsCfg) (i : Nat) (z : Cx) (r : FsRun) : FsRun :=
  match r.fs.frm with
  | none => r
  | some f =>
      let k := i - f.h
      if f.h + 90 ≤ i ∧ k < f.geom.len then closeFrame f k (measureFine c f k (sendPayload c f k z r)) else r

/-- `r[i] <- z; n_in <- i + 1` (R280). -/
def FsState.push (z : Cx) (fs : FsState) : FsState := { fs with r := z :: fs.r, nIn := fs.nIn + 1 }

/-- The header part of a step (R280): the search, or the evaluation of the expected header when its last symbol has
arrived. -/
def headerStep (c : FsCfg) (i : Nat) (r : FsRun) : FsRun :=
  match r.fs.nextHdr with
  | none => searchStep c i r
  | some h => if i = h + 89 then evaluate c h r else r

/-- The step of one symbol (R280). -/
def fsSampleRun (c : FsCfg) (z : Cx) (r : FsRun) : FsRun :=
  let i := r.fs.nIn
  headerStep c i (payloadStep c i z { r with fs := r.fs.push z })

/-- The run FS's step starts from. -/
def fsRun (s : State) : FsRun := ⟨s.fs, s.fe, s.hif, []⟩

/-- The state with FS's run put back: its beats appended to `FS_OUT` (20_memory.md rule R100). -/
def withFsRun (r : FsRun) (s : State) : State :=
  { s with fs := r.fs, fe := r.fe, hif := r.hif, fsOut := s.fsOut ++ r.out, tick := s.tick + 1 }

/-- FS.SAMPLE (R280, R306). -/
def execFsSample (re im : Word) (s : State) : Host.Outcome State Fault Refusal :=
  .next (if s.fs.eos then s else withFsRun (fsSampleRun ⟨s.ctx, s.csr⟩ (f32Sample re im) (fsRun s)) s)

/-- FS.TAG (R295): consumed and discarded. -/
def execFsTag (_payload : TagPayload) (s : State) : Host.Outcome State Fault Refusal := .next s

/-- FS.EOS (R296, R306). -/
def execFsEos (s : State) : Host.Outcome State Fault Refusal :=
  .next (if s.fs.eos then s
    else { s with fs := { s.fs with eos := true }, fsOut := s.fsOut ++ [eosBeat] })

/-- A reserved beat on `FS_IN` (30_encoding.md rule R128, R305); after EOS it too has no effect (R306, assumption
log 11). -/
def execFsReserved (s : State) : Host.Outcome State Fault Refusal :=
  .next (if s.fs.eos then s else raise .beatErr s)

end Sys2Proof.Machine
end

