-- ==== Sys2Proof/Machine/Hif.lean ====
section
/-!
DEFINITION. The host commands (40_host_commands.md).  HIF has already taken the command's words from `CMD_IN`.
-/

namespace Sys2Proof.Machine

/-- NOP (R160). -/
def execNop (s : State) : Host.Outcome State Fault Refusal := .next s

/-- The CSR file and gains after a legal write of `c` (R161). -/
def csrWritten (c : Csr) (w : Word) (s : State) : State :=
  let csr := writeCsr s.csr w c
  { s with csr := csr, ts := if c.isGainInput then setGains s.params.numerics csr s.ts else s.ts }

/-- CSRW of the value `w` at an address (R161): the checks in the order of rule R367, the first failing one raised. -/
def writeAddr (addr : BitVec 8) (w : Word) (s : State) : State :=
  match Csr.ofAddr addr with
  | none => raise .csrAddrErr s
  | some c =>
      match c.legal? w with
      | none => raise .csrAddrErr s
      | some false => raise .csrValErr s
      | some true => csrWritten c w s

/-- CSRW (R161). -/
def execCsrw (addr : BitVec 8) (data : Word) (s : State) : Host.Outcome State Fault Refusal :=
  .next (writeAddr addr data s)

/-- `send(RSP_OUT, w)`. -/
def sendRsp (w : Word) (s : State) : State := { s with rspOut := s.rspOut ++ [w] }

/-- CSRR (R162): an unmapped address answers 0. -/
def readAddr (addr : BitVec 8) (s : State) : State :=
  match Csr.ofAddr addr with
  | none => sendRsp 0 (raise .csrAddrErr s)
  | some c => sendRsp (readCsr s c) s

/-- CSRR (R162). -/
def execCsrr (addr : BitVec 8) (s : State) : Host.Outcome State Fault Refusal := .next (readAddr addr s)

/-- RESET of the selected units (R163). -/
def resetUnits (ts fs bb hif : Bool) (s : State) : State :=
  let s := if ts then resetTs s else s
  let s := if fs then resetFs s else s
  let s := if bb then resetBb s else s
  if hif then resetHif s else s

/-- RESET (R163). -/
def execReset (ts fs bb hif : Bool) (s : State) : Host.Outcome State Fault Refusal :=
  .next (resetUnits ts fs bb hif s)

/-- CLRERR (R164). -/
def execClrerr (s : State) : Host.Outcome State Fault Refusal :=
  .next { s with hif := { s.hif with status := 0 } }

/-- R166: an illegal command word raises `CMD_ERR`; under OP = 0x02 it is still answered, with 0. -/
def illegalCmd (cmd : Word) (s : State) : State :=
  raise .cmdErr (if opField cmd = 2 then sendRsp 0 s else s)

/-- A reserved opcode (R166). -/
def execCmdReserved (cmd : Word) (s : State) : Host.Outcome State Fault Refusal := .next (illegalCmd cmd s)

/-- A malformed command word (R166).  The DATA word of a malformed CSRW is consumed with it and has no effect. -/
def execCmdMalformed (cmd : Word) (_data : Option Word) (s : State) : Host.Outcome State Fault Refusal :=
  .next (illegalCmd cmd s)

end Sys2Proof.Machine
end

