-- ==== Sys2Proof/Syntax.lean ====
section
/-!
DEFINITION. The core's "instructions" (00_scope.md rule R3): host command words, the beats of the three input stream
ports, and the words and beats the core sends, one constructor for each mnemonic of spec/opcode_table.json.

The rows `out.*` are the core's output formats.  As steps they are the removal of that word or beat from its output
port by the host, and for `out.rot.msg` the rotator's consumption of the outbox (00_scope.md rule R22, 20_memory.md
rule R99; assumption log 5).
-/

namespace Sys2Proof

/-- The two SBEAT output ports, `TS_OUT` and `FS_OUT`, which share the row `out.eos`. -/
inductive SOut where
  | ts
  | fs
deriving DecidableEq, Repr

/-- One constructor per mnemonic of spec/opcode_table.json. -/
inductive Instr where
  /-- R160 -/
  | nop
  /-- R161: CSR address and the DATA word. -/
  | csrw (addr : BitVec 8) (data : Word)
  /-- R162 -/
  | csrr (addr : BitVec 8)
  /-- R163: the unit mask `cmd[19:16]`. -/
  | reset (ts fs bb hif : Bool)
  /-- R164 -/
  | clrerr
  /-- R166: a command word with OP in 0x05..0xFF. -/
  | cmdReserved (cmd : Word)
  /-- R166: a command word with OP in 0x00..0x04 that rule R133 makes illegal, with the DATA word that follows under
  OP = 0x01 (R123). -/
  | cmdMalformed (cmd : Word) (data : Option Word)
  /-- R190: the binary32 fields `beat[31:0]` and `beat[63:32]`. -/
  | tsSample (re im : Word)
  /-- R193: `beat[63:0]`, of which the unit takes the low `TAG_W` bits. -/
  | tsTag (payload : TagPayload)
  /-- R200 -/
  | tsEos
  /-- R204 -/
  | tsReserved
  /-- R280 -/
  | fsSample (re im : Word)
  /-- R295 -/
  | fsTag (payload : TagPayload)
  /-- R296 -/
  | fsEos
  /-- R305 -/
  | fsReserved
  /-- R326 -/
  | bbByte (b : Byte)
  /-- R325: `beat[15:0]` and `beat[16]`. -/
  | bbStart (kbch : BitVec 16) (disc : Bool)
  /-- R327 -/
  | bbEos
  /-- R328 -/
  | bbReserved
  /-- R125: the host takes the RSP `value` from `RSP_OUT`. -/
  | outRsp (value : Word)
  /-- R191: an on-time interpolant is taken from `TS_OUT`. -/
  | outTsSample (re im : Word)
  /-- R195: a relocated tag is taken from `TS_OUT`. -/
  | outTsTag (payload : TagPayload)
  /-- R293: a payload symbol is taken from `FS_OUT`. -/
  | outFsSample (re im : Word)
  /-- R289, R127: a frame-start tag is taken from `FS_OUT`. -/
  | outFsTag (modcod : BitVec 5) (shortFrame : Bool)
  /-- R200, R296: an EOS beat is taken from `TS_OUT` or `FS_OUT`. -/
  | outEos (port : SOut)
  /-- R343, R130: a byte of a user packet is taken from `BB_OUT`. -/
  | outBbByte (b : Byte) (sop : Bool)
  /-- R327, R130: an EOS beat is taken from `BB_OUT`. -/
  | outBbEos
  /-- R99, R131, R368: the rotator consumes the outbox and receives the MSG `value`. -/
  | outRotMsg (value : Word)
deriving DecidableEq, Repr

end Sys2Proof
end

