-- ==== Sys2Proof/Machine/Out.lean ====
section
/-!
DEFINITION. The output side (00_scope.md rule R22): the host takes a word or beat from an output port, the external
rotator consumes the outbox (20_memory.md rule R99).

Each meaning takes exactly the word or beat its instruction names.  Where that does not stand at the head of its port
the event cannot happen, and the state is unchanged (assumption log 5).
-/

namespace Sys2Proof.Machine

/-- The host takes a RSP (R125). -/
def execOutRsp (value : Word) (s : State) : Host.Outcome State Fault Refusal :=
  .next { s with rspOut := takeHead s.rspOut value }

/-- The host takes an interpolant from `TS_OUT` (R191). -/
def execOutTsSample (re im : Word) (s : State) : Host.Outcome State Fault Refusal :=
  .next { s with tsOut := takeHead s.tsOut (sampleBeat re im) }

/-- The host takes a relocated tag from `TS_OUT` (R195). -/
def execOutTsTag (payload : TagPayload) (s : State) : Host.Outcome State Fault Refusal :=
  .next { s with tsOut := takeHead s.tsOut (tagBeat payload) }

/-- The host takes a payload symbol from `FS_OUT` (R293). -/
def execOutFsSample (re im : Word) (s : State) : Host.Outcome State Fault Refusal :=
  .next { s with fsOut := takeHead s.fsOut (sampleBeat re im) }

/-- The host takes a frame-start tag from `FS_OUT` (R289). -/
def execOutFsTag (modcod : BitVec 5) (shortFrame : Bool) (s : State) : Host.Outcome State Fault Refusal :=
  .next { s with fsOut := takeHead s.fsOut (frameTagBeat modcod shortFrame) }

/-- The host takes an EOS beat from `TS_OUT` or `FS_OUT` (R200, R296). -/
def execOutEos (port : SOut) (s : State) : Host.Outcome State Fault Refusal :=
  match port with
  | .ts => .next { s with tsOut := takeHead s.tsOut eosBeat }
  | .fs => .next { s with fsOut := takeHead s.fsOut eosBeat }

/-- The host takes a byte of a user packet from `BB_OUT` (R343). -/
def execOutBbByte (b : Byte) (sop : Bool) (s : State) : Host.Outcome State Fault Refusal :=
  .next { s with bbOut := takeHead s.bbOut (outByteBeat b sop) }

/-- The host takes an EOS beat from `BB_OUT` (R327). -/
def execOutBbEos (s : State) : Host.Outcome State Fault Refusal :=
  .next { s with bbOut := takeHead s.bbOut bbEosBeat }

/-- The word the outbox delivers (30_encoding.md rule R131). -/
def outboxMsg (s : State) : Word := bits32 s.hif.obValue

/-- The rotator consumes the outbox (R99, R368): the MSG is delivered, `ob_valid` falls, `ob_value` stays. -/
def execOutRotMsg (value : Word) (s : State) : Host.Outcome State Fault Refusal :=
  .next (if s.hif.obValid && outboxMsg s == value
    then { s with hif := { s.hif with obValid := false }, rotOut := s.rotOut ++ [value] }
    else s)

end Sys2Proof.Machine
end

