-- ==== Sys2Proof/Machine/Ts.lean ====
section
/-!
DEFINITION. The Symbol Timing Synchronizer (41_timing_sync.md).
-/

namespace Sys2Proof.Machine

/-! ### Interpolant schedule (R185, R187) -/

/-- What TS reads at each computation (R181): `sps` and the interpolator; and the damping ζ, whose 0 stops the loop
(R184). -/
structure TsCfg where
  ctx    : NumCtx
  sps    : Rat
  interp : Nat
  zeta   : Rat
deriving DecidableEq, Repr

/-- The configuration as the CSRs stand. -/
def tsCfg (s : State) : TsCfg := ⟨s.ctx, f32Val s.csr.tsSps, s.csr.tsInterp.toNat, f32Val s.csr.tsDamping⟩

/-- `t + (sps/2)·(1 + v)`: the next MID time (R185), and the midpoint `m` of R199.  The half period stays within
[sps/4, 3·sps/4] under every arithmetic (R189, R202). -/
def midTime (c : TsCfg) (v t : Rat) : Rat :=
  numWithin c.ctx .midTime [.fin t, .fin c.sps, .fin v] (t + c.sps / 4) (t + 3 * c.sps / 4)
    (t + c.sps / 2 * (1 + v))

/-- `t + sps·(1 + v)`: the next ON time (R185).  The period stays within [sps/2, 3·sps/2] (R189, R202). -/
def onTime (c : TsCfg) (v t : Rat) : Rat :=
  numWithin c.ctx .onTime [.fin t, .fin c.sps, .fin v] (t + c.sps / 2) (t + 3 * c.sps / 2)
    (t + c.sps * (1 + v))

/-- `t_on`, the time of the latest ON interpolant (R185). -/
def TsState.tOn (ts : TsState) : Rat := (ts.kOn : Rat) + ts.muOn

/-- `next_time()` (R185). -/
def nextTime (c : TsCfg) (ts : TsState) : Rat :=
  match ts.ph with
  | .mid => midTime c ts.v ts.tOn
  | .on => onTime c ts.v ts.tOn

/-- How many samples past `floor(t)` an interpolator's support needs (R187). -/
def supportAhead (interp : Nat) : Nat := if interp = 1 then 2 else 3

/-- `available(t)` (R187). -/
def available (c : TsCfg) (ts : TsState) (t : Rat) : Bool :=
  decide (floorNat t + supportAhead c.interp ≤ ts.nIn)

/-! ### Interpolators (R186) -/

/-- `x[i]`, 0 for `i < 0` (R186). -/
def TsState.sample (ts : TsState) (i : Int) : Cx :=
  if i < 0 then .fin CQ.zero else ts.x.getD (ts.nIn - 1 - i.toNat) (.fin CQ.zero)

/-- A real combination of complex samples. -/
def combine (terms : List (Rat × CQ)) : CQ := CQ.sum (terms.map fun p => p.2.scale p.1)

/-- Linear (R186). -/
def interpLinear (mu : Rat) (x0 x1 : CQ) : CQ := combine [(1 - mu, x0), (mu, x1)]

/-- Piecewise-parabolic Farrow with α = 0.5 (R186). -/
def interpFarrow (mu : Rat) (xm1 x0 x1 x2 : CQ) : CQ :=
  let a : Rat := 1 / 2
  let v2 := combine [(a, x2), (-a, x1), (-a, x0), (a, xm1)]
  let v1 := combine [(-a, x2), (1 + a, x1), (-(1 - a), x0), (-a, xm1)]
  ((v2.scale mu).add v1 |>.scale mu).add x0

/-- Cubic Lagrange (R186). -/
def interpCubic (mu : Rat) (xm1 x0 x1 x2 : CQ) : CQ :=
  combine [(-(mu * (mu - 1) * (mu - 2)) / 6, xm1),
           ((mu + 1) * (mu - 1) * (mu - 2) / 2, x0),
           (-((mu + 1) * mu * (mu - 2)) / 2, x1),
           ((mu + 1) * mu * (mu - 1) / 6, x2)]

/-- The interpolant at time `t` (R186).  Its operands are the order, the time and its support. -/
def interpolate (c : TsCfg) (ts : TsState) (t : Rat) : Cx :=
  let k : Int := floorNat t
  let mu := t - (floorNat t : Rat)
  let xm1 := ts.sample (k - 1)
  let x0 := ts.sample k
  let x1 := ts.sample (k + 1)
  let x2 := ts.sample (k + 2)
  let head : List Num := [.fin (c.interp : Rat), .fin t]
  if c.interp = 1 then
    numCx c.ctx .interpolant (head ++ x0.operands ++ x1.operands) (interpLinear mu x0.val x1.val)
  else
    let ops := head ++ xm1.operands ++ x0.operands ++ x1.operands ++ x2.operands
    if c.interp = 2 then numCx c.ctx .interpolant ops (interpFarrow mu xm1.val x0.val x1.val x2.val)
    else numCx c.ctx .interpolant ops (interpCubic mu xm1.val x0.val x1.val x2.val)

/-! ### Timing error detector and loop filter (R188, R189) -/

/-- `Re((y_prev − y)·conj(y_mid))` (R188). -/
def gardner (yPrev yMid y : CQ) : Rat := ((yPrev.sub y).mul yMid.conj).re

/-- The timing error (R188). -/
def tedError (c : TsCfg) (yPrev yMid y : Cx) : Num :=
  numNum c.ctx .tedError (yPrev.operands ++ yMid.operands ++ y.operands) (gardner yPrev.val yMid.val y.val)

/-- `K·e + I`, a result of R189.  A gain of 0 adds 0 under every arithmetic (R184, assumption log 22). -/
def addError (c : TsCfg) (site : Site) (k : Rat) (e : Num) (i : Rat) : Rat :=
  if k = 0 ∧ e.isFin = true then i else numReal c.ctx site [.fin k, e, .fin i] (k * e.val + i)

/-- The damping is 0, and with it both gains: the loop stands still (R184). -/
abbrev loopFrozen (c : TsCfg) (ts : TsState) : Prop := c.zeta = 0 ∧ ts.k1 = 0 ∧ ts.k2 = 0

/-- The PI loop update: the integrator wrapped into (−1, 1), then the output clamped to [−1/2, 1/2] (R189).  With the
damping 0 neither value changes (R184, assumption log 22). -/
def loopUpdate (c : TsCfg) (e : Num) (ts : TsState) : TsState :=
  if loopFrozen c ts then ts
  else
    let i := fmod1 (addError c .loopIntegrator ts.k2 e ts.integ)
    let v := clampRat (addError c .loopOutput ts.k1 e i) (-(1 / 2)) (1 / 2)
    { ts with integ := i, v := v }

/-! ### One input sample (R190, R199) -/

/-- TS in the middle of a step: its state and the beats sent so far. -/
structure TsRun where
  ts  : TsState
  out : List Beat
deriving DecidableEq, Repr

/-- `send(TS_OUT, SAMPLE y)` with its count (R191, R198). -/
def sendInterpolant (c : TsCfg) (y : Cx) (r : TsRun) : TsRun :=
  let bits := cxBits c.ctx.tick r.out.length y
  { ts := { r.ts with outCount := r.ts.outCount + 1, held := none }
    out := r.out ++ [sampleBeat bits.1 bits.2] }

/-- The TAG beats of some tags, in order (R195). -/
def tagBeats (tags : List Tag) : List Beat := tags.map fun g => tagBeat g.payload

/-- `release_held()` (R199). -/
def releaseHeld (c : TsCfg) (r : TsRun) : TsRun :=
  match r.ts.held with
  | none => r
  | some hd =>
      let m := midTime c r.ts.v hd.t
      if floorNat m < r.ts.nIn then
        let due := r.ts.tags.filter fun g => decide ((g.index : Rat) ≤ m)
        let later := r.ts.tags.filter fun g => !decide ((g.index : Rat) ≤ m)
        sendInterpolant c hd.y { ts := { r.ts with tags := later }, out := r.out ++ tagBeats due }
      else r

/-- The MID interpolant `y` (R190). -/
def takeMid (y : Cx) (ts : TsState) : TsState := { ts with yMid := some y, ph := .on }

/-- The loop update of an ON interpolant, none when it is the first (R188, R190). -/
def updateFrom (c : TsCfg) (y : Cx) (ts : TsState) : TsState :=
  match ts.yPrev, ts.yMid with
  | some yp, some ym => loopUpdate c (tedError c yp ym y) ts
  | _, _ => ts

/-- The ON interpolant `y` at time `t` (R190). -/
def takeOn (c : TsCfg) (y : Cx) (t : Rat) (ts : TsState) : TsState :=
  { updateFrom c y ts with
    yPrev := some y
    tPrev := some t
    kOn := floorNat t
    muOn := t - (floorNat t : Rat)
    held := some ⟨y, t⟩
    ph := .mid }

/-- One interpolant at time `t` (R190). -/
def takeInterpolant (c : TsCfg) (t : Rat) (ts : TsState) : TsState :=
  match ts.ph with
  | .mid => takeMid (interpolate c ts t) ts
  | .on => takeOn c (interpolate c ts t) t ts

/-- The loop of R190, at most `fuel` interpolants (assumption log 13). -/
def tsLoop (c : TsCfg) : Nat → TsRun → TsRun
  | 0, r => releaseHeld c r
  | fuel + 1, r =>
      let r := releaseHeld c r
      let t := nextTime c r.ts
      if available c r.ts t then tsLoop c fuel { r with ts := takeInterpolant c t r.ts } else r

/-- More interpolants than can be available with `n` samples in: every two advance the ON time by at least
`sps/2 > 1/2` (R202). -/
def tsFuel (n : Nat) : Nat := 4 * n + 4

/-- `x[n_in] <- z; n_in <- n_in + 1` (R190). -/
def TsState.push (z : Cx) (ts : TsState) : TsState := { ts with x := z :: ts.x, nIn := ts.nIn + 1 }

/-- The step of one sample (R190). -/
def tsSampleRun (c : TsCfg) (z : Cx) (ts : TsState) : TsRun :=
  tsLoop c (tsFuel (ts.nIn + 1)) { ts := ts.push z, out := [] }

/-- The state with TS's run put back: its beats appended to `TS_OUT` (20_memory.md rule R100). -/
def withTsRun (r : TsRun) (s : State) : State :=
  { s with ts := r.ts, tsOut := s.tsOut ++ r.out, tick := s.tick + 1 }

/-- TS.SAMPLE (R190, R205). -/
def execTsSample (re im : Word) (s : State) : Host.Outcome State Fault Refusal :=
  .next (if s.ts.eos then s else withTsRun (tsSampleRun (tsCfg s) (f32Sample re im) s.ts) s)

/-! ### The other beats -/

/-- TS.TAG (R193, R205): the payload's low `TAG_W` bits, at the index of the next sample. -/
def execTsTag (payload : TagPayload) (s : State) : Host.Outcome State Fault Refusal :=
  .next (if s.ts.eos then s
    else { s with ts := { s.ts with tags := s.ts.tags ++ [⟨s.ts.nIn, maskTag s.params.tagW payload⟩] } })

/-- What the end of the stream sends (R200): the held interpolant with every pending tag. -/
def tsFlush (c : TsCfg) (ts : TsState) : TsRun :=
  match ts.held with
  | some hd => sendInterpolant c hd.y { ts := { ts with tags := [] }, out := tagBeats ts.tags }
  | none => { ts := { ts with tags := [] }, out := [] }

/-- Whether the end of the stream drops tags (R197, R203). -/
def tsDropsTags (ts : TsState) : Bool := ts.held.isNone && !ts.tags.isEmpty

/-- The end of TS's stream (R200). -/
def tsEnd (s : State) : State :=
  let r := tsFlush (tsCfg s) s.ts
  let s1 := withTsRun { ts := { r.ts with eos := true }, out := r.out ++ [eosBeat] } s
  if tsDropsTags s.ts then raise .tsTagDrop s1 else s1

/-- TS.EOS (R200, R205). -/
def execTsEos (s : State) : Host.Outcome State Fault Refusal := .next (if s.ts.eos then s else tsEnd s)

/-- A reserved beat on `TS_IN` (30_encoding.md rule R128, R204); after EOS it too has no effect (R205, assumption
log 11). -/
def execTsReserved (s : State) : Host.Outcome State Fault Refusal :=
  .next (if s.ts.eos then s else raise .beatErr s)

end Sys2Proof.Machine
end

