-- ==== Sys2Proof/Machine/Dispatch.lean ====
section
/-! DEFINITION. The meaning of every instruction: one arm per constructor of `Instr`. -/

namespace Sys2Proof.Machine

def exec (i : Instr) (s : State) : Host.Outcome State Fault Refusal :=
  match i with
  -- 40_host_commands.md
  | .nop => Sys2Proof.Machine.execNop s
  | .csrw addr data => Sys2Proof.Machine.execCsrw addr data s
  | .csrr addr => Sys2Proof.Machine.execCsrr addr s
  | .reset ts fs bb hif => Sys2Proof.Machine.execReset ts fs bb hif s
  | .clrerr => Sys2Proof.Machine.execClrerr s
  | .cmdReserved cmd => Sys2Proof.Machine.execCmdReserved cmd s
  | .cmdMalformed cmd data => Sys2Proof.Machine.execCmdMalformed cmd data s
  -- 41_timing_sync.md
  | .tsSample re im => Sys2Proof.Machine.execTsSample re im s
  | .tsTag payload => Sys2Proof.Machine.execTsTag payload s
  | .tsEos => Sys2Proof.Machine.execTsEos s
  | .tsReserved => Sys2Proof.Machine.execTsReserved s
  -- 43_frame_sync.md
  | .fsSample re im => Sys2Proof.Machine.execFsSample re im s
  | .fsTag payload => Sys2Proof.Machine.execFsTag payload s
  | .fsEos => Sys2Proof.Machine.execFsEos s
  | .fsReserved => Sys2Proof.Machine.execFsReserved s
  -- 44_bb_deheader.md
  | .bbByte b => Sys2Proof.Machine.execBbByte b s
  | .bbStart kbch disc => Sys2Proof.Machine.execBbStart kbch disc s
  | .bbEos => Sys2Proof.Machine.execBbEos s
  | .bbReserved => Sys2Proof.Machine.execBbReserved s
  -- the output side
  | .outRsp value => Sys2Proof.Machine.execOutRsp value s
  | .outTsSample re im => Sys2Proof.Machine.execOutTsSample re im s
  | .outTsTag payload => Sys2Proof.Machine.execOutTsTag payload s
  | .outFsSample re im => Sys2Proof.Machine.execOutFsSample re im s
  | .outFsTag modcod shortFrame => Sys2Proof.Machine.execOutFsTag modcod shortFrame s
  | .outEos port => Sys2Proof.Machine.execOutEos port s
  | .outBbByte b sop => Sys2Proof.Machine.execOutBbByte b sop s
  | .outBbEos => Sys2Proof.Machine.execOutBbEos s
  | .outRotMsg value => Sys2Proof.Machine.execOutRotMsg value s

end Sys2Proof.Machine
end

