-- ==== Sys2Proof/WellFormed.lean ====
section
/-!
DEFINITION. Which terms of `Instr` are instructions: the constraints that 30_encoding.md puts on the fields of a word
beyond their widths.
-/

namespace Sys2Proof

/-- The constraint on each constructor's fields. -/
def Instr.wellFormed : Instr → Bool
  | .nop => true
  | .csrw _ _ => true
  | .csrr _ => true
  | .reset _ _ _ _ => true
  | .clrerr => true
  | .cmdReserved cmd => decide (5 ≤ (opField cmd).toNat)                       -- R122
  | .cmdMalformed cmd data =>
      decide ((opField cmd).toNat ≤ 4) && malformedWord cmd &&                  -- R133
      (data.isSome == (opField cmd == 1))                                       -- R123
  | .tsSample _ _ => true
  | .tsTag _ => true
  | .tsEos => true
  | .tsReserved => true
  | .fsSample _ _ => true
  | .fsTag _ => true
  | .fsEos => true
  | .fsReserved => true
  | .bbByte _ => true
  | .bbStart _ _ => true
  | .bbEos => true
  | .bbReserved => true
  | .outRsp _ => true
  | .outTsSample _ _ => true
  | .outTsTag _ => true
  | .outFsSample _ _ => true
  | .outFsTag modcod _ => decide (1 ≤ modcod.toNat) && decide (modcod.toNat ≤ 28)  -- R127
  | .outEos _ => true
  | .outBbByte b sop => !sop || b == 0x47                                       -- R130
  | .outBbEos => true
  | .outRotMsg _ => true

end Sys2Proof
end

