-- ==== Sys2Proof/Decode.lean ====
section
/-!
DEFINITION. The decoder, total on every word and beat, and after it the encoder, both from 30_encoding.md.

A word has a meaning only on its port: the same 32 bits are a command word on `CMD_IN` and a beat on `BB_IN` (rule
R120).  So every port has its own decoder.
-/

namespace Sys2Proof

/-- Why a decoder reads no instruction. -/
inductive DecodeError where
  /-- There is no word to read. -/
  | noWord
  /-- A command word with OP = 0x01 whose DATA word has not arrived (rule R123). -/
  | missingData
  /-- More words than the one command. -/
  | trailingWords
  /-- A word that no rule sends on its output port (rules R126, R127, R130). -/
  | notSent
deriving DecidableEq, Repr

/-- What a decoder answers. -/
abbrev Decoded (α : Type) := Except DecodeError α

/-! ### Input ports -/

/-- A command word whose OP is not 0x01 (rules R121, R122, R133). -/
def decodeShort (cmd : Word) : Instr :=
  if malformedWord cmd && decide ((opField cmd).toNat ≤ 4) then .cmdMalformed cmd none
  else match (opField cmd).toNat with
    | 0 => .nop
    | 2 => .csrr (addrField cmd)
    | 3 => .reset (cmd.getLsbD 16) (cmd.getLsbD 17) (cmd.getLsbD 18) (cmd.getLsbD 19)
    | 4 => .clrerr
    | _ => .cmdReserved cmd

/-- A command word with OP = 0x01 and its DATA word. -/
def decodeLong (cmd data : Word) : Instr :=
  if malformedWord cmd then .cmdMalformed cmd (some data) else .csrw (addrField cmd) data

/-- The next command of `CMD_IN` and the words after it.  OP alone decides the length (rule R123). -/
def decodeCmd : List Word → Decoded (Instr × List Word)
  | [] => .error .noWord
  | cmd :: rest =>
      if opField cmd = 1 then
        match rest with
        | [] => .error .missingData
        | data :: rest' => .ok (decodeLong cmd data, rest')
      else .ok (decodeShort cmd, rest)

/-- A beat of `TS_IN`, by KIND (rules R126, R128). -/
def decodeTsIn (b : Beat) : Instr :=
  match (sKind b).toNat with
  | 0 => .tsSample (sRe b) (sIm b)
  | 1 => .tsTag (sPayload b)
  | 2 => .tsEos
  | _ => .tsReserved

/-- A beat of `FS_IN`, by KIND (rules R126, R128). -/
def decodeFsIn (b : Beat) : Instr :=
  match (sKind b).toNat with
  | 0 => .fsSample (sRe b) (sIm b)
  | 1 => .fsTag (sPayload b)
  | 2 => .fsEos
  | _ => .fsReserved

/-- A beat of `BB_IN`, by KIND (rules R128, R129). -/
def decodeBbIn (w : Word) : Instr :=
  match (bKind w).toNat with
  | 0 => .bbByte (w.extractLsb' 0 8)
  | 1 => .bbStart (w.extractLsb' 0 16) (w.getLsbD 16)
  | 2 => .bbEos
  | _ => .bbReserved

/-! ### Output ports -/

/-- A word of `RSP_OUT` (rule R125). -/
def decodeRspOut (w : Word) : Instr := .outRsp w

/-- A beat of `TS_OUT`: its ignored bits are 0 (rule R126). -/
def decodeTsOut (b : Beat) : Decoded Instr :=
  if b = sampleBeat (sRe b) (sIm b) then .ok (.outTsSample (sRe b) (sIm b))
  else if b = tagBeat (sPayload b) then .ok (.outTsTag (sPayload b))
  else if b = eosBeat then .ok (.outEos .ts)
  else .error .notSent

/-- A beat of `FS_OUT` (rules R126, R127): a TAG carries a MODCOD in 1..28. -/
def decodeFsOut (b : Beat) : Decoded Instr :=
  let modcod : BitVec 5 := b.extractLsb' 0 5
  if b = sampleBeat (sRe b) (sIm b) then .ok (.outFsSample (sRe b) (sIm b))
  else if b = frameTagBeat modcod (b.getLsbD 5) ∧ 1 ≤ modcod.toNat ∧ modcod.toNat ≤ 28 then
    .ok (.outFsTag modcod (b.getLsbD 5))
  else if b = eosBeat then .ok (.outEos .fs)
  else .error .notSent

/-- A beat of `BB_OUT` (rule R130): a BYTE with SOP is the restored 0x47. -/
def decodeBbOut (w : Word) : Decoded Instr :=
  let byte : Byte := w.extractLsb' 0 8
  if w = outByteBeat byte (w.getLsbD 8) ∧ (w.getLsbD 8 = true → byte = 0x47) then
    .ok (.outBbByte byte (w.getLsbD 8))
  else if w = bbEosBeat then .ok .outBbEos
  else .error .notSent

/-- A MSG of `ROT_OUT` (rule R131). -/
def decodeRotOut (w : Word) : Instr := .outRotMsg w

/-! ### One instruction on its port -/

/-- An instruction's words on the port it belongs to (rule R120). -/
inductive Encoded where
  | cmdIn (ws : List Word)
  | tsIn (b : Beat)
  | fsIn (b : Beat)
  | bbIn (w : Word)
  | rspOut (w : Word)
  | tsOut (b : Beat)
  | fsOut (b : Beat)
  | bbOut (w : Word)
  | rotOut (w : Word)
deriving DecidableEq, Repr

/-- The instruction that exactly these words are on their port, or the reason there is none. -/
def decode : Encoded → Decoded Instr
  | .cmdIn ws =>
      match decodeCmd ws with
      | .ok (i, []) => .ok i
      | .ok (_, _ :: _) => .error .trailingWords
      | .error e => .error e
  | .tsIn b => .ok (decodeTsIn b)
  | .fsIn b => .ok (decodeFsIn b)
  | .bbIn w => .ok (decodeBbIn w)
  | .rspOut w => .ok (decodeRspOut w)
  | .tsOut b => decodeTsOut b
  | .fsOut b => decodeFsOut b
  | .bbOut w => decodeBbOut w
  | .rotOut w => .ok (decodeRotOut w)

/-- The words of an instruction, from the formats of 30_encoding.md (rules R121 to R131, R136).  Ignored bits are 0. -/
def encode : Instr → Encoded
  | .nop => .cmdIn [cmdWord 0 0]
  | .csrw addr data => .cmdIn [cmdWord 1 addr, data]
  | .csrr addr => .cmdIn [cmdWord 2 addr]
  | .reset ts fs bb hif => .cmdIn [cmdWord 3 (resetMask ts fs bb hif)]
  | .clrerr => .cmdIn [cmdWord 4 0]
  | .cmdReserved cmd => .cmdIn [cmd]
  | .cmdMalformed cmd data => .cmdIn (cmd :: data.toList)
  | .tsSample re im => .tsIn (sampleBeat re im)
  | .tsTag payload => .tsIn (tagBeat payload)
  | .tsEos => .tsIn eosBeat
  | .tsReserved => .tsIn reservedBeat
  | .fsSample re im => .fsIn (sampleBeat re im)
  | .fsTag payload => .fsIn (tagBeat payload)
  | .fsEos => .fsIn eosBeat
  | .fsReserved => .fsIn reservedBeat
  | .bbByte b => .bbIn (byteBeat b)
  | .bbStart kbch disc => .bbIn (startBeat kbch disc)
  | .bbEos => .bbIn bbEosBeat
  | .bbReserved => .bbIn bbReservedBeat
  | .outRsp value => .rspOut value
  | .outTsSample re im => .tsOut (sampleBeat re im)
  | .outTsTag payload => .tsOut (tagBeat payload)
  | .outFsSample re im => .fsOut (sampleBeat re im)
  | .outFsTag modcod shortFrame => .fsOut (frameTagBeat modcod shortFrame)
  | .outEos .ts => .tsOut eosBeat
  | .outEos .fs => .fsOut eosBeat
  | .outBbByte b sop => .bbOut (outByteBeat b sop)
  | .outBbEos => .bbOut bbEosBeat
  | .outRotMsg value => .rotOut value

/-! ### The host's table words -/

/-- The instruction a word of spec/opcode_table.json is: a 32-bit word is read on `CMD_IN` with zero words after it,
a 96-bit word on `TS_IN` (assumption log 14: the table's bits do not name the port). -/
def decodeTableWord (nbits w : Nat) : Option Instr :=
  match nbits with
  | 32 =>
      match decodeCmd [BitVec.ofNat 32 w, 0] with
      | .ok (i, _) => some i
      | .error _ => none
  | 96 => some (decodeTsIn (BitVec.ofNat 96 w))
  | _ => none

end Sys2Proof
end

