-- ==== Sys2Proof/Machine/Fetch.lean ====
section
/-!
DEFINITION. Taking an agent's next instruction from its port (`recv(P)`, 00_scope.md rule R14).

There is no instruction memory and no program counter (00_scope.md rule R3, 20_memory.md rule R90): an agent's next
instruction stands at the head of its port.
-/

namespace Sys2Proof.Machine

/-- What an agent's turn finds. -/
inductive Fetched where
  /-- An instruction, and the state with its words taken from an input port. -/
  | run (i : Instr) (s : State)
  /-- Nothing to do: the agent makes no step (60_exceptions.md rule R375). -/
  | idle
  /-- A beat on an output port that no rule sends there. -/
  | neverSent (p : OutPort)
deriving DecidableEq, Repr

/-- HIF takes a command with its DATA word; it waits for a DATA word that has not arrived (30_encoding.md rule R123,
assumption log 15). -/
def fetchHif (s : State) : Fetched :=
  match decodeCmd s.cmdIn with
  | .ok (i, rest) => .run i { s with cmdIn := rest }
  | .error _ => .idle

/-- TS takes a beat. -/
def fetchTs (s : State) : Fetched :=
  match s.tsIn with
  | [] => .idle
  | b :: rest => .run (decodeTsIn b) { s with tsIn := rest }

/-- FS takes a beat. -/
def fetchFs (s : State) : Fetched :=
  match s.fsIn with
  | [] => .idle
  | b :: rest => .run (decodeFsIn b) { s with fsIn := rest }

/-- BB takes a beat. -/
def fetchBb (s : State) : Fetched :=
  match s.bbIn with
  | [] => .idle
  | w :: rest => .run (decodeBbIn w) { s with bbIn := rest }

/-- The instruction that the word at the head of an output port is; its meaning takes it from the port. -/
def fetchOut (p : OutPort) (s : State) (i : Decoded Instr) : Fetched :=
  match i with
  | .ok i => .run i s
  | .error .noWord => .idle
  | .error _ => .neverSent p

/-- The word at the head of a port, decoded. -/
def headOf {α : Type} (port : List α) (dec : α → Decoded Instr) : Decoded Instr :=
  match port with
  | [] => .error .noWord
  | b :: _ => dec b

/-- The host takes from an output port. -/
def fetchHost (p : OutPort) (s : State) : Fetched :=
  match p with
  | .rsp => fetchOut p s (headOf s.rspOut fun w => .ok (decodeRspOut w))
  | .ts => fetchOut p s (headOf s.tsOut decodeTsOut)
  | .fs => fetchOut p s (headOf s.fsOut decodeFsOut)
  | .bb => fetchOut p s (headOf s.bbOut decodeBbOut)

/-- The rotator consumes a full outbox (20_memory.md rule R99). -/
def fetchRotator (s : State) : Fetched :=
  if s.hif.obValid then .run (decodeRotOut (outboxMsg s)) s else .idle

/-- What an agent's turn finds. -/
def fetch (a : Agent) (s : State) : Fetched :=
  match a with
  | .hif => fetchHif s
  | .ts => fetchTs s
  | .fs => fetchFs s
  | .bb => fetchBb s
  | .host p => fetchHost p s
  | .rotator => fetchRotator s

/-- The host supplies a word or beat, or nothing where the event is a turn (00_scope.md rule R22). -/
def supply (e : Event) (s : State) : State :=
  match e with
  | .supplyCmd w => { s with cmdIn := s.cmdIn ++ [w] }
  | .supplyTs b => { s with tsIn := s.tsIn ++ [b] }
  | .supplyFs b => { s with fsIn := s.fsIn ++ [b] }
  | .supplyBb w => { s with bbIn := s.bbIn ++ [w] }
  | .turn _ => s

end Sys2Proof.Machine
end

