-- ==== Sys2Proof/Machine/Step.lean ====
section
/-!
DEFINITION. One step of the core and its environment: the next event of the script (assumption log 3).
-/

namespace Sys2Proof.Machine

/-- An agent's turn: it runs the instruction it finds, or makes no step. -/
def turn (a : Agent) (s : State) : Host.Outcome State Fault Refusal :=
  match fetch a s with
  | .run i s' => exec i s'
  | .idle => .next s
  | .neverSent p => .fault (.beatNeverSent p)

/-- One step: the next event of the script happens; with none the core rests (60_exceptions.md rule R375). -/
def step (s : State) : Host.Outcome State Fault Refusal :=
  match s.sched with
  | [] => .next s
  | .turn a :: rest => turn a { s with sched := rest }
  | e :: rest => .next (supply e { s with sched := rest })

/-- The state with a table word as the very next instruction: a 32-bit word at the head of `CMD_IN` (a zero word, its
DATA word under CSRW, after it) with HIF's turn next, a 96-bit word at the head of `TS_IN` with TS's turn next
(assumption log 14). -/
def State.withFetchWord (s : State) (nbits w : Nat) : State :=
  match nbits with
  | 32 => { s with cmdIn := BitVec.ofNat 32 w :: 0 :: s.cmdIn, sched := .turn .hif :: s.sched }
  | 96 => { s with tsIn := BitVec.ofNat 96 w :: s.tsIn, sched := .turn .ts :: s.sched }
  | _ => s

end Sys2Proof.Machine
end

