-- ==== Sys2Proof/Safety.lean ====
section
/-!
DEFINITION. What counts as a safe state, and the words in which statements say what a step leaves unchanged.

The invariants rule out the states that no run from reset reaches (assumption log 23).  Each is one structure over what
it constrains.
-/

namespace Sys2Proof.Machine

/-! ### Invariants -/

/-- Every RW register holds a legal value (10_state.md rules R35, R36), and the reserved bits of `FS_CTRL` are 0
(rule R63). -/
structure CsrInv (s : State) : Prop where
  legal    : ∀ c : Csr, c.legal? (readCsr s c) ≠ some false
  reserved : s.csr.fsCtrl &&& 0xFFFFFFF0 = 0

/-- `TS_K1` and `TS_K2` are the gains of the three gain inputs (70_reset_and_hazards.md rule R392). -/
def GainsInv (s : State) : Prop := (s.ts.k1, s.ts.k2) = gains s.params.numerics s.csr

/-- The Symbol Timing Synchronizer, for tag payloads of `w` bits: the ranges of 10_state.md rule R78 and
41_timing_sync.md rule R202, the held interpolant and the tags of rule R199. -/
structure TsInv (w : Nat) (ts : TsState) : Prop where
  count  : ts.x.length = ts.nIn
  mu     : 0 ≤ ts.muOn ∧ ts.muOn < 1
  v      : -(1 / 2) ≤ ts.v ∧ ts.v ≤ 1 / 2
  integ  : -1 < ts.integ ∧ ts.integ < 1
  mid    : ts.ph = .on → ts.yMid ≠ none
  prev   : ts.tPrev = none ↔ ts.yPrev = none
  held   : ∀ hd, ts.held = some hd → hd.t = ts.tOn ∧ ts.ph = .mid
  sorted : ts.tags.Pairwise fun g h => g.index ≤ h.index
  seen   : ∀ g ∈ ts.tags, g.index ≤ ts.nIn
  width  : ∀ g ∈ ts.tags, g.payload.toNat < 2 ^ w

/-- A frame whose payload is being processed when `n` symbols have arrived (43_frame_sync.md rules R289, R293). -/
structure FrameInv (f : Frame) (n : Nat) : Prop where
  geometry : f.geom = plInfo f.pls
  valid    : invalidPls f.pls = false
  started  : f.h + 90 ≤ n
  unended  : n < f.h + f.geom.len
  emitted  : f.emit = true → f.hit = true ∧ modcodOf f.pls ≠ 0

/-- The PL Frame Synchronizer (43_frame_sync.md rules R279 to R293). -/
structure FsInv (fs : FsState) : Prop where
  count    : fs.r.length = fs.nIn
  search   : fs.searchFrom ≤ fs.nIn
  idle     : fs.nextHdr = none → fs.lock = .unlocked ∧ fs.hits = 0
  expected : ∀ h, fs.nextHdr = some h → fs.nIn ≤ h + 89 ∧ 1 ≤ fs.hits ∧ fs.lastPlsValid = true
  unlocked : fs.lock = .unlocked → fs.frm = none ∧ fs.misses = 0 ∧ fs.ccmPls = none
  locked   : fs.lock = .locked → 2 ≤ fs.hits
  frame    : ∀ f, fs.frm = some f → FrameInv f fs.nIn ∧ fs.nextHdr = some (f.h + f.geom.len)

/-- The Frequency Offset Estimator under the arithmetic `n` (42_freq_estimator.md rules R225, R237, R238, R241). -/
structure FeInv (n : Numerics) (fe : FeState) : Prop where
  range  : -(1 / 2) < fe.fCum ∧ fe.fCum ≤ 1 / 2
  start  : fe.fstate = .uncorrected → fe.fCum = 0
  count  : fe.cnt < 65535
  opened : fe.mode = false → fe.lastCmd = 0
  closed : fe.mode = true → fe.lastCmd = if fe.fstate = .uncorrected then 0 else commandValue ⟨n, 0⟩ fe.fCum

/-- The BBFRAME Deheader (10_state.md rule R81, 44_bb_deheader.md rules R326, R333, R341). -/
structure BbInv (b : BbState) : Prop where
  count : b.nbytes = b.fbuf.length
  frame : b.isOpen = true → legalKbch b.kbch = true ∧ b.nbytes < b.kbch / 8
  part  : b.havePart = true ↔ b.part ≠ []
  short : b.part.length ≤ 187

/-- The reserved bits of `HIF_STATUS` are 0 (10_state.md rule R43). -/
def HifInv (h : HifState) : Prop := h.status.toNat < 128

/-- Every beat on the output ports is one that a rule sends there (30_encoding.md rules R126, R127, R130). -/
structure PortsInv (s : State) : Prop where
  ts : ∀ b ∈ s.tsOut, ∃ i, decodeTsOut b = .ok i
  fs : ∀ b ∈ s.fsOut, ∃ i, decodeFsOut b = .ok i
  bb : ∀ w ∈ s.bbOut, ∃ i, decodeBbOut w = .ok i

/-- All of these together. -/
structure CoreInv (s : State) : Prop where
  csr   : CsrInv s
  gains : GainsInv s
  ts    : TsInv s.params.tagW s.ts
  fs    : FsInv s.fs
  fe    : FeInv s.params.numerics s.fe
  bb    : BbInv s.bb
  hif   : HifInv s.hif
  ports : PortsInv s

/-! ### What a step leaves unchanged -/

/-- Nothing but HIF's state and `RSP_OUT` may differ. -/
def OnlyHif (s t : State) : Prop := t = { s with hif := t.hif, rspOut := t.rspOut }

/-- Nothing but the CSR file and TS's two gains may differ. -/
def OnlyCsr (s t : State) : Prop := t = { s with csr := t.csr, ts := { s.ts with k1 := t.ts.k1, k2 := t.ts.k2 } }

/-- Nothing but TS's state, `TS_OUT` and the mark of free values may differ. -/
def OnlyTs (s t : State) : Prop := t = { s with ts := t.ts, tsOut := t.tsOut, tick := t.tick }

/-- Nothing but the states of FS and FE, the outbox, `HIF_STATUS`, `FS_OUT` and the mark of free values may differ. -/
def OnlyFs (s t : State) : Prop :=
  t = { s with fs := t.fs, fe := t.fe, hif := t.hif, fsOut := t.fsOut, tick := t.tick }

/-- Nothing but BB's state and `BB_OUT` may differ. -/
def OnlyBb (s t : State) : Prop := t = { s with bb := t.bb, bbOut := t.bbOut }

/-- `raise` of an error whose bit has the weight `w`: that bit of `HIF_STATUS` is set and nothing else differs. -/
def WithError (w : Word) (s : State) : State := { s with hif := { s.hif with status := s.hif.status ||| w } }

/-- The bit `b` of `HIF_STATUS` is set by a step from `s` to `t`. -/
def NewBit (b : Nat) (s t : State) : Prop := s.hif.status.getLsbD b = false ∧ t.hif.status.getLsbD b = true

/-- A CSRR of the address `a` answers `w` and changes nothing (40_host_commands.md rule R162). -/
def Answers (s : State) (a : BitVec 8) (w : Word) : Prop :=
  exec (.csrr a) s = .next { s with rspOut := s.rspOut ++ [w] }

/-- The addresses of the RW registers (10_state.md rule R38). -/
def rwAddress (a : BitVec 8) : Prop :=
  (0x10 ≤ a.toNat ∧ a.toNat ≤ 0x17) ∨ (0x20 ≤ a.toNat ∧ a.toNat ≤ 0x22) ∨ (0x24 ≤ a.toNat ∧ a.toNat ≤ 0x2B)

/-- The mapped addresses (10_state.md rule R40). -/
def mappedAddress (a : BitVec 8) : Prop :=
  a.toNat ≤ 0x04 ∨ (0x10 ≤ a.toNat ∧ a.toNat ≤ 0x1A) ∨ (0x20 ≤ a.toNat ∧ a.toNat ≤ 0x22) ∨
    (0x24 ≤ a.toNat ∧ a.toNat ≤ 0x2B) ∨ (0x30 ≤ a.toNat ∧ a.toNat ≤ 0x33) ∨ (0x40 ≤ a.toNat ∧ a.toNat ≤ 0x44)

/-- A command word that is illegal by 30_encoding.md rule R133, by its bits. -/
def illegalWord (cmd : Word) : Prop :=
  0x05 ≤ cmd.toNat / 2 ^ 24 ∨ cmd.toNat % 2 ^ 16 ≠ 0 ∨
    ((cmd.toNat / 2 ^ 24 = 0x00 ∨ cmd.toNat / 2 ^ 24 = 0x04) ∧ cmd.toNat / 2 ^ 16 % 2 ^ 8 ≠ 0) ∨
    (cmd.toNat / 2 ^ 24 = 0x03 ∧ cmd.toNat / 2 ^ 20 % 2 ^ 4 ≠ 0)

/-! ### The parts of a port's output -/

/-- How many of some stream beats are SAMPLE beats (KIND 0b00, 30_encoding.md rule R126). -/
def sampleCount (beats : List Beat) : Nat := (beats.filter fun b => sKind b == 0).length

/-- The payloads of the TAG beats among some stream beats, in order (KIND 0b01, 30_encoding.md rule R126). -/
def tagPayloads (beats : List Beat) : List TagPayload := (beats.filter fun b => sKind b == 1).map sPayload

/-- A user packet's words on `BB_OUT` (44_bb_deheader.md rule R343): 0x47 with SOP in place of its first byte, then the
other bytes. -/
def packetWords (u : List Byte) : List Word := 0x00000147 :: u.tail.map fun b => b.setWidth 32

/-! ### Reference arithmetic -/

/-- No value of TS's state is a NaN or an infinity. -/
structure TsFinite (s : State) : Prop where
  x     : ∀ z ∈ s.ts.x, z ≠ .nonFinite
  yMid  : s.ts.yMid ≠ some .nonFinite
  yPrev : s.ts.yPrev ≠ some .nonFinite

/-- The ON interpolants TS has sent as a fixed downsampler by `p`: those computed, but for the one held
(41_timing_sync.md rules R191, R201). -/
def outputsSent (p : Nat) (ts : TsState) : Nat := ts.kOn / p - (if ts.held.isSome then 1 else 0)

/-- TS as a fixed downsampler by the whole number `p`, from its reset on (41_timing_sync.md rule R201): zero gains and
loop state, the latest ON interpolant at a multiple of `p` that has been received, the held one the sample there, and
one output for each multiple of `p` before. -/
structure Downsampler (p : Nat) (s : State) : Prop where
  exact  : s.params.numerics = .reference
  sps    : f32 s.csr.tsSps = .fin (p : Rat)
  gains  : s.ts.k1 = 0 ∧ s.ts.k2 = 0
  loop   : s.ts.v = 0 ∧ s.ts.integ = 0
  finite : TsFinite s
  time   : s.ts.muOn = 0 ∧ s.ts.kOn % p = 0 ∧ (s.ts.kOn = 0 ∨ s.ts.kOn < s.ts.nIn)
  held   : ∀ hd, s.ts.held = some hd → 0 < s.ts.kOn ∧ hd.y = s.ts.sample s.ts.kOn
  sent   : s.ts.outCount = BitVec.ofNat 32 (outputsSent p s.ts)

end Sys2Proof.Machine
end

