-- ==== Sys2Proof/Certificates/Slice0/Obligations.lean ====
section
/-!
DEFINITION. The statements about the model, for the provers.

"Reference arithmetic" is `Numerics.reference` (00_scope.md rule R18, assumption log 1).  A statement that does not
name it holds under every arithmetic.  The field `tick` is the model's own mark of free values (assumption log 9): no
statement says what value it has.
-/

open Sys2Proof Sys2Proof.Machine

/-! ### Encoding -/

/-- Words written out from 30_encoding.md (R121, R122, R125, R126, R127, R129, R130, R131, R136), one or more of each format and
port. -/
def Obligations.WordsDecodeAsWritten : Prop :=
  decode (.cmdIn [0x00000000]) = .ok .nop ∧
  decode (.cmdIn [0x01120000, 0x3F350481]) = .ok (.csrw 0x12 0x3F350481) ∧
  decode (.cmdIn [0x02310000]) = .ok (.csrr 0x31) ∧
  decode (.cmdIn [0x03020000]) = .ok (.reset false true false false) ∧
  decode (.cmdIn [0x030F0000]) = .ok (.reset true true true true) ∧
  decode (.cmdIn [0x04000000]) = .ok .clrerr ∧
  decode (.cmdIn [0x7F000000]) = .ok (.cmdReserved 0x7F000000) ∧
  decode (.cmdIn [0x00000001]) = .ok (.cmdMalformed 0x00000001 none) ∧
  decode (.tsIn 0x00000000C00000003F800000) = .ok (.tsSample 0x3F800000 0xC0000000) ∧
  decode (.tsIn 0x40000000000000000000002A) = .ok (.tsTag 0x2A) ∧
  decode (.fsIn 0x00000000C00000003F800000) = .ok (.fsSample 0x3F800000 0xC0000000) ∧
  decode (.fsIn 0x800000000000000000000000) = .ok .fsEos ∧
  decode (.bbIn 0x400007D0) = .ok (.bbStart 2000 false) ∧
  decode (.bbIn 0x400107D0) = .ok (.bbStart 2000 true) ∧
  decode (.bbIn 0x000000B8) = .ok (.bbByte 0xB8) ∧
  decode (.tsOut 0x40000000000000000000002A) = .ok (.outTsTag 0x2A) ∧
  decode (.fsOut 0x400000000000000000000035) = .ok (.outFsTag 21 true) ∧
  decode (.bbOut 0x00000147) = .ok (.outBbByte 0x47 true) ∧
  decode (.rspOut 0x44533252) = .ok (.outRsp 0x44533252) ∧
  decode (.rotOut 0xBF800000) = .ok (.outRotMsg 0xBF800000)

/-- Every well-formed instruction, with every operand its encoding admits, is read back from its own words. -/
def Obligations.DecodeOfEncode : Prop :=
  ∀ i : Instr, i.wellFormed = true → decode (encode i) = .ok i

/-- What is read from a command or from an output port is well formed, and its encoding gives back the very words: no
bit is dropped and no two instructions share words.  (An input beat has ignored bits, R128.) -/
def Obligations.EncodeOfDecode : Prop :=
  ∀ (e : Encoded) (i : Instr), decode e = .ok i →
    i.wellFormed = true ∧
    match e with
    | .tsIn _ => True
    | .fsIn _ => True
    | .bbIn _ => True
    | _ => encode i = e

/-- R123: OP alone decides how many words HIF takes in one step, whatever becomes of the command. -/
def Obligations.OpDecidesCommandLength : Prop :=
  (∀ (s : State) (cmd data : Word) (rest : List Word), s.cmdIn = cmd :: data :: rest → opField cmd = 0x01 →
    ∃ t, turn .hif s = .next t ∧ t.cmdIn = rest) ∧
  (∀ (s : State) (cmd : Word) (rest : List Word), s.cmdIn = cmd :: rest → opField cmd ≠ 0x01 →
    ∃ t, turn .hif s = .next t ∧ t.cmdIn = rest)

/-- R133, R166: an illegal command word is consumed (with its DATA word under OP = 0x01), answered 0 under OP = 0x02,
raises `CMD_ERR` and does nothing else; and the two instructions such words decode to do exactly that. -/
def Obligations.IllegalCommandsOnlyRaiseCmdErr : Prop :=
  (∀ (s : State) (cmd data : Word) (rest : List Word), illegalWord cmd →
    s.cmdIn = (if opField cmd = 0x01 then cmd :: data :: rest else cmd :: rest) →
    turn .hif s = .next (WithError 1
      { s with cmdIn := rest, rspOut := if opField cmd = 0x02 then s.rspOut ++ [0] else s.rspOut })) ∧
  (∀ (s : State) (cmd : Word), exec (.cmdReserved cmd) s = .next (WithError 1
      { s with rspOut := if opField cmd = 0x02 then s.rspOut ++ [0] else s.rspOut })) ∧
  (∀ (s : State) (cmd : Word) (data : Option Word), exec (.cmdMalformed cmd data) s = .next (WithError 1
      { s with rspOut := if opField cmd = 0x02 then s.rspOut ++ [0] else s.rspOut }))

/-- Two input beats that differ only in bits the formats ignore (R126, R128, R129) do the same. -/
def Obligations.IgnoredBitsHaveNoEffect : Prop :=
  (∀ (s : State) (b b' : Beat), sKind b = sKind b' →
    (sKind b = 0 → sRe b = sRe b' ∧ sIm b = sIm b') →
    (sKind b = 1 → b.toNat % 2 ^ s.params.tagW = b'.toNat % 2 ^ s.params.tagW) → s.params.tagW ≤ 64 →
    exec (decodeTsIn b) s = exec (decodeTsIn b') s) ∧
  (∀ (s : State) (b b' : Beat), sKind b = sKind b' →
    (sKind b = 0 → sRe b = sRe b' ∧ sIm b = sIm b') →
    exec (decodeFsIn b) s = exec (decodeFsIn b') s) ∧
  (∀ (s : State) (w w' : Word), bKind w = bKind w' →
    (bKind w = 0 → w.toNat % 2 ^ 8 = w'.toNat % 2 ^ 8) →
    (bKind w = 1 → w.toNat % 2 ^ 17 = w'.toNat % 2 ^ 17) →
    exec (decodeBbIn w) s = exec (decodeBbIn w') s)

/-! ### The step -/

/-- A step in which an agent has its turn runs the instruction that stands at the head of its port: taken from the
port on an input port (R14), still there on an output port. -/
def Obligations.StepRunsTheDecodedInstruction : Prop :=
  ∀ (s : State) (rest : List Event),
    (∀ i q, s.sched = .turn .hif :: rest → decodeCmd s.cmdIn = .ok (i, q) →
      step s = exec i { s with sched := rest, cmdIn := q }) ∧
    (∀ b q, s.sched = .turn .ts :: rest → s.tsIn = b :: q →
      step s = exec (decodeTsIn b) { s with sched := rest, tsIn := q }) ∧
    (∀ b q, s.sched = .turn .fs :: rest → s.fsIn = b :: q →
      step s = exec (decodeFsIn b) { s with sched := rest, fsIn := q }) ∧
    (∀ w q, s.sched = .turn .bb :: rest → s.bbIn = w :: q →
      step s = exec (decodeBbIn w) { s with sched := rest, bbIn := q }) ∧
    (∀ w q, s.sched = .turn (.host .rsp) :: rest → s.rspOut = w :: q →
      step s = exec (decodeRspOut w) { s with sched := rest }) ∧
    (∀ b q i, s.sched = .turn (.host .ts) :: rest → s.tsOut = b :: q → decodeTsOut b = .ok i →
      step s = exec i { s with sched := rest }) ∧
    (∀ b q i, s.sched = .turn (.host .fs) :: rest → s.fsOut = b :: q → decodeFsOut b = .ok i →
      step s = exec i { s with sched := rest }) ∧
    (∀ w q i, s.sched = .turn (.host .bb) :: rest → s.bbOut = w :: q → decodeBbOut w = .ok i →
      step s = exec i { s with sched := rest }) ∧
    (s.sched = .turn .rotator :: rest → s.hif.obValid = true →
      step s = exec (decodeRotOut (bits32 s.hif.obValue)) { s with sched := rest })

/-- The other steps: the host supplies a word at the end of a port (R96), a unit with no input makes no step (R375),
and nothing happens when nothing is scripted. -/
def Obligations.StepsWithoutAnInstruction : Prop :=
  ∀ (s : State) (rest : List Event),
    (s.sched = [] → step s = .next s) ∧
    (∀ w, s.sched = .supplyCmd w :: rest → step s = .next { s with sched := rest, cmdIn := s.cmdIn ++ [w] }) ∧
    (∀ b, s.sched = .supplyTs b :: rest → step s = .next { s with sched := rest, tsIn := s.tsIn ++ [b] }) ∧
    (∀ b, s.sched = .supplyFs b :: rest → step s = .next { s with sched := rest, fsIn := s.fsIn ++ [b] }) ∧
    (∀ w, s.sched = .supplyBb w :: rest → step s = .next { s with sched := rest, bbIn := s.bbIn ++ [w] }) ∧
    (s.sched = .turn .hif :: rest → s.cmdIn = [] → step s = .next { s with sched := rest }) ∧
    (s.sched = .turn .ts :: rest → s.tsIn = [] → step s = .next { s with sched := rest }) ∧
    (s.sched = .turn .fs :: rest → s.fsIn = [] → step s = .next { s with sched := rest }) ∧
    (s.sched = .turn .bb :: rest → s.bbIn = [] → step s = .next { s with sched := rest }) ∧
    (s.sched = .turn .rotator :: rest → s.hif.obValid = false → step s = .next { s with sched := rest })

/-- R96: no instruction drops, reorders or duplicates a beat of an output port: it appends, or takes the head. -/
def Obligations.OutputPortsAreFifos : Prop :=
  ∀ (i : Instr) (s t : State), exec i s = .next t →
    ((∃ l, t.rspOut = s.rspOut ++ l) ∨ ∃ w, s.rspOut = w :: t.rspOut) ∧
    ((∃ l, t.tsOut = s.tsOut ++ l) ∨ ∃ b, s.tsOut = b :: t.tsOut) ∧
    ((∃ l, t.fsOut = s.fsOut ++ l) ∨ ∃ b, s.fsOut = b :: t.fsOut) ∧
    ((∃ l, t.bbOut = s.bbOut ++ l) ∨ ∃ w, s.bbOut = w :: t.bbOut) ∧
    ∃ l, t.rotOut = s.rotOut ++ l

/-- What each instruction can change at all (R4, R165, R373): everything not named in its line is as before, the ports
and the CSR file included. -/
def Obligations.InstructionFrames : Prop :=
  ∀ (i : Instr) (s t : State), exec i s = .next t →
    match i with
    | .nop => t = s
    | .csrw _ _ => t = { s with
        csr := t.csr
        ts := { s.ts with k1 := t.ts.k1, k2 := t.ts.k2 }
        hif := { s.hif with status := t.hif.status } }
    | .csrr _ => t = { s with hif := { s.hif with status := t.hif.status }, rspOut := t.rspOut }
    | .reset _ _ _ _ => t = { s with
        ts := t.ts, fs := t.fs, fe := t.fe, bb := t.bb, hif := t.hif, tsIn := t.tsIn, fsIn := t.fsIn, bbIn := t.bbIn }
    | .clrerr => t = { s with hif := { s.hif with status := t.hif.status } }
    | .cmdReserved _ => t = { s with hif := { s.hif with status := t.hif.status }, rspOut := t.rspOut }
    | .cmdMalformed _ _ => t = { s with hif := { s.hif with status := t.hif.status }, rspOut := t.rspOut }
    | .tsSample _ _ => OnlyTs s t ∧ t.ts.k1 = s.ts.k1 ∧ t.ts.k2 = s.ts.k2 ∧ t.ts.eos = s.ts.eos
    | .tsTag _ => t = { s with ts := { s.ts with tags := t.ts.tags } }
    | .tsEos => t = { s with
        ts := { s.ts with tags := t.ts.tags, held := t.ts.held, outCount := t.ts.outCount, eos := t.ts.eos }
        tsOut := t.tsOut
        tick := t.tick
        hif := { s.hif with status := t.hif.status } }
    | .tsReserved => t = { s with hif := { s.hif with status := t.hif.status } }
    | .fsSample _ _ => OnlyFs s t ∧ t.fs.eos = s.fs.eos
    | .fsTag _ => t = s
    | .fsEos => t = { s with fs := { s.fs with eos := t.fs.eos }, fsOut := t.fsOut }
    | .fsReserved => t = { s with hif := { s.hif with status := t.hif.status } }
    | .bbByte _ => t = { s with bb := t.bb, bbOut := t.bbOut, hif := { s.hif with status := t.hif.status } }
    | .bbStart _ _ => t = { s with bb := t.bb }
    | .bbEos => t = { s with bb := t.bb, bbOut := t.bbOut }
    | .bbReserved => t = { s with hif := { s.hif with status := t.hif.status } }
    | .outRsp _ => t = { s with rspOut := t.rspOut }
    | .outTsSample _ _ => t = { s with tsOut := t.tsOut }
    | .outTsTag _ => t = { s with tsOut := t.tsOut }
    | .outFsSample _ _ => t = { s with fsOut := t.fsOut }
    | .outFsTag _ _ => t = { s with fsOut := t.fsOut }
    | .outEos .ts => t = { s with tsOut := t.tsOut }
    | .outEos .fs => t = { s with fsOut := t.fsOut }
    | .outBbByte _ _ => t = { s with bbOut := t.bbOut }
    | .outBbEos => t = { s with bbOut := t.bbOut }
    | .outRotMsg _ => t = { s with hif := { s.hif with obValid := t.hif.obValid }, rotOut := t.rotOut }

/-! ### Reset and the commands -/

/-- R390: right after power-on reset every CSR answers its reset value of rule R38, every unit record holds the reset
column of rules R78 to R82, and every port is empty. -/
def Obligations.ResetLeavesTheStatedValues : Prop :=
  (Answers State.reset 0x00 0x44533252 ∧ Answers State.reset 0x01 0x00070000 ∧ Answers State.reset 0x02 0 ∧
   Answers State.reset 0x03 0 ∧ Answers State.reset 0x04 0 ∧
   Answers State.reset 0x10 0x40000000 ∧ Answers State.reset 0x11 0 ∧ Answers State.reset 0x12 0 ∧
   Answers State.reset 0x13 0x3E4CCCCD ∧ Answers State.reset 0x14 0 ∧ Answers State.reset 0x15 1 ∧
   Answers State.reset 0x16 1 ∧ Answers State.reset 0x17 0x3F800000 ∧ Answers State.reset 0x18 0 ∧
   Answers State.reset 0x19 0 ∧ Answers State.reset 0x1A 0 ∧
   Answers State.reset 0x20 0 ∧ Answers State.reset 0x21 1 ∧ Answers State.reset 0x22 0 ∧
   Answers State.reset 0x24 0xFFFFFFFF ∧ Answers State.reset 0x25 0xFFFFFFFF ∧
   Answers State.reset 0x26 0xFFFFFFFF ∧ Answers State.reset 0x27 0xFFFFFFFF ∧
   Answers State.reset 0x28 0x3F333333 ∧ Answers State.reset 0x29 2 ∧ Answers State.reset 0x2A 3 ∧
   Answers State.reset 0x2B 0x38D1B717 ∧
   Answers State.reset 0x30 0 ∧ Answers State.reset 0x31 0 ∧ Answers State.reset 0x32 0 ∧ Answers State.reset 0x33 0 ∧
   Answers State.reset 0x40 0 ∧ Answers State.reset 0x41 0 ∧ Answers State.reset 0x42 0 ∧ Answers State.reset 0x43 0 ∧
   Answers State.reset 0x44 0) ∧
  State.reset.ts = {
    x := [], nIn := 0, kOn := 0, muOn := 0, ph := .mid, v := 0, integ := 0, k1 := 0, k2 := 0, yMid := none,
    yPrev := none, tPrev := none, held := none, tags := [], outCount := 0, eos := false } ∧
  State.reset.fs = {
    r := [], nIn := 0, lock := .unlocked, hits := 0, misses := 0, nextHdr := none, searchFrom := 0, ccmPls := none,
    frm := none, lastPls := 0, lastPlsValid := false, frameCount := 0, eos := false } ∧
  State.reset.fe = {
    fstate := .uncorrected, fCum := 0, acc := .fin ⟨0, 0⟩, cnt := 0, lastCmd := 0, mode := false } ∧
  State.reset.bb = {
    isOpen := false, kbch := 0, disc := false, fbuf := [], nbytes := 0, part := [], havePart := false, framesOk := 0,
    crcErr := 0, hdrErr := 0, malformed := 0, packetsOut := 0, eos := false } ∧
  State.reset.hif = { status := 0, obValid := false, obValue := 0 } ∧
  State.reset.cmdIn = [] ∧ State.reset.rspOut = [] ∧ State.reset.tsIn = [] ∧ State.reset.tsOut = [] ∧
  State.reset.fsIn = [] ∧ State.reset.fsOut = [] ∧ State.reset.bbIn = [] ∧ State.reset.bbOut = []

/-- R391, R163: RESET puts each selected unit's record to its reset column, recomputes TS's gains, discards the
selected units' unconsumed input, and changes nothing else: RW registers and output ports stay, no zero command is
sent. -/
def Obligations.ResetCommandResetsSelectedUnits : Prop :=
  ∀ (s : State) (ts fs bb hif : Bool), exec (.reset ts fs bb hif) s = .next { s with
    ts := if ts then { State.reset.ts with
        k1 := (gains s.params.numerics s.csr).1, k2 := (gains s.params.numerics s.csr).2 } else s.ts
    tsIn := if ts then [] else s.tsIn
    fs := if fs then State.reset.fs else s.fs
    fe := if fs then State.reset.fe else s.fe
    fsIn := if fs then [] else s.fsIn
    bb := if bb then State.reset.bb else s.bb
    bbIn := if bb then [] else s.bbIn
    hif := if hif then { status := 0, obValid := false, obValue := 0 } else s.hif }

/-- R160, R164: NOP changes nothing and CLRERR clears every bit of `HIF_STATUS` and nothing else. -/
def Obligations.NopAndClrerr : Prop :=
  ∀ s : State, exec .nop s = .next s ∧ exec .clrerr s = .next { s with hif := { s.hif with status := 0 } }

/-- R161: a CSRW of a legal value completes: the register reads back the value (the reserved bits of `FS_CTRL` as 0),
the gains follow where it is one of their inputs, and no other register or state changes. -/
def Obligations.CsrwOfALegalValue : Prop :=
  ∀ (s : State) (a : BitVec 8) (w : Word) (c : Csr), Csr.ofAddr a = some c → c.legal? w = some true →
    ∃ t, exec (.csrw a w) s = .next t ∧ OnlyCsr s t ∧
      readCsr t c = (if c = .fsCtrl then w &&& 0xF else w) ∧
      (∀ c', c' ≠ c → (c = .tsLoopBw ∨ c = .tsDamping ∨ c = .tsTedGain → c' ≠ .tsK1 ∧ c' ≠ .tsK2) →
        readCsr t c' = readCsr s c') ∧
      (t.ts.k1, t.ts.k2) = if c = .tsLoopBw ∨ c = .tsDamping ∨ c = .tsTedGain then gains s.params.numerics t.csr
        else (s.ts.k1, s.ts.k2)

/-- R34, R35, R162, R367: a CSRW to an RO or unmapped address raises `CSR_ADDR_ERR` and else changes nothing, whatever
the value; to an RW register it is legal or raises `CSR_VAL_ERR` and else changes nothing.  A CSRR of a mapped address
answers the register and changes nothing; of an unmapped one it answers 0 and raises `CSR_ADDR_ERR`. -/
def Obligations.CsrAccessErrors : Prop :=
  ∀ (s : State) (a : BitVec 8) (w : Word),
    (¬ rwAddress a → exec (.csrw a w) s = .next (WithError 2 s)) ∧
    (rwAddress a → ∃ c, Csr.ofAddr a = some c ∧
      (c.legal? w = some true ∨ (c.legal? w = some false ∧ exec (.csrw a w) s = .next (WithError 4 s)))) ∧
    (mappedAddress a → ∃ c, Csr.ofAddr a = some c ∧
      exec (.csrr a) s = .next { s with rspOut := s.rspOut ++ [readCsr s c] }) ∧
    (¬ mappedAddress a → exec (.csrr a) s = .next { WithError 2 s with rspOut := s.rspOut ++ [0] })

/-- The legal sets of rules R50 to R68: with no error pending, a CSRW leaves none exactly when the value is legal. -/
def Obligations.CsrwLegalSets : Prop :=
  ∀ (s : State) (w : Word), s.hif.status = 0 →
    let accepted := fun a : BitVec 8 => ∃ t, exec (.csrw a w) s = .next t ∧ t.hif.status = 0
    (accepted 0x10 ↔ ∃ q, f32 w = .fin q ∧ 1 < q ∧ q ≤ 256) ∧
    (accepted 0x11 ↔ ∃ q, f32 w = .fin q ∧ 0 ≤ q ∧ q ≤ 1 / 2) ∧
    (accepted 0x12 ↔ ∃ q, f32 w = .fin q ∧ 0 ≤ q ∧ q ≤ 100) ∧
    (accepted 0x13 ↔ ∃ q, f32 w = .fin q ∧ 0 < q ∧ q ≤ 1) ∧
    (accepted 0x14 ↔ w.toNat ≤ 255) ∧
    (accepted 0x15 ↔ 1 ≤ w.toNat ∧ w.toNat ≤ 4096) ∧
    (accepted 0x16 ↔ w = 1 ∨ w = 2 ∨ w = 3) ∧
    (accepted 0x17 ↔ ∃ q, f32 w = .fin q ∧ 0 < q ∧ q ≤ 1000000) ∧
    (accepted 0x20 ↔ w.toNat ≤ 262141) ∧
    (accepted 0x21 ↔ 1 ≤ w.toNat ∧ w.toNat ≤ 65535) ∧
    accepted 0x22 ∧ accepted 0x24 ∧ accepted 0x25 ∧ accepted 0x26 ∧ accepted 0x27 ∧
    (accepted 0x28 ↔ ∃ q, f32 w = .fin q ∧ 0 < q ∧ q ≤ 1) ∧
    (accepted 0x29 ↔ 2 ≤ w.toNat ∧ w.toNat ≤ 255) ∧
    (accepted 0x2A ↔ 1 ≤ w.toNat ∧ w.toNat ≤ 255) ∧
    (accepted 0x2B ↔ ∃ q, f32 w = .fin q ∧ 0 ≤ q ∧ q ≤ 1 / 2)

/-- R41, R42: the two identity registers read their constants in every state. -/
def Obligations.IdentityRegistersAreConstant : Prop :=
  ∀ s : State, Answers s 0x00 0x44533252 ∧ Answers s 0x01 0x00070000

/-- What every other register reads (R43 to R77): an RO register shows unit state, an RW register its own value. -/
def Obligations.CsrrShowsTheState : Prop :=
  ∀ s : State,
    Answers s 0x02 s.hif.status ∧ Answers s 0x03 (bits32 s.hif.obValue) ∧
    Answers s 0x04 (if s.hif.obValid then 1 else 0) ∧
    Answers s 0x10 s.csr.tsSps ∧ Answers s 0x11 s.csr.tsLoopBw ∧ Answers s 0x12 s.csr.tsDamping ∧
    Answers s 0x13 s.csr.tsRolloff ∧ Answers s 0x14 s.csr.tsRrcDelay ∧ Answers s 0x15 s.csr.tsNfilt ∧
    Answers s 0x16 s.csr.tsInterp ∧ Answers s 0x17 s.csr.tsTedGain ∧ Answers s 0x18 (bits32 s.ts.k1) ∧
    Answers s 0x19 (bits32 s.ts.k2) ∧ Answers s 0x1A s.ts.outCount ∧
    Answers s 0x20 s.csr.fsGold ∧ Answers s 0x21 s.csr.fsFreqPeriod ∧ Answers s 0x22 s.csr.fsCtrl ∧
    Answers s 0x24 s.csr.fsPlsFilter0 ∧ Answers s 0x25 s.csr.fsPlsFilter1 ∧ Answers s 0x26 s.csr.fsPlsFilter2 ∧
    Answers s 0x27 s.csr.fsPlsFilter3 ∧ Answers s 0x28 s.csr.fsSofThresh ∧ Answers s 0x29 s.csr.fsLockCount ∧
    Answers s 0x2A s.csr.fsUnlockCount ∧ Answers s 0x2B s.csr.fsFineThresh ∧
    (∃ w, Answers s 0x30 w ∧ w.getLsbD 0 = decide (s.fs.lock = .locked) ∧
      w.extractLsb' 1 2 = (match s.fe.fstate with | .uncorrected => 0 | .coarseCorrected => 1 | .fineTracking => 2) ∧
      w.extractLsb' 3 7 = s.fs.lastPls ∧ w.getLsbD 10 = s.fs.lastPlsValid ∧ w.extractLsb' 11 21 = 0) ∧
    Answers s 0x31 (bits32 s.fe.fCum) ∧ Answers s 0x32 s.fs.frameCount ∧ Answers s 0x33 (bits32 s.fe.lastCmd) ∧
    Answers s 0x40 s.bb.framesOk ∧ Answers s 0x41 s.bb.crcErr ∧ Answers s 0x42 s.bb.hdrErr ∧
    Answers s 0x43 s.bb.malformed ∧ Answers s 0x44 s.bb.packetsOut

/-- R43, R362, R367: what sets each bit of `HIF_STATUS`.  Nothing but CLRERR and a RESET of HIF clears one, and no other
instruction sets more than one. -/
def Obligations.ErrorBitsHaveTheirCauses : Prop :=
  ∀ (i : Instr) (s t : State), FsInv s.fs → exec i s = .next t →
    ((i ≠ .clrerr ∧ ∀ ts fs bb, i ≠ .reset ts fs bb true) →
      t.hif.status = s.hif.status ∨ ∃ e : Err, t.hif.status = s.hif.status ||| e.mask) ∧
    (NewBit 0 s t → (∃ c, i = .cmdReserved c) ∨ ∃ c d, i = .cmdMalformed c d) ∧
    (NewBit 1 s t → (∃ a w, i = .csrw a w ∧ ¬ rwAddress a) ∨ ∃ a, i = .csrr a ∧ ¬ mappedAddress a) ∧
    (NewBit 2 s t → ∃ a w c, i = .csrw a w ∧ Csr.ofAddr a = some c ∧ c.legal? w = some false) ∧
    (NewBit 3 s t → i = .tsReserved ∨ i = .fsReserved ∨ i = .bbReserved) ∧
    (NewBit 4 s t → (∃ re im, i = .fsSample re im) ∧ s.hif.obValid = true) ∧
    (NewBit 5 s t → i = .tsEos ∧ s.ts.held = none ∧ s.ts.tags ≠ []) ∧
    (NewBit 6 s t → (∃ b, i = .bbByte b) ∧ s.bb.isOpen = false) ∧
    ∀ b, 7 ≤ b → ¬ NewBit b s t

/-- R183 under the reference arithmetic, at a legal CSRW of one of the three gain inputs. -/
def Obligations.GainsFollowTheFormula : Prop :=
  ∀ (s : State) (a : BitVec 8) (w : Word) (c : Csr), s.params.numerics = .reference →
    Csr.ofAddr a = some c → c = .tsLoopBw ∨ c = .tsDamping ∨ c = .tsTedGain → c.legal? w = some true → CsrInv s →
    ∃ t B ζ Kp, exec (.csrw a w) s = .next t ∧
      f32 t.csr.tsLoopBw = .fin B ∧ f32 t.csr.tsDamping = .fin ζ ∧ f32 t.csr.tsTedGain = .fin Kp ∧
      let θ := B / (ζ + 1 / (4 * ζ))
      let d := 1 + 2 * ζ * θ + θ * θ
      if ζ = 0 ∨ B = 0 then t.ts.k1 = 0 ∧ t.ts.k2 = 0
      else t.ts.k1 = 4 * ζ * θ / (d * Kp) ∧ t.ts.k2 = 4 * (θ * θ) / (d * Kp)

/-- R392: `TS_K1` and `TS_K2` are the gains of the current gain inputs after reset, both 0 there, and after every step. -/
def Obligations.GainsFollowTheRegisters : Prop :=
  State.reset.ts.k1 = 0 ∧ State.reset.ts.k2 = 0 ∧ GainsInv State.reset ∧ ∀ s t : State, GainsInv s → step s = .next t → GainsInv t

/-! ### Reserved beats and the end of the streams -/

/-- R128, R204, R305, R328: a beat of the reserved KIND raises `BEAT_ERR` and changes no unit state.  After EOS it has
no effect (assumption log 11). -/
def Obligations.ReservedBeatsOnlyRaiseBeatErr : Prop :=
  ∀ s : State,
    exec .tsReserved s = .next (if s.ts.eos then s else WithError 8 s) ∧
    exec .fsReserved s = .next (if s.fs.eos then s else WithError 8 s) ∧
    exec .bbReserved s = .next (if s.bb.eos then s else WithError 8 s)

/-- R205, R306, R342: after EOS every beat is consumed and has no effect, until the unit is reset. -/
def Obligations.NothingHappensAfterEos : Prop :=
  (∀ (s : State) b q, s.tsIn = b :: q → s.ts.eos = true → turn .ts s = .next { s with tsIn := q }) ∧
  (∀ (s : State) b q, s.fsIn = b :: q → s.fs.eos = true → turn .fs s = .next { s with fsIn := q }) ∧
  (∀ (s : State) w q, s.bbIn = w :: q → s.bb.eos = true → turn .bb s = .next { s with bbIn := q }) ∧
  ∀ (i : Instr) (s t : State), exec i s = .next t →
    (s.ts.eos = true → t.ts.eos = true ∨ ∃ fs bb hif, i = .reset true fs bb hif) ∧
    (s.fs.eos = true → t.fs.eos = true ∨ ∃ ts bb hif, i = .reset ts true bb hif) ∧
    (s.bb.eos = true → t.bb.eos = true ∨ ∃ ts fs hif, i = .reset ts fs true hif)

/-! ### TS -/

/-- R190, R191, R195, R196, R198: one sample is taken, only SAMPLE and TAG beats are sent, each SAMPLE is counted, and
the tags sent and the tags kept are the tags there were, in order and with their payloads. -/
def Obligations.TsSampleCompletes : Prop :=
  ∀ (s : State) (re im : Word), CsrInv s → TsInv s.params.tagW s.ts → s.ts.eos = false →
    ∃ t new, exec (.tsSample re im) s = .next t ∧ OnlyTs s t ∧
      t.ts.x = f32Sample re im :: s.ts.x ∧ t.ts.nIn = s.ts.nIn + 1 ∧
      t.ts.k1 = s.ts.k1 ∧ t.ts.k2 = s.ts.k2 ∧ t.ts.eos = false ∧
      t.tsOut = s.tsOut ++ new ∧ (∀ b ∈ new, sKind b = 0 ∨ sKind b = 1) ∧
      t.ts.outCount = s.ts.outCount + BitVec.ofNat 32 (sampleCount new) ∧
      tagPayloads new ++ t.ts.tags.map Tag.payload = s.ts.tags.map Tag.payload

/-- R187, R190: the loop of a sample ends only when the next interpolant is not available, and then no interpolant that
could be released is held (the bound of assumption log 13 is never reached). -/
def Obligations.TsLoopRunsToTheEnd : Prop :=
  ∀ (s t : State) (re im : Word), CsrInv s → TsInv s.params.tagW s.ts → s.ts.eos = false →
    exec (.tsSample re im) s = .next t →
    available (tsCfg s) t.ts (nextTime (tsCfg s) t.ts) = false ∧
    ∀ hd, t.ts.held = some hd → t.ts.nIn ≤ floorNat (midTime (tsCfg s) t.ts.v hd.t)

/-- R199 under the reference arithmetic: `release_held()`. -/
def Obligations.HeldInterpolantIsReleased : Prop :=
  ∀ (c : TsCfg) (r : TsRun), c.ctx.numerics = .reference →
    (r.ts.held = none → releaseHeld c r = r) ∧
    ∀ (hd : Held) (y : CQ), r.ts.held = some hd → hd.y = .fin y →
      let m := hd.t + c.sps / 2 * (1 + r.ts.v)
      (r.ts.nIn ≤ floorNat m → releaseHeld c r = r) ∧
      (floorNat m < r.ts.nIn → releaseHeld c r =
        { ts := { r.ts with
            tags := r.ts.tags.filter fun g => decide (m < (g.index : Rat))
            outCount := r.ts.outCount + 1
            held := none }
          out := r.out ++ (r.ts.tags.filter fun g => decide ((g.index : Rat) ≤ m)).map (fun g => tagBeat g.payload) ++
            [sampleBeat (bits32 y.re) (bits32 y.im)] })

/-- R193: a tag is recorded with the index of the next sample and its low `TAG_W` bits; after EOS it has no effect. -/
def Obligations.TsTagIsRecorded : Prop :=
  ∀ (s : State) (b : Beat), sKind b = 1 → s.params.tagW ≤ 64 →
    ∃ p, decodeTsIn b = .tsTag p ∧ exec (.tsTag p) s = .next (if s.ts.eos then s else
      { s with ts := { s.ts with
        tags := s.ts.tags ++ [⟨s.ts.nIn, BitVec.ofNat 64 (b.toNat % 2 ^ s.params.tagW)⟩] } })

/-- R197, R200, R203: at the end of the stream the held interpolant carries every pending tag; with none held they are
dropped and `TS_TAG_DROP` raised; then EOS is sent. -/
def Obligations.TsEosFlushesTheStream : Prop :=
  ∀ s : State, s.ts.eos = false →
    ∃ t, exec .tsEos s = .next t ∧
      (∀ hd, s.ts.held = some hd → ∃ re im, (∀ z, hd.y = .fin z → re = bits32 z.re ∧ im = bits32 z.im) ∧
        t = { s with
          ts := { s.ts with tags := [], held := none, outCount := s.ts.outCount + 1, eos := true }
          tsOut := s.tsOut ++ (s.ts.tags.map (fun g => tagBeat g.payload) ++ [sampleBeat re im, eosBeat])
          tick := t.tick }) ∧
      (s.ts.held = none → t = { (if s.ts.tags = [] then s else WithError 0x20 s) with
        ts := { s.ts with tags := [], eos := true }
        tsOut := s.tsOut ++ [eosBeat]
        tick := t.tick })

/-- R186: at a whole time every interpolator gives the sample itself (reference arithmetic, finite samples). -/
def Obligations.InterpolantAtASampleIsTheSample : Prop :=
  ∀ (c : TsCfg) (ts : TsState) (k : Nat), c.ctx.numerics = .reference → 1 ≤ c.interp → c.interp ≤ 3 →
    (∀ z ∈ ts.x, z ≠ .nonFinite) → interpolate c ts (k : Rat) = ts.sample k

/-- R184, R201: with zero gains and a whole number `p` of samples per symbol, TS stays a fixed downsampler: `v` and `I`
stay 0, the outputs after the first `n` are `x[(n+1)·p]`, `x[(n+2)·p]`, …, each a sample received, and the latest ON
interpolant lies one symbol period and the interpolator's support behind the newest sample: one output per `p`. -/
def Obligations.ZeroGainsDownsample : Prop :=
  ∀ (p : Nat) (s t : State) (re im : Word), 2 ≤ p → CsrInv s → TsInv s.params.tagW s.ts → Downsampler p s →
    f32Sample re im ≠ .nonFinite → s.ts.eos = false → exec (.tsSample re im) s = .next t →
    let n := outputsSent p s.ts
    let n' := outputsSent p t.ts
    Downsampler p t ∧ n ≤ n' ∧ n' * p < t.ts.nIn ∧
    (∃ new, t.tsOut = s.tsOut ++ new ∧
      (new.filter fun b => sKind b == 0) = (List.range (n' - n)).map fun j =>
        let z := (t.ts.sample ((n + 1 + j) * p : Nat)).val
        sampleBeat (bits32 z.re) (bits32 z.im)) ∧
    t.ts.kOn < t.ts.nIn ∧ t.ts.nIn < t.ts.kOn + p + (if s.csr.tsInterp = 1 then 2 else 3)

/-! ### FS -/

/-- R280, R290, R293, R294, R303: one symbol is taken; FS sends nothing, or the payload symbol of a frame started with
`emit` at its payload offset, or the tag of a frame that starts, which is counted; and in UNLOCKED it sends nothing. -/
def Obligations.FsSampleCompletes : Prop :=
  ∀ (s : State) (re im : Word), FsInv s.fs → s.fs.eos = false →
    ∃ t new, exec (.fsSample re im) s = .next t ∧ OnlyFs s t ∧
      t.fs.r = f32Sample re im :: s.fs.r ∧ t.fs.nIn = s.fs.nIn + 1 ∧ t.fs.eos = false ∧
      (t.hif = s.hif ∨ ∃ c, t.hif = outboxWrite c s.hif) ∧
      t.fsOut = s.fsOut ++ new ∧ (t.fs.lock = .unlocked → new = []) ∧
      ((new = [] ∧ t.fs.frameCount = s.fs.frameCount) ∨
       (∃ f m yr yi, s.fs.frm = some f ∧ f.emit = true ∧ m < f.geom.xfec ∧ s.fs.nIn = f.h + payloadOffset f.geom m ∧
         new = [sampleBeat yr yi] ∧ t.fs.frameCount = s.fs.frameCount) ∨
       (∃ f, t.fs.frm = some f ∧ f.emit = true ∧ f.hit = true ∧ f.h + 90 = t.fs.nIn ∧ modcodOf f.pls ≠ 0 ∧
         new = [frameTagBeat (modcodOf f.pls) (shortOf f.pls)] ∧ t.fs.frameCount = s.fs.frameCount + 1))

/-- R293, R301 under the reference arithmetic: the payload symbol sent is the received one times `j^(−R)`. -/
def Obligations.PayloadSymbolsAreDescrambled : Prop :=
  ∀ (s : State) (re im : Word) (f : Frame) (m : Nat) (z : CQ), FsInv s.fs → s.fs.eos = false →
    s.params.numerics = .reference → s.fs.frm = some f → f.emit = true → m < f.geom.xfec →
    s.fs.nIn = f.h + payloadOffset f.geom m → f32Sample re im = .fin z →
    ∃ t w, exec (.fsSample re im) s = .next t ∧ t.fsOut = s.fsOut ++ [sampleBeat (bits32 w.re) (bits32 w.im)] ∧
      w = match scrambleR f.gold (payloadOffset f.geom m - 90) with
        | 0 => z
        | 1 => ⟨z.im, -z.re⟩
        | 2 => ⟨-z.re, -z.im⟩
        | 3 => ⟨-z.im, z.re⟩

/-- R295, R296, R306: an input tag has no effect; EOS sends one EOS beat and ends the stream; after it no beat has an
effect. -/
def Obligations.FsTagAndEos : Prop :=
  ∀ (s : State) (p : TagPayload), exec (.fsTag p) s = .next s ∧
    (s.fs.eos = false →
      exec .fsEos s = .next { s with fs := { s.fs with eos := true }, fsOut := s.fsOut ++ [eosBeat] }) ∧
    (s.fs.eos = true → exec .fsEos s = .next s ∧ exec .fsReserved s = .next s ∧
      ∀ re im, exec (.fsSample re im) s = .next s)

/-- R275: the geometry of every valid PLS, and the example of V-S0-2. -/
def Obligations.FrameGeometry : Prop :=
  plInfo 5 = { slots := 360, pilotBlocks := 22, xfec := 32400, len := 33282 } ∧
  ∀ p : Pls, p.toNat / 4 ≤ 28 →
    let m := p.toNat / 4
    let S := if m = 0 then 36 else
      (if m ≤ 11 then 360 else if m ≤ 17 then 240 else if m ≤ 23 then 180 else 144) / (if p.getLsbD 1 then 4 else 1)
    let P := if m = 0 ∨ p.getLsbD 0 = false then 0 else (S - 1) / 16
    plInfo p = { slots := S, pilotBlocks := P, xfec := 90 * S, len := 90 * (S + 1) + 36 * P }

/-- R291, R292: the offsets of a PLFRAME past its header are its payload offsets and, apart from them, its pilot
blocks'. -/
def Obligations.PayloadAndPilotsPartitionTheFrame : Prop :=
  ∀ (p : Pls) (k : Nat), invalidPls p = false →
    let g := plInfo p
    let off := fun m : Nat => 90 + m + 36 * (m / 90 / 16) * (if 0 < g.pilotBlocks then 1 else 0)
    (∀ m, payloadIndex g k = some m ↔ m < 90 * g.slots ∧ k = off m) ∧
    (90 ≤ k ∧ k < g.len ↔ (∃ m, m < 90 * g.slots ∧ k = off m) ∨
      ∃ b, 1 ≤ b ∧ b ≤ g.pilotBlocks ∧ 90 + 1440 * b + 36 * (b - 1) ≤ k ∧ k < 90 + 1440 * b + 36 * (b - 1) + 36) ∧
    ¬ ((∃ m, m < 90 * g.slots ∧ k = off m) ∧
      ∃ b, 1 ≤ b ∧ b ≤ g.pilotBlocks ∧ 90 + 1440 * b + 36 * (b - 1) ≤ k ∧ k < 90 + 1440 * b + 36 * (b - 1) + 36)

/-- R300: the two m-sequences obey their recurrences from their starting bits, and `R_n` is formed from them. -/
def Obligations.ScramblingSequencesObeyTheirRecurrences : Prop :=
  xSeq 0 = true ∧ (∀ i, 1 ≤ i → i ≤ 17 → xSeq i = false) ∧ (∀ i, i ≤ 17 → ySeq i = true) ∧
  (∀ i, i + 18 < 2 ^ 18 →
    xSeq (i + 18) = (xSeq (i + 7) ^^ xSeq i) ∧
    ySeq (i + 18) = (ySeq (i + 10) ^^ ySeq (i + 7) ^^ ySeq (i + 5) ^^ ySeq i)) ∧
  ∀ n i, i < 2 ^ 18 - 1 →
    let z := fun j => xSeq ((j + n) % (2 ^ 18 - 1)) ^^ ySeq j
    (scrambleR n i).val = 2 * (z ((i + 131072) % (2 ^ 18 - 1))).toNat + (z i).toNat

/-- R263 to R273 under the reference arithmetic: on the noise-free header of any PLS value the SOF metric is 1 and the
PLSC decision gives that value. -/
def Obligations.CleanHeaderDecodesToItsPls : Prop :=
  ∀ (v : Pls) (k : Nat), let w := (List.range 90).map (headerSymbol v)
    sofLambda w = 1 ∧ decodePls ⟨.reference, k⟩ (w.map Cx.fin) = v

/-- R269, R274, R279: search.  At a window that is a candidate with a valid PLS, FS records the hit and expects the
next header a frame's length on; otherwise FS's state but for the symbol is unchanged. -/
def Obligations.SearchFindsAHeader : Prop :=
  ∀ (s : State) (re im : Word), FsInv s.fs → s.fs.eos = false → s.fs.nextHdr = none →
    let fs := s.fs.push (f32Sample re im)
    let w := s.fs.nIn - 89
    let c := s.ctx
    let T : Sys2Proof.Num := .fin (f32Val s.csr.fsSofThresh)
    let found := 89 ≤ s.fs.nIn ∧ s.fs.searchFrom ≤ w ∧ (sofMetric c fs w).gt T = true ∧
      (sofMetric c fs w).gt (if w = 0 then .fin 0 else sofMetric c fs (w - 1)) = true ∧
      (sofMetric c fs w).ge (sofMetric c fs (w + 1)) = true ∧
      (modcodOf (decodePls c (fs.window w 90))).toNat ≤ 28
    let p := decodePls c (fs.window w 90)
    ∃ t, exec (.fsSample re im) s = .next t ∧ t.fsOut = s.fsOut ∧
      (found → t.fs = { fs with
        hits := 1, lastPls := p, lastPlsValid := true, nextHdr := some (w + (plInfo p).len) }) ∧
      (¬ found → t.fs = fs)

/-- R262, R276, R281 to R287: the evaluation of an expected header, as far as FS's own state and the tag go (FE's part is
`FeMeasuresAndCorrects`). -/
def Obligations.HeaderEvaluation : Prop :=
  ∀ (s : State) (re im : Word) (h : Nat), FsInv s.fs → s.fs.eos = false → s.fs.nextHdr = some h →
    s.fs.nIn = h + 89 →
    let fs := s.fs.push (f32Sample re im)
    let c : FsCfg := ⟨s.ctx, s.csr⟩
    let hit := (sofMetric s.ctx fs h).gt (.fin (f32Val s.csr.fsSofThresh))
    let p := expectedPls c (latchOf s.csr) fs h
    let acm := s.csr.fsCtrl.getLsbD 1
    let filter := s.csr.fsPlsFilter3 ++ s.csr.fsPlsFilter2 ++ s.csr.fsPlsFilter1 ++ s.csr.fsPlsFilter0
    let emit := filter.getLsbD p.toNat && decide (modcodOf p ≠ 0)
    let lost := { fs with
      lock := .unlocked, hits := 0, misses := 0, ccmPls := none, nextHdr := none, searchFrom := h + 1, frm := none }
    let tag := if emit then [frameTagBeat (modcodOf p) (shortOf p)] else []
    let next := some (h + (plInfo p).len)
    (s.fs.lock = .unlocked ∨ acm = true → p = decodePls s.ctx (fs.window h 90)) ∧
    (s.fs.lock = .locked → acm = false → ∀ q, s.fs.ccmPls = some q → p = q) ∧
    ∃ t, exec (.fsSample re im) s = .next t ∧
      if 29 ≤ (modcodOf p).toNat then t.fs = lost ∧ t.fsOut = s.fsOut
      else match s.fs.lock, hit with
        | .unlocked, true =>
          let rec1 := { fs with hits := s.fs.hits + 1, lastPls := p, lastPlsValid := true, nextHdr := next }
          if s.csr.fsLockCount.toNat ≤ s.fs.hits + 1 then
            t.fs = { rec1 with
              lock := .locked
              misses := 0
              ccmPls := if acm then s.fs.ccmPls else some p
              frm := some ⟨h, p, emit, s.csr.fsGold.toNat, true, plInfo p⟩
              frameCount := s.fs.frameCount + BitVec.ofNat 32 tag.length } ∧ t.fsOut = s.fsOut ++ tag
          else t.fs = rec1 ∧ t.fsOut = s.fsOut
        | .unlocked, false => t.fs = lost ∧ t.fsOut = s.fsOut
        | .locked, true =>
          t.fs = { fs with
            misses := 0
            lastPls := p
            frm := some ⟨h, p, emit, s.csr.fsGold.toNat, true, plInfo p⟩
            frameCount := s.fs.frameCount + BitVec.ofNat 32 tag.length
            nextHdr := next } ∧ t.fsOut = s.fsOut ++ tag
        | .locked, false =>
          t.fsOut = s.fsOut ∧
          if s.csr.fsUnlockCount.toNat ≤ s.fs.misses + 1 then t.fs = lost
          else t.fs = { fs with
            misses := s.fs.misses + 1
            frm := some ⟨h, p, false, s.csr.fsGold.toNat, false, plInfo p⟩
            nextHdr := next }

/-- R282, R283, R285, R287: the only ways into and out of LOCKED, over all instructions. -/
def Obligations.LockChangesOnlyAtHeaders : Prop :=
  ∀ (i : Instr) (s t : State), CsrInv s → FsInv s.fs → exec i s = .next t →
    (s.fs.lock = .unlocked → t.fs.lock = .locked → ∃ re im h, i = .fsSample re im ∧ s.fs.nextHdr = some h ∧
      s.fs.nIn = h + 89 ∧ s.csr.fsLockCount.toNat ≤ s.fs.hits + 1 ∧ t.fs.hits = s.fs.hits + 1 ∧ 2 ≤ t.fs.hits ∧
      isHit s.ctx (f32Val s.csr.fsSofThresh) (s.fs.push (f32Sample re im)) h = true) ∧
    (s.fs.lock = .locked → t.fs.lock = .unlocked → (∃ ts bb hif, i = .reset ts true bb hif) ∨
      ∃ re im h, i = .fsSample re im ∧ s.fs.nextHdr = some h ∧ s.fs.nIn = h + 89 ∧
        t.fs.frm = none ∧ t.fs.searchFrom = h + 1 ∧
        t.fe.fstate = .uncorrected ∧ t.fe.fCum = 0 ∧ t.fe.cnt = 0 ∧
        (invalidPls (expectedPls ⟨s.ctx, s.csr⟩ (latchOf s.csr) (s.fs.push (f32Sample re im)) h) = true ∨
          (isHit s.ctx (f32Val s.csr.fsSofThresh) (s.fs.push (f32Sample re im)) h = false ∧
            s.csr.fsUnlockCount.toNat ≤ s.fs.misses + 1)))

/-! ### FE and the outbox -/

/-- R235, R236: FE never skips COARSE_CORRECTED, enters FINE_TRACKING from it only, in an FS.SAMPLE with a positive
`FS_FINE_THRESH`, and leaves FINE_TRACKING for COARSE_CORRECTED only where the mode changes. -/
def Obligations.FeStateTransitions : Prop :=
  ∀ (i : Instr) (s t : State), FsInv s.fs → exec i s = .next t →
    (s.fe.fstate = .uncorrected → t.fe.fstate ≠ .fineTracking) ∧
    (s.fe.fstate ≠ .fineTracking → t.fe.fstate = .fineTracking →
      s.fe.fstate = .coarseCorrected ∧ (∃ re im, i = .fsSample re im) ∧ 0 < f32Val s.csr.fsFineThresh) ∧
    (s.fe.fstate = .fineTracking → t.fe.fstate = .coarseCorrected → t.fe.mode ≠ s.fe.mode)

/-- R238: in closed loop every update of the estimate is commanded through the outbox; in open loop none is. -/
def Obligations.ClosedLoopUpdatesAreCommanded : Prop :=
  ∀ (s t : State) (re im : Word), FsInv s.fs → FeInv s.params.numerics s.fe → exec (.fsSample re im) s = .next t →
    (t.fe.mode = true → t.fe.fstate ≠ .uncorrected → t.fe.fCum ≠ s.fe.fCum →
      t.hif.obValid = true ∧ t.hif.obValue = t.fe.lastCmd ∧
      t.fe.lastCmd = commandValue ⟨s.params.numerics, 0⟩ t.fe.fCum) ∧
    (s.fe.mode = false → t.fe.mode = false → t.hif = s.hif)

/-- R99, R245, R368: the rotator's consumption delivers the value and keeps it in `ob_value`; nothing else empties the
outbox but a RESET of HIF; and only FS.SAMPLE or a RESET of HIF changes the value. -/
def Obligations.OutboxIsEmptiedByTheRotator : Prop :=
  (∀ s : State, s.hif.obValid = true → exec (.outRotMsg (bits32 s.hif.obValue)) s =
    .next { s with hif := { s.hif with obValid := false }, rotOut := s.rotOut ++ [bits32 s.hif.obValue] }) ∧
  (∀ (h : HifState) (c : Rat), outboxWrite c h =
    { status := if h.obValid then h.status ||| 16 else h.status, obValid := true, obValue := c }) ∧
  ∀ (i : Instr) (s t : State), exec i s = .next t →
    (s.hif.obValid = true → t.hif.obValid = false →
      i = .outRotMsg (bits32 s.hif.obValue) ∨ ∃ ts fs bb, i = .reset ts fs bb true) ∧
    (s.hif.obValid = false → t.hif.obValid = true → ∃ re im, i = .fsSample re im) ∧
    (t.hif.obValue ≠ s.hif.obValue → (∃ re im, i = .fsSample re im) ∨ ∃ ts fs bb, i = .reset ts fs bb true)

/-! ### BB -/

/-- R324: the check values, and a message followed by its own CRC leaves the register at zero. -/
def Obligations.CrcCheckValues : Prop :=
  crc8 [0x31, 0x32, 0x33, 0x34, 0x35, 0x36, 0x37, 0x38, 0x39] = 0xBC ∧ crc8 (List.replicate 9 0) = 0 ∧
  crc8 [0x01] = 0xD5 ∧ crc8 [0x80] = 0xEF ∧ ∀ l : List Byte, crc8 (l ++ [crc8 l]) = 0

/-- R325, R327, R332, R333: FRAME_START and EOS.  A frame they cut short is malformed and drops the partial packet. -/
def Obligations.FramingBeats : Prop :=
  ∀ (s : State) (k : BitVec 16) (d : Bool), s.bb.eos = false →
    let cut := if s.bb.isOpen then { s.bb with
        isOpen := false, fbuf := [], nbytes := 0, malformed := s.bb.malformed + 1, part := [], havePart := false }
      else s.bb
    exec (.bbStart k d) s = .next { s with bb :=
      if k.toNat % 8 = 0 ∧ 80 ≤ k.toNat ∧ k.toNat ≤ 65528 then
        { cut with isOpen := true, kbch := k.toNat, disc := d, fbuf := [], nbytes := 0 }
      else { cut with malformed := cut.malformed + 1, part := [], havePart := false } } ∧
    exec .bbEos s = .next { s with
      bb := { cut with part := [], havePart := false, eos := true }
      bbOut := s.bbOut ++ [0x80000000] }

/-- R326, R331: a byte outside a frame is stray; a byte that does not end its frame is only collected. -/
def Obligations.BytesAreCollectedOrStray : Prop :=
  ∀ (s : State) (x : Byte), s.bb.eos = false →
    (s.bb.isOpen = false → exec (.bbByte x) s = .next (WithError 0x40 s)) ∧
    (s.bb.isOpen = true → s.bb.nbytes + 1 ≠ s.bb.kbch / 8 → exec (.bbByte x) s =
      .next { s with bb := { s.bb with fbuf := s.bb.fbuf ++ [x], nbytes := s.bb.nbytes + 1 } })

/-- R334 to R337: the last byte of a frame whose CRC, DFL or SYNCD is wrong closes the frame, counts it in one counter,
drops the partial packet and sends nothing. -/
def Obligations.BadFramesAreDiscarded : Prop :=
  ∀ (s : State) (x : Byte), s.bb.eos = false → s.bb.isOpen = true → s.bb.nbytes + 1 = s.bb.kbch / 8 →
    let F := s.bb.fbuf ++ [x]
    let DFL := 256 * (F.getD 4 0).toNat + (F.getD 5 0).toNat
    let SYNCD := 256 * (F.getD 7 0).toNat + (F.getD 8 0).toNat
    let closed := { s.bb with
      isOpen := false, fbuf := F, nbytes := s.bb.nbytes + 1, part := [], havePart := false }
    (crc8 (F.take 9) ≠ F.getD 9 0 → exec (.bbByte x) s =
      .next { s with bb := { closed with crcErr := s.bb.crcErr + 1 } }) ∧
    (crc8 (F.take 9) = F.getD 9 0 →
      s.bb.kbch < DFL + 80 ∨ DFL % 8 ≠ 0 ∨ DFL < SYNCD ∨ SYNCD % 8 ≠ 0 → exec (.bbByte x) s =
      .next { s with bb := { closed with hdrErr := s.bb.hdrErr + 1 } })

/-- R330, R339 to R343: the last byte of a valid frame sends the packet that the partial one and the first `SYNCD/8`
bytes complete, then every whole packet of the DATAFIELD in order, and keeps the rest as the partial packet. -/
def Obligations.ValidFramesSendTheirPackets : Prop :=
  ∀ (s : State) (x : Byte), s.bb.eos = false → s.bb.isOpen = true → s.bb.nbytes + 1 = s.bb.kbch / 8 →
    let F := s.bb.fbuf ++ [x]
    let DFL := 256 * (F.getD 4 0).toNat + (F.getD 5 0).toNat
    let SYNCD := 256 * (F.getD 7 0).toNat + (F.getD 8 0).toNat
    let D := (F.drop 10).take (DFL / 8)
    let n := (D.length - SYNCD / 8) / 188
    let rest := D.drop (SYNCD / 8 + 188 * n)
    let joined := if s.bb.disc = false ∧ s.bb.havePart = true ∧ s.bb.part.length + SYNCD / 8 = 188
      then [s.bb.part ++ D.take (SYNCD / 8)] else []
    let ups := joined ++ (List.range n).map fun j => (D.drop (SYNCD / 8 + 188 * j)).take 188
    crc8 (F.take 9) = F.getD 9 0 → DFL + 80 ≤ s.bb.kbch → DFL % 8 = 0 → SYNCD ≤ DFL → SYNCD % 8 = 0 →
    exec (.bbByte x) s = .next { s with
      bb := { s.bb with
        isOpen := false
        fbuf := F
        nbytes := s.bb.nbytes + 1
        framesOk := s.bb.framesOk + 1
        packetsOut := s.bb.packetsOut + BitVec.ofNat 32 ups.length
        part := rest
        havePart := decide (rest ≠ []) }
      bbOut := s.bbOut ++ ups.flatMap packetWords }

/-- R344: BB sends only whole 188-byte packets, each starting with 0x47 and SOP, and counts them. -/
def Obligations.OnlyWholePacketsAreSent : Prop :=
  ∀ (i : Instr) (s t : State), BbInv s.bb → exec i s = .next t →
    (∀ b sop, i ≠ .outBbByte b sop) → i ≠ .outBbEos →
    ∃ ups : List (List Byte), (∀ u ∈ ups, u.length = 188) ∧
      (t.bbOut = s.bbOut ++ ups.flatMap packetWords ∨
        (i = .bbEos ∧ ups = [] ∧ t.bbOut = s.bbOut ++ [0x80000000])) ∧
      ((∀ ts fs hif, i ≠ .reset ts fs true hif) → t.bb.packetsOut = s.bb.packetsOut + BitVec.ofNat 32 ups.length)

/-- R345, R373: what a BYTE beat sends and leaves depends on the frame being received and on the partial packet only:
not on the counters, the other units, the CSRs or the arithmetic; and with DISC not on the partial packet either, once
the frame is complete. -/
def Obligations.FramesAreIndependent : Prop :=
  ∀ (s s' t t' : State) (x : Byte),
    s.bb.isOpen = s'.bb.isOpen → s.bb.kbch = s'.bb.kbch → s.bb.disc = s'.bb.disc → s.bb.fbuf = s'.bb.fbuf →
    s.bb.nbytes = s'.bb.nbytes → s.bb.eos = s'.bb.eos →
    ((s.bb.part = s'.bb.part ∧ s.bb.havePart = s'.bb.havePart) ∨
      (s.bb.isOpen = true ∧ s.bb.eos = false ∧ s.bb.disc = true ∧ s.bb.nbytes + 1 = s.bb.kbch / 8)) →
    exec (.bbByte x) s = .next t → exec (.bbByte x) s' = .next t' →
    (∃ new, t.bbOut = s.bbOut ++ new ∧ t'.bbOut = s'.bbOut ++ new) ∧
    t.bb.part = t'.bb.part ∧ t.bb.havePart = t'.bb.havePart ∧ t.bb.isOpen = t'.bb.isOpen ∧ t.bb.fbuf = t'.bb.fbuf

/-! ### The output side -/

/-- The host takes the beat it names from the head of its port; where that does not stand there nothing happens
(assumption log 5). -/
def Obligations.HostTakesFromTheHead : Prop :=
  (∀ (s : State) v q, s.rspOut = v :: q → exec (.outRsp v) s = .next { s with rspOut := q }) ∧
  (∀ (s : State) re im q, s.tsOut = sampleBeat re im :: q →
    exec (.outTsSample re im) s = .next { s with tsOut := q }) ∧
  (∀ (s : State) p q, s.tsOut = tagBeat p :: q → exec (.outTsTag p) s = .next { s with tsOut := q }) ∧
  (∀ (s : State) re im q, s.fsOut = sampleBeat re im :: q →
    exec (.outFsSample re im) s = .next { s with fsOut := q }) ∧
  (∀ (s : State) m sh q, s.fsOut = frameTagBeat m sh :: q →
    exec (.outFsTag m sh) s = .next { s with fsOut := q }) ∧
  (∀ (s : State) q, s.tsOut = eosBeat :: q → exec (.outEos .ts) s = .next { s with tsOut := q }) ∧
  (∀ (s : State) q, s.fsOut = eosBeat :: q → exec (.outEos .fs) s = .next { s with fsOut := q }) ∧
  (∀ (s : State) b sop q, s.bbOut = outByteBeat b sop :: q →
    exec (.outBbByte b sop) s = .next { s with bbOut := q }) ∧
  (∀ (s : State) q, s.bbOut = bbEosBeat :: q → exec .outBbEos s = .next { s with bbOut := q }) ∧
  ∀ s : State,
    (∀ v, s.rspOut.head? ≠ some v → exec (.outRsp v) s = .next s) ∧
    (∀ re im, s.tsOut.head? ≠ some (sampleBeat re im) → exec (.outTsSample re im) s = .next s) ∧
    (∀ p, s.tsOut.head? ≠ some (tagBeat p) → exec (.outTsTag p) s = .next s) ∧
    (∀ re im, s.fsOut.head? ≠ some (sampleBeat re im) → exec (.outFsSample re im) s = .next s) ∧
    (∀ m sh, s.fsOut.head? ≠ some (frameTagBeat m sh) → exec (.outFsTag m sh) s = .next s) ∧
    (s.tsOut.head? ≠ some eosBeat → exec (.outEos .ts) s = .next s) ∧
    (s.fsOut.head? ≠ some eosBeat → exec (.outEos .fs) s = .next s) ∧
    (∀ b sop, s.bbOut.head? ≠ some (outByteBeat b sop) → exec (.outBbByte b sop) s = .next s) ∧
    (s.bbOut.head? ≠ some bbEosBeat → exec .outBbEos s = .next s) ∧
    (∀ v, s.hif.obValid = false ∨ bits32 s.hif.obValue ≠ v → exec (.outRotMsg v) s = .next s)

/-! ### Invariants -/

/-- The state right after reset meets every invariant of Safety.lean. -/
def Obligations.ResetMeetsTheInvariants : Prop := CoreInv State.reset

/-- R35: every step leaves every RW register with a legal value. -/
def Obligations.CsrsStayLegal : Prop :=
  ∀ s t : State, CsrInv s → step s = .next t → CsrInv t

/-- R78, R202: every step keeps TS's ranges, whatever the samples and under every arithmetic. -/
def Obligations.TsInvariantIsKept : Prop :=
  ∀ s t : State, CsrInv s → TsInv s.params.tagW s.ts → step s = .next t → TsInv t.params.tagW t.ts

/-- R279 to R293, R298: every step keeps FS's invariant. -/
def Obligations.FsInvariantIsKept : Prop :=
  ∀ s t : State, CsrInv s → FsInv s.fs → step s = .next t → FsInv t.fs

/-- R225, R237, R238, R241: every step keeps FE's invariant. -/
def Obligations.FeInvariantIsKept : Prop :=
  ∀ s t : State, CsrInv s → FsInv s.fs → FeInv s.params.numerics s.fe → step s = .next t →
    FeInv t.params.numerics t.fe

/-- R326, R333, R341: every step keeps BB's invariant. -/
def Obligations.BbInvariantIsKept : Prop :=
  ∀ s t : State, BbInv s.bb → step s = .next t → BbInv t.bb

/-- R360: from a state of the invariants every step answers a next state, which meets them again: the core never stops,
and no beat reaches an output port that no rule sends there. -/
def Obligations.CoreNeverStops : Prop :=
  ∀ s : State, CoreInv s → ∃ t, step s = .next t ∧ CoreInv t

/-! ### TS's loop and FE's part of the step -/

/-- R184 to R190 under the reference arithmetic: TS.SAMPLE runs the loop of R190 on the new sample, and each turn of the
loop releases, then stops at an interpolant whose support is not in, or takes the interpolant.  An ON interpolant after
another updates `I` and `v` from the Gardner error, also where the gains are 0 because the bandwidth is (R183); the
first one, and one with damping 0, leaves both (R184, assumption log 22). -/
def Obligations.TsLoopFollowsTheErrors : Prop :=
  (∀ (s : State) (re im : Word), s.ts.eos = false → exec (.tsSample re im) s = .next (withTsRun
    (tsLoop ⟨s.ctx, f32Val s.csr.tsSps, s.csr.tsInterp.toNat, f32Val s.csr.tsDamping⟩ (4 * (s.ts.nIn + 1) + 4)
      { ts := s.ts.push (f32Sample re im), out := [] }) s)) ∧
  (∀ (c : TsCfg) (ts : TsState) (time : Rat), c.ctx.numerics = .reference → (∀ z ∈ ts.x, z ≠ .nonFinite) →
    let k := floorNat time
    let μ := time - (k : Rat)
    ∃ z, interpolate c ts time = .fin z ∧ ∀ part : CQ → Rat, part = CQ.re ∨ part = CQ.im →
      let x := fun i : Int => part (ts.sample (k + i)).val
      (c.interp = 1 → part z = (1 - μ) * x 0 + μ * x 1) ∧
      (c.interp = 2 → part z =
        ((x 2 / 2 - x 1 / 2 - x 0 / 2 + x (-1) / 2) * μ + (-(x 2) / 2 + 3 / 2 * x 1 - x 0 / 2 - x (-1) / 2)) * μ + x 0) ∧
      (c.interp = 3 → part z =
        -(μ * (μ - 1) * (μ - 2) / 6) * x (-1) + (μ + 1) * (μ - 1) * (μ - 2) / 2 * x 0 -
          (μ + 1) * μ * (μ - 2) / 2 * x 1 + (μ + 1) * μ * (μ - 1) / 6 * x 2)) ∧
  ∀ (c : TsCfg) (n : Nat) (r : TsRun), c.ctx.numerics = .reference →
    let q := releaseHeld c r
    let last := (q.ts.kOn : Rat) + q.ts.muOn
    let time := match q.ts.ph with
      | .mid => last + c.sps / 2 * (1 + q.ts.v)
      | .on => last + c.sps * (1 + q.ts.v)
    let y := interpolate c q.ts time
    let isIn := floorNat time + (if c.interp = 1 then 2 else 3) ≤ q.ts.nIn
    let onTaken := fun v i : Rat => tsLoop c (n + 1) r = tsLoop c n { q with ts := { q.ts with
      v := v
      integ := i
      yPrev := some y
      tPrev := some time
      kOn := floorNat time
      muOn := time - (floorNat time : Rat)
      held := some ⟨y, time⟩
      ph := .mid } }
    let frozen := c.zeta = 0 ∧ q.ts.k1 = 0 ∧ q.ts.k2 = 0
    (¬ isIn → tsLoop c (n + 1) r = q) ∧
    (isIn → q.ts.ph = .mid →
      tsLoop c (n + 1) r = tsLoop c n { q with ts := { q.ts with yMid := some y, ph := .on } }) ∧
    (isIn → q.ts.ph = .on → q.ts.yPrev = none ∨ frozen → onTaken q.ts.v q.ts.integ) ∧
    (isIn → q.ts.ph = .on → ¬ frozen → ∀ a b z : CQ,
      q.ts.yPrev = some (.fin a) → q.ts.yMid = some (.fin b) → y = .fin z →
      let e := (a.re - z.re) * b.re + (a.im - z.im) * b.im
      let sum := q.ts.integ + q.ts.k2 * e
      ∃ i : Rat, onTaken (min (1 / 2) (max (-(1 / 2)) (q.ts.k1 * e + i))) i ∧
        -1 < i ∧ i < 1 ∧ (∃ m : Int, i = sum - m) ∧ (0 ≤ sum → 0 ≤ i) ∧ (sum ≤ 0 → i ≤ 0))

/-- R221 to R229, R231 to R235, R238, R241, R244 under the reference arithmetic: FE's and HIF's part of FS.SAMPLE.  A
hit header with a valid PLS measures, and ends the coarse period when it is the `N`-th; a lost frame resets FE; a
tolerated miss and a candidate with an invalid PLS only check the mode; the last pilot symbol of a frame started by a
hit measures the fine estimate, which is applied in FINE_TRACKING; nothing else changes FE.  That in search the mode is
checked at a candidate, also one with an invalid PLS, and at no other window is the model's reading of R279 (assumption
log 19); π, arg and cis are the model's reference evaluation of them (`piRef`, `argTurns`, `cisTurns`: log 7), angles in
turns (log 18). -/
def Obligations.FeMeasuresAndCorrects : Prop :=
  (∀ q : Rat, -(1 / 2) < wrapf q ∧ wrapf q ≤ 1 / 2 ∧ ∃ n : Int, wrapf q = q + n) ∧
  (∀ (f : Rat) (gold : Nat) (blocks : List (List CQ)),
    let φ := fun b : Nat => pilotPhase f gold (pilotOffset (b + 1)) (blocks.getD b [])
    let τ := fun b : Nat => (pilotOffset (b + 1) : Rat) + 35 / 2
    let mean := fun g : Nat → Rat => (∑ b ∈ Finset.range blocks.length, g b) / (blocks.length : Rat)
    ∃ ψ : Nat → Rat, ψ 0 = φ 0 ∧ (∀ b, ψ (b + 1) = ψ b + wrapf (φ (b + 1) - φ b)) ∧
      fineFormula f gold blocks =
        (∑ b ∈ Finset.range blocks.length, (τ b - mean τ) * (ψ b - mean ψ)) /
          ∑ b ∈ Finset.range blocks.length, (τ b - mean τ) * (τ b - mean τ)) ∧
  ∀ (s : State) (re im : Word), FsInv s.fs → FeInv s.params.numerics s.fe → s.fs.eos = false →
    s.params.numerics = .reference → (∀ z ∈ f32Sample re im :: s.fs.r, z ≠ .nonFinite) → s.fe.acc ≠ .nonFinite →
    ∃ t, exec (.fsSample re im) s = .next t ∧
    let fs := s.fs.push (f32Sample re im)
    let mode := s.csr.fsCtrl.getLsbD 0
    let hit := fun h : Nat => isHit s.ctx (f32Val s.csr.fsSofThresh) fs h
    let pls := fun h : Nat => expectedPls ⟨s.ctx, s.csr⟩ (latchOf s.csr) fs h
    let cleared : FeState := {
      fstate := .uncorrected, fCum := 0, acc := .fin ⟨0, 0⟩, cnt := 0, lastCmd := 0, mode := mode }
    let zeroed := if s.fe.lastCmd = 0 then s.hif else outboxWrite 0 s.hif
    let fe := if s.fe.mode = mode then s.fe else cleared
    let hif := if s.fe.mode = mode then s.hif else zeroed
    let command := fun (g : FeState) (o : HifState) =>
      if g.mode then ({ g with lastCmd := -2 * piRef * g.fCum }, outboxWrite (-2 * piRef * g.fCum) o) else (g, o)
    let due := fun h : Nat => s.fs.nextHdr = some h ∧ s.fs.nIn = h + 89
    let found := fun h : Nat => s.fs.nextHdr = none ∧ s.fs.nIn = h + 89 ∧ s.fs.searchFrom ≤ h ∧
      isCandidate s.ctx (f32Val s.csr.fsSofThresh) fs h = true
    let fine := fun f : Frame => s.fs.frm = some f ∧ f.hit = true ∧ 1 ≤ f.geom.pilotBlocks ∧
      s.fs.nIn = f.h + pilotOffset f.geom.pilotBlocks + 35
    (∀ (h : Nat) (p : Pls), invalidPls p = false →
      (found h ∧ p = decodePls s.ctx (fs.window h 90)) ∨ (due h ∧ hit h = true ∧ p = pls h) →
      let f := if mode then 0 else fe.fCum
      let u := fun k : Nat => (((fs.window h 90).getD k .nonFinite).val.mul (headerSymbol p k).conj).mul
        (cisTurns (-(f * (k : Rat))))
      let acc := fe.acc.val.add ((CQ.sum ((List.range 89).map fun k => (u (k + 1)).mul (u k).conj)).scale (1 / 2))
      let ε := wrapf (argTurns acc)
      let ended := { fe with acc := .fin ⟨0, 0⟩, cnt := 0 }
      (t.fe, t.hif) =
        if fe.cnt + 1 < s.csr.fsFreqPeriod.toNat then ({ fe with acc := .fin acc, cnt := fe.cnt + 1 }, hif)
        else match fe.fstate with
          | .uncorrected => command { ended with fCum := wrapf (fe.fCum + ε), fstate := .coarseCorrected } hif
          | .coarseCorrected => command { ended with
              fCum := wrapf (fe.fCum + ε)
              fstate := if |ε| < f32Val s.csr.fsFineThresh then .fineTracking else .coarseCorrected } hif
          | .fineTracking => (ended, hif)) ∧
    (∀ h, due h → invalidPls (pls h) = true ∨
        (hit h = false ∧ (s.fs.lock = .locked → s.csr.fsUnlockCount.toNat ≤ s.fs.misses + 1)) →
      (t.fe, t.hif) = (cleared, zeroed)) ∧
    (∀ h, (found h ∧ invalidPls (decodePls s.ctx (fs.window h 90)) = true) ∨
        (due h ∧ invalidPls (pls h) = false ∧ hit h = false ∧ s.fs.lock = .locked ∧
          s.fs.misses + 1 < s.csr.fsUnlockCount.toNat) →
      (t.fe, t.hif) = (fe, hif)) ∧
    (∀ f, fine f →
      let e := fineFormula (if s.fe.mode then 0 else s.fe.fCum) f.gold ((pilotSymbols fs f).map (List.map Cx.val))
      (t.fe, t.hif) = if s.fe.fstate = .fineTracking then command { s.fe with fCum := wrapf (s.fe.fCum + e) } s.hif
        else (s.fe, s.hif)) ∧
    ((∀ h, ¬ due h ∧ ¬ found h) → (∀ f, ¬ fine f) → (t.fe, t.hif) = (s.fe, s.hif))
end

