-- ==== Sys2Proof/Laws/Arith.lean ====
section
/-!
SUPPORT. What the real functions of 00_scope.md rule R17 and the times of 41_timing_sync.md rule R185 can be.
-/

namespace Sys2Proof.Machine

theorem clampRat_bounds {lo hi : Rat} (x : Rat) (h : lo ≤ hi) : lo ≤ clampRat x lo hi ∧ clampRat x lo hi ≤ hi :=
  ⟨le_min h (le_max_left _ _), min_le_left _ _⟩

theorem fmod1_bounds (x : Rat) : -1 < fmod1 x ∧ fmod1 x < 1 := by
  unfold fmod1
  split
  · have h1 : ((x.floor : Int) : Rat) ≤ x := Int.floor_le x
    have h2 : x < ((x.floor : Int) : Rat) + 1 := Int.lt_floor_add_one x
    constructor <;> linarith
  · have h1 : x ≤ ((x.ceil : Int) : Rat) := Rat.le_ceil
    have h2 : ((x.ceil : Int) : Rat) < x + 1 := Rat.ceil_lt
    constructor <;> linarith

theorem wrapf_bounds (f : Rat) : -(1 / 2) < wrapf f ∧ wrapf f ≤ 1 / 2 := by
  unfold wrapf
  have h1 : f - 1 / 2 ≤ (((f - 1 / 2).ceil : Int) : Rat) := Rat.le_ceil
  have h2 : (((f - 1 / 2).ceil : Int) : Rat) < f - 1 / 2 + 1 := Rat.ceil_lt
  constructor <;> linarith

/-- A time and its whole part. -/
theorem floorNat_bounds {t : Rat} (h : 0 ≤ t) : (floorNat t : Rat) ≤ t ∧ t < (floorNat t : Rat) + 1 := by
  have h0 : 0 ≤ t.floor := Int.floor_nonneg.mpr h
  have hc : ((floorNat t : Nat) : Rat) = ((t.floor : Int) : Rat) := by
    unfold floorNat
    exact_mod_cast congrArg (fun z : Int => (z : Rat)) (Int.toNat_of_nonneg h0)
  rw [hc]
  exact ⟨Int.floor_le t, Int.lt_floor_add_one t⟩

/-- The next MID time lies between a quarter and three quarters of a period on, under every arithmetic. -/
theorem midTime_bounds (c : TsCfg) {v : Rat} (t : Rat) (hs : 0 ≤ c.sps) (hv : -(1 / 2) ≤ v ∧ v ≤ 1 / 2) :
    t + c.sps / 4 ≤ midTime c v t ∧ midTime c v t ≤ t + 3 * c.sps / 4 := by
  unfold midTime numWithin
  split
  · constructor <;> nlinarith [hv.1, hv.2]
  · exact clampRat_bounds _ (by linarith)

/-- The next ON time lies between half and three halves of a period on, under every arithmetic. -/
theorem onTime_bounds (c : TsCfg) {v : Rat} (t : Rat) (hs : 0 ≤ c.sps) (hv : -(1 / 2) ≤ v ∧ v ≤ 1 / 2) :
    t + c.sps / 2 ≤ onTime c v t ∧ onTime c v t ≤ t + 3 * c.sps / 2 := by
  unfold onTime numWithin
  split
  · constructor <;> nlinarith [hv.1, hv.2]
  · exact clampRat_bounds _ (by linarith)

theorem commandValue_tick (n : Numerics) (k k' : Nat) (f : Rat) :
    commandValue ⟨n, k⟩ f = commandValue ⟨n, k'⟩ f := rfl

end Sys2Proof.Machine
end

