-- ==== Sys2Proof/Laws/Fields.lean ====
section
/-!
SUPPORT. The fields of the words and beats that the formats of 30_encoding.md put together: each word as a number, and
each field of it read back.
-/

namespace Sys2Proof

/-- A concatenation as a number. -/
theorem toNat_append_add {n m : Nat} (x : BitVec n) (y : BitVec m) : (x ++ y).toNat = x.toNat * 2 ^ m + y.toNat := by
  rw [BitVec.toNat_append, Nat.shiftLeft_eq, Nat.mul_comm, Nat.two_pow_add_eq_or_of_lt y.isLt]

/-- A field as a number. -/
theorem toNat_field {w : Nat} (x : BitVec w) (s n : Nat) : (x.extractLsb' s n).toNat = x.toNat / 2 ^ s % 2 ^ n := by
  rw [BitVec.extractLsb'_toNat, Nat.shiftRight_eq_div_pow]

/-- A one-bit field as a number. -/
theorem toNat_bit {w : Nat} (x : BitVec w) (i : Nat) : x.getLsbD i = decide (x.toNat / 2 ^ i % 2 = 1) := by
  rw [BitVec.getLsbD, Nat.testBit_eq_decide_div_mod_eq]

theorem toNat_ofBool_eq (b : Bool) : (BitVec.ofBool b).toNat = if b then 1 else 0 := by cases b <;> rfl

/-! ### Words and beats as numbers -/

theorem toNat_cmdWord (op a : BitVec 8) : (cmdWord op a).toNat = op.toNat * 2 ^ 24 + a.toNat * 2 ^ 16 := by
  unfold cmdWord
  erw [toNat_append_add, toNat_append_add]
  simp
  omega

theorem toNat_resetMask (ts fs bb hif : Bool) : (resetMask ts fs bb hif).toNat =
    (if hif then 8 else 0) + (if bb then 4 else 0) + (if fs then 2 else 0) + (if ts then 1 else 0) := by
  cases ts <;> cases fs <;> cases bb <;> cases hif <;> rfl

theorem toNat_sampleBeat (re im : Word) : (sampleBeat re im).toNat = im.toNat * 2 ^ 32 + re.toNat := by
  unfold sampleBeat
  erw [toNat_append_add, toNat_append_add]
  simp

theorem toNat_tagBeat (p : TagPayload) : (tagBeat p).toNat = 2 ^ 94 + p.toNat := by
  unfold tagBeat
  erw [toNat_append_add, toNat_append_add]
  simp

theorem toNat_frameTagBeat (m : BitVec 5) (sh : Bool) :
    (frameTagBeat m sh).toNat = 2 ^ 94 + (if sh then 32 else 0) + m.toNat := by
  unfold frameTagBeat
  erw [toNat_append_add, toNat_append_add, toNat_append_add]
  cases sh <;> simp

theorem toNat_byteBeat (b : Byte) : (byteBeat b).toNat = b.toNat := by
  unfold byteBeat
  erw [toNat_append_add]
  simp

theorem toNat_startBeat (k : BitVec 16) (d : Bool) :
    (startBeat k d).toNat = 2 ^ 30 + (if d then 2 ^ 16 else 0) + k.toNat := by
  unfold startBeat
  erw [toNat_append_add, toNat_append_add, toNat_append_add]
  cases d <;> simp

theorem toNat_outByteBeat (b : Byte) (sop : Bool) :
    (outByteBeat b sop).toNat = (if sop then 256 else 0) + b.toNat := by
  unfold outByteBeat
  erw [toNat_append_add, toNat_append_add]
  cases sop <;> simp

theorem toNat_eosBeat : eosBeat.toNat = 2 ^ 95 := by decide

theorem toNat_bbEosBeat : bbEosBeat.toNat = 2 ^ 31 := by decide

/-! ### Their fields -/

@[simp] theorem opField_cmdWord (op a : BitVec 8) : opField (cmdWord op a) = op := by
  apply BitVec.eq_of_toNat_eq
  rw [opField, toNat_field, toNat_cmdWord]
  have := op.isLt
  have := a.isLt
  simp
  omega

@[simp] theorem addrField_cmdWord (op a : BitVec 8) : addrField (cmdWord op a) = a := by
  apply BitVec.eq_of_toNat_eq
  rw [addrField, toNat_field, toNat_cmdWord]
  have := op.isLt
  have := a.isLt
  simp
  omega

@[simp] theorem zField_cmdWord (op a : BitVec 8) : zField (cmdWord op a) = 0 := by
  apply BitVec.eq_of_toNat_eq
  rw [zField, toNat_field, toNat_cmdWord]
  have := op.isLt
  have := a.isLt
  simp
  omega

@[simp] theorem sKind_sampleBeat (re im : Word) : sKind (sampleBeat re im) = 0 := by
  apply BitVec.eq_of_toNat_eq
  rw [sKind, toNat_field, toNat_sampleBeat]
  have := re.isLt
  have := im.isLt
  simp
  omega

@[simp] theorem sRe_sampleBeat (re im : Word) : sRe (sampleBeat re im) = re := by
  apply BitVec.eq_of_toNat_eq
  rw [sRe, toNat_field, toNat_sampleBeat]
  have := re.isLt
  have := im.isLt
  simp
  omega

@[simp] theorem sIm_sampleBeat (re im : Word) : sIm (sampleBeat re im) = im := by
  apply BitVec.eq_of_toNat_eq
  rw [sIm, toNat_field, toNat_sampleBeat]
  have := re.isLt
  have := im.isLt
  simp
  omega

@[simp] theorem sKind_tagBeat (p : TagPayload) : sKind (tagBeat p) = 1 := by
  apply BitVec.eq_of_toNat_eq
  rw [sKind, toNat_field, toNat_tagBeat]
  have := p.isLt
  simp
  omega

@[simp] theorem sPayload_tagBeat (p : TagPayload) : sPayload (tagBeat p) = p := by
  apply BitVec.eq_of_toNat_eq
  rw [sPayload, toNat_field, toNat_tagBeat]
  have := p.isLt
  simp
  omega

@[simp] theorem sKind_frameTagBeat (m : BitVec 5) (sh : Bool) : sKind (frameTagBeat m sh) = 1 := by
  apply BitVec.eq_of_toNat_eq
  rw [sKind, toNat_field, toNat_frameTagBeat]
  have := m.isLt
  cases sh <;> simp <;> omega

theorem modcod_frameTagBeat (m : BitVec 5) (sh : Bool) : (frameTagBeat m sh).extractLsb' 0 5 = m := by
  apply BitVec.eq_of_toNat_eq
  rw [toNat_field, toNat_frameTagBeat]
  have := m.isLt
  cases sh <;> simp <;> omega

@[simp] theorem bKind_byteBeat (b : Byte) : bKind (byteBeat b) = 0 := by
  apply BitVec.eq_of_toNat_eq
  rw [bKind, toNat_field, toNat_byteBeat]
  have := b.isLt
  simp
  omega

theorem byte_byteBeat (b : Byte) : (byteBeat b).extractLsb' 0 8 = b := by
  apply BitVec.eq_of_toNat_eq
  rw [toNat_field, toNat_byteBeat]
  have := b.isLt
  simp
  omega

@[simp] theorem bKind_startBeat (k : BitVec 16) (d : Bool) : bKind (startBeat k d) = 1 := by
  apply BitVec.eq_of_toNat_eq
  rw [bKind, toNat_field, toNat_startBeat]
  have := k.isLt
  cases d <;> simp <;> omega

theorem kbch_startBeat (k : BitVec 16) (d : Bool) : (startBeat k d).extractLsb' 0 16 = k := by
  apply BitVec.eq_of_toNat_eq
  rw [toNat_field, toNat_startBeat]
  have := k.isLt
  cases d <;> simp <;> omega

@[simp] theorem bKind_outByteBeat (b : Byte) (sop : Bool) : bKind (outByteBeat b sop) = 0 := by
  apply BitVec.eq_of_toNat_eq
  rw [bKind, toNat_field, toNat_outByteBeat]
  have := b.isLt
  cases sop <;> simp <;> omega

theorem byte_outByteBeat (b : Byte) (sop : Bool) : (outByteBeat b sop).extractLsb' 0 8 = b := by
  apply BitVec.eq_of_toNat_eq
  rw [toNat_field, toNat_outByteBeat]
  have := b.isLt
  cases sop <;> simp <;> omega

theorem short_frameTagBeat (m : BitVec 5) (sh : Bool) : (frameTagBeat m sh).getLsbD 5 = sh := by
  rw [toNat_bit, toNat_frameTagBeat]
  have := m.isLt
  cases sh <;> simp <;> omega

theorem disc_startBeat (k : BitVec 16) (d : Bool) : (startBeat k d).getLsbD 16 = d := by
  rw [toNat_bit, toNat_startBeat]
  have := k.isLt
  cases d <;> simp <;> omega

theorem sop_outByteBeat (b : Byte) (sop : Bool) : (outByteBeat b sop).getLsbD 8 = sop := by
  rw [toNat_bit, toNat_outByteBeat]
  have := b.isLt
  cases sop <;> simp <;> omega

@[simp] theorem sKind_eosBeat : sKind eosBeat = 2 := by decide

@[simp] theorem sKind_reservedBeat : sKind reservedBeat = 3 := by decide

@[simp] theorem bKind_bbEosBeat : bKind bbEosBeat = 2 := by decide

@[simp] theorem bKind_bbReservedBeat : bKind bbReservedBeat = 3 := by decide

end Sys2Proof
end

