-- ==== Sys2Proof/Laws/State.lean ====
section
/-!
SUPPORT. One lemma for each field of the state after each shared update, so that no proof unfolds a record update.
-/

namespace Sys2Proof.Machine

/-! ### `raise` -/

@[simp] theorem raise_params (e : Err) (s : State) : (raise e s).params = s.params := rfl
@[simp] theorem raise_csr (e : Err) (s : State) : (raise e s).csr = s.csr := rfl
@[simp] theorem raise_hif (e : Err) (s : State) : (raise e s).hif = setErr e s.hif := rfl
@[simp] theorem raise_ts (e : Err) (s : State) : (raise e s).ts = s.ts := rfl
@[simp] theorem raise_fs (e : Err) (s : State) : (raise e s).fs = s.fs := rfl
@[simp] theorem raise_fe (e : Err) (s : State) : (raise e s).fe = s.fe := rfl
@[simp] theorem raise_bb (e : Err) (s : State) : (raise e s).bb = s.bb := rfl
@[simp] theorem raise_cmdIn (e : Err) (s : State) : (raise e s).cmdIn = s.cmdIn := rfl
@[simp] theorem raise_rspOut (e : Err) (s : State) : (raise e s).rspOut = s.rspOut := rfl
@[simp] theorem raise_tsIn (e : Err) (s : State) : (raise e s).tsIn = s.tsIn := rfl
@[simp] theorem raise_tsOut (e : Err) (s : State) : (raise e s).tsOut = s.tsOut := rfl
@[simp] theorem raise_fsIn (e : Err) (s : State) : (raise e s).fsIn = s.fsIn := rfl
@[simp] theorem raise_fsOut (e : Err) (s : State) : (raise e s).fsOut = s.fsOut := rfl
@[simp] theorem raise_bbIn (e : Err) (s : State) : (raise e s).bbIn = s.bbIn := rfl
@[simp] theorem raise_bbOut (e : Err) (s : State) : (raise e s).bbOut = s.bbOut := rfl
@[simp] theorem raise_rotOut (e : Err) (s : State) : (raise e s).rotOut = s.rotOut := rfl
@[simp] theorem raise_sched (e : Err) (s : State) : (raise e s).sched = s.sched := rfl
@[simp] theorem raise_tick (e : Err) (s : State) : (raise e s).tick = s.tick := rfl

/-! ### `sendRsp` -/

@[simp] theorem sendRsp_params (w : Word) (s : State) : (sendRsp w s).params = s.params := rfl
@[simp] theorem sendRsp_csr (w : Word) (s : State) : (sendRsp w s).csr = s.csr := rfl
@[simp] theorem sendRsp_hif (w : Word) (s : State) : (sendRsp w s).hif = s.hif := rfl
@[simp] theorem sendRsp_ts (w : Word) (s : State) : (sendRsp w s).ts = s.ts := rfl
@[simp] theorem sendRsp_fs (w : Word) (s : State) : (sendRsp w s).fs = s.fs := rfl
@[simp] theorem sendRsp_fe (w : Word) (s : State) : (sendRsp w s).fe = s.fe := rfl
@[simp] theorem sendRsp_bb (w : Word) (s : State) : (sendRsp w s).bb = s.bb := rfl
@[simp] theorem sendRsp_cmdIn (w : Word) (s : State) : (sendRsp w s).cmdIn = s.cmdIn := rfl
@[simp] theorem sendRsp_rspOut (w : Word) (s : State) : (sendRsp w s).rspOut = s.rspOut ++ [w] := rfl
@[simp] theorem sendRsp_tsIn (w : Word) (s : State) : (sendRsp w s).tsIn = s.tsIn := rfl
@[simp] theorem sendRsp_tsOut (w : Word) (s : State) : (sendRsp w s).tsOut = s.tsOut := rfl
@[simp] theorem sendRsp_fsIn (w : Word) (s : State) : (sendRsp w s).fsIn = s.fsIn := rfl
@[simp] theorem sendRsp_fsOut (w : Word) (s : State) : (sendRsp w s).fsOut = s.fsOut := rfl
@[simp] theorem sendRsp_bbIn (w : Word) (s : State) : (sendRsp w s).bbIn = s.bbIn := rfl
@[simp] theorem sendRsp_bbOut (w : Word) (s : State) : (sendRsp w s).bbOut = s.bbOut := rfl
@[simp] theorem sendRsp_rotOut (w : Word) (s : State) : (sendRsp w s).rotOut = s.rotOut := rfl
@[simp] theorem sendRsp_sched (w : Word) (s : State) : (sendRsp w s).sched = s.sched := rfl
@[simp] theorem sendRsp_tick (w : Word) (s : State) : (sendRsp w s).tick = s.tick := rfl

/-! ### `withTsRun` -/

@[simp] theorem withTsRun_params (r : TsRun) (s : State) : (withTsRun r s).params = s.params := rfl
@[simp] theorem withTsRun_csr (r : TsRun) (s : State) : (withTsRun r s).csr = s.csr := rfl
@[simp] theorem withTsRun_hif (r : TsRun) (s : State) : (withTsRun r s).hif = s.hif := rfl
@[simp] theorem withTsRun_ts (r : TsRun) (s : State) : (withTsRun r s).ts = r.ts := rfl
@[simp] theorem withTsRun_fs (r : TsRun) (s : State) : (withTsRun r s).fs = s.fs := rfl
@[simp] theorem withTsRun_fe (r : TsRun) (s : State) : (withTsRun r s).fe = s.fe := rfl
@[simp] theorem withTsRun_bb (r : TsRun) (s : State) : (withTsRun r s).bb = s.bb := rfl
@[simp] theorem withTsRun_cmdIn (r : TsRun) (s : State) : (withTsRun r s).cmdIn = s.cmdIn := rfl
@[simp] theorem withTsRun_rspOut (r : TsRun) (s : State) : (withTsRun r s).rspOut = s.rspOut := rfl
@[simp] theorem withTsRun_tsIn (r : TsRun) (s : State) : (withTsRun r s).tsIn = s.tsIn := rfl
@[simp] theorem withTsRun_tsOut (r : TsRun) (s : State) : (withTsRun r s).tsOut = s.tsOut ++ r.out := rfl
@[simp] theorem withTsRun_fsIn (r : TsRun) (s : State) : (withTsRun r s).fsIn = s.fsIn := rfl
@[simp] theorem withTsRun_fsOut (r : TsRun) (s : State) : (withTsRun r s).fsOut = s.fsOut := rfl
@[simp] theorem withTsRun_bbIn (r : TsRun) (s : State) : (withTsRun r s).bbIn = s.bbIn := rfl
@[simp] theorem withTsRun_bbOut (r : TsRun) (s : State) : (withTsRun r s).bbOut = s.bbOut := rfl
@[simp] theorem withTsRun_rotOut (r : TsRun) (s : State) : (withTsRun r s).rotOut = s.rotOut := rfl
@[simp] theorem withTsRun_sched (r : TsRun) (s : State) : (withTsRun r s).sched = s.sched := rfl
@[simp] theorem withTsRun_tick (r : TsRun) (s : State) : (withTsRun r s).tick = s.tick + 1 := rfl

/-! ### `withFsRun` -/

@[simp] theorem withFsRun_params (r : FsRun) (s : State) : (withFsRun r s).params = s.params := rfl
@[simp] theorem withFsRun_csr (r : FsRun) (s : State) : (withFsRun r s).csr = s.csr := rfl
@[simp] theorem withFsRun_hif (r : FsRun) (s : State) : (withFsRun r s).hif = r.hif := rfl
@[simp] theorem withFsRun_ts (r : FsRun) (s : State) : (withFsRun r s).ts = s.ts := rfl
@[simp] theorem withFsRun_fs (r : FsRun) (s : State) : (withFsRun r s).fs = r.fs := rfl
@[simp] theorem withFsRun_fe (r : FsRun) (s : State) : (withFsRun r s).fe = r.fe := rfl
@[simp] theorem withFsRun_bb (r : FsRun) (s : State) : (withFsRun r s).bb = s.bb := rfl
@[simp] theorem withFsRun_cmdIn (r : FsRun) (s : State) : (withFsRun r s).cmdIn = s.cmdIn := rfl
@[simp] theorem withFsRun_rspOut (r : FsRun) (s : State) : (withFsRun r s).rspOut = s.rspOut := rfl
@[simp] theorem withFsRun_tsIn (r : FsRun) (s : State) : (withFsRun r s).tsIn = s.tsIn := rfl
@[simp] theorem withFsRun_tsOut (r : FsRun) (s : State) : (withFsRun r s).tsOut = s.tsOut := rfl
@[simp] theorem withFsRun_fsIn (r : FsRun) (s : State) : (withFsRun r s).fsIn = s.fsIn := rfl
@[simp] theorem withFsRun_fsOut (r : FsRun) (s : State) : (withFsRun r s).fsOut = s.fsOut ++ r.out := rfl
@[simp] theorem withFsRun_bbIn (r : FsRun) (s : State) : (withFsRun r s).bbIn = s.bbIn := rfl
@[simp] theorem withFsRun_bbOut (r : FsRun) (s : State) : (withFsRun r s).bbOut = s.bbOut := rfl
@[simp] theorem withFsRun_rotOut (r : FsRun) (s : State) : (withFsRun r s).rotOut = s.rotOut := rfl
@[simp] theorem withFsRun_sched (r : FsRun) (s : State) : (withFsRun r s).sched = s.sched := rfl
@[simp] theorem withFsRun_tick (r : FsRun) (s : State) : (withFsRun r s).tick = s.tick + 1 := rfl

/-! ### `withBbRun` -/

@[simp] theorem withBbRun_params (r : BbRun) (s : State) : (withBbRun r s).params = s.params := rfl
@[simp] theorem withBbRun_csr (r : BbRun) (s : State) : (withBbRun r s).csr = s.csr := rfl
@[simp] theorem withBbRun_hif (r : BbRun) (s : State) : (withBbRun r s).hif = s.hif := rfl
@[simp] theorem withBbRun_ts (r : BbRun) (s : State) : (withBbRun r s).ts = s.ts := rfl
@[simp] theorem withBbRun_fs (r : BbRun) (s : State) : (withBbRun r s).fs = s.fs := rfl
@[simp] theorem withBbRun_fe (r : BbRun) (s : State) : (withBbRun r s).fe = s.fe := rfl
@[simp] theorem withBbRun_bb (r : BbRun) (s : State) : (withBbRun r s).bb = r.bb := rfl
@[simp] theorem withBbRun_cmdIn (r : BbRun) (s : State) : (withBbRun r s).cmdIn = s.cmdIn := rfl
@[simp] theorem withBbRun_rspOut (r : BbRun) (s : State) : (withBbRun r s).rspOut = s.rspOut := rfl
@[simp] theorem withBbRun_tsIn (r : BbRun) (s : State) : (withBbRun r s).tsIn = s.tsIn := rfl
@[simp] theorem withBbRun_tsOut (r : BbRun) (s : State) : (withBbRun r s).tsOut = s.tsOut := rfl
@[simp] theorem withBbRun_fsIn (r : BbRun) (s : State) : (withBbRun r s).fsIn = s.fsIn := rfl
@[simp] theorem withBbRun_fsOut (r : BbRun) (s : State) : (withBbRun r s).fsOut = s.fsOut := rfl
@[simp] theorem withBbRun_bbIn (r : BbRun) (s : State) : (withBbRun r s).bbIn = s.bbIn := rfl
@[simp] theorem withBbRun_bbOut (r : BbRun) (s : State) : (withBbRun r s).bbOut = s.bbOut ++ r.out := rfl
@[simp] theorem withBbRun_rotOut (r : BbRun) (s : State) : (withBbRun r s).rotOut = s.rotOut := rfl
@[simp] theorem withBbRun_sched (r : BbRun) (s : State) : (withBbRun r s).sched = s.sched := rfl
@[simp] theorem withBbRun_tick (r : BbRun) (s : State) : (withBbRun r s).tick = s.tick := rfl

/-! ### `resetTs` -/

@[simp] theorem resetTs_params (s : State) : (resetTs s).params = s.params := rfl
@[simp] theorem resetTs_csr (s : State) : (resetTs s).csr = s.csr := rfl
@[simp] theorem resetTs_hif (s : State) : (resetTs s).hif = s.hif := rfl
@[simp] theorem resetTs_ts (s : State) : (resetTs s).ts = setGains s.params.numerics s.csr TsState.reset := rfl
@[simp] theorem resetTs_fs (s : State) : (resetTs s).fs = s.fs := rfl
@[simp] theorem resetTs_fe (s : State) : (resetTs s).fe = s.fe := rfl
@[simp] theorem resetTs_bb (s : State) : (resetTs s).bb = s.bb := rfl
@[simp] theorem resetTs_cmdIn (s : State) : (resetTs s).cmdIn = s.cmdIn := rfl
@[simp] theorem resetTs_rspOut (s : State) : (resetTs s).rspOut = s.rspOut := rfl
@[simp] theorem resetTs_tsIn (s : State) : (resetTs s).tsIn = [] := rfl
@[simp] theorem resetTs_tsOut (s : State) : (resetTs s).tsOut = s.tsOut := rfl
@[simp] theorem resetTs_fsIn (s : State) : (resetTs s).fsIn = s.fsIn := rfl
@[simp] theorem resetTs_fsOut (s : State) : (resetTs s).fsOut = s.fsOut := rfl
@[simp] theorem resetTs_bbIn (s : State) : (resetTs s).bbIn = s.bbIn := rfl
@[simp] theorem resetTs_bbOut (s : State) : (resetTs s).bbOut = s.bbOut := rfl
@[simp] theorem resetTs_rotOut (s : State) : (resetTs s).rotOut = s.rotOut := rfl
@[simp] theorem resetTs_sched (s : State) : (resetTs s).sched = s.sched := rfl
@[simp] theorem resetTs_tick (s : State) : (resetTs s).tick = s.tick := rfl

/-! ### `resetFs` -/

@[simp] theorem resetFs_params (s : State) : (resetFs s).params = s.params := rfl
@[simp] theorem resetFs_csr (s : State) : (resetFs s).csr = s.csr := rfl
@[simp] theorem resetFs_hif (s : State) : (resetFs s).hif = s.hif := rfl
@[simp] theorem resetFs_ts (s : State) : (resetFs s).ts = s.ts := rfl
@[simp] theorem resetFs_fs (s : State) : (resetFs s).fs = FsState.reset := rfl
@[simp] theorem resetFs_fe (s : State) : (resetFs s).fe = FeState.reset := rfl
@[simp] theorem resetFs_bb (s : State) : (resetFs s).bb = s.bb := rfl
@[simp] theorem resetFs_cmdIn (s : State) : (resetFs s).cmdIn = s.cmdIn := rfl
@[simp] theorem resetFs_rspOut (s : State) : (resetFs s).rspOut = s.rspOut := rfl
@[simp] theorem resetFs_tsIn (s : State) : (resetFs s).tsIn = s.tsIn := rfl
@[simp] theorem resetFs_tsOut (s : State) : (resetFs s).tsOut = s.tsOut := rfl
@[simp] theorem resetFs_fsIn (s : State) : (resetFs s).fsIn = [] := rfl
@[simp] theorem resetFs_fsOut (s : State) : (resetFs s).fsOut = s.fsOut := rfl
@[simp] theorem resetFs_bbIn (s : State) : (resetFs s).bbIn = s.bbIn := rfl
@[simp] theorem resetFs_bbOut (s : State) : (resetFs s).bbOut = s.bbOut := rfl
@[simp] theorem resetFs_rotOut (s : State) : (resetFs s).rotOut = s.rotOut := rfl
@[simp] theorem resetFs_sched (s : State) : (resetFs s).sched = s.sched := rfl
@[simp] theorem resetFs_tick (s : State) : (resetFs s).tick = s.tick := rfl

/-! ### `resetBb` -/

@[simp] theorem resetBb_params (s : State) : (resetBb s).params = s.params := rfl
@[simp] theorem resetBb_csr (s : State) : (resetBb s).csr = s.csr := rfl
@[simp] theorem resetBb_hif (s : State) : (resetBb s).hif = s.hif := rfl
@[simp] theorem resetBb_ts (s : State) : (resetBb s).ts = s.ts := rfl
@[simp] theorem resetBb_fs (s : State) : (resetBb s).fs = s.fs := rfl
@[simp] theorem resetBb_fe (s : State) : (resetBb s).fe = s.fe := rfl
@[simp] theorem resetBb_bb (s : State) : (resetBb s).bb = BbState.reset := rfl
@[simp] theorem resetBb_cmdIn (s : State) : (resetBb s).cmdIn = s.cmdIn := rfl
@[simp] theorem resetBb_rspOut (s : State) : (resetBb s).rspOut = s.rspOut := rfl
@[simp] theorem resetBb_tsIn (s : State) : (resetBb s).tsIn = s.tsIn := rfl
@[simp] theorem resetBb_tsOut (s : State) : (resetBb s).tsOut = s.tsOut := rfl
@[simp] theorem resetBb_fsIn (s : State) : (resetBb s).fsIn = s.fsIn := rfl
@[simp] theorem resetBb_fsOut (s : State) : (resetBb s).fsOut = s.fsOut := rfl
@[simp] theorem resetBb_bbIn (s : State) : (resetBb s).bbIn = [] := rfl
@[simp] theorem resetBb_bbOut (s : State) : (resetBb s).bbOut = s.bbOut := rfl
@[simp] theorem resetBb_rotOut (s : State) : (resetBb s).rotOut = s.rotOut := rfl
@[simp] theorem resetBb_sched (s : State) : (resetBb s).sched = s.sched := rfl
@[simp] theorem resetBb_tick (s : State) : (resetBb s).tick = s.tick := rfl

/-! ### `resetHif` -/

@[simp] theorem resetHif_params (s : State) : (resetHif s).params = s.params := rfl
@[simp] theorem resetHif_csr (s : State) : (resetHif s).csr = s.csr := rfl
@[simp] theorem resetHif_hif (s : State) : (resetHif s).hif = HifState.reset := rfl
@[simp] theorem resetHif_ts (s : State) : (resetHif s).ts = s.ts := rfl
@[simp] theorem resetHif_fs (s : State) : (resetHif s).fs = s.fs := rfl
@[simp] theorem resetHif_fe (s : State) : (resetHif s).fe = s.fe := rfl
@[simp] theorem resetHif_bb (s : State) : (resetHif s).bb = s.bb := rfl
@[simp] theorem resetHif_cmdIn (s : State) : (resetHif s).cmdIn = s.cmdIn := rfl
@[simp] theorem resetHif_rspOut (s : State) : (resetHif s).rspOut = s.rspOut := rfl
@[simp] theorem resetHif_tsIn (s : State) : (resetHif s).tsIn = s.tsIn := rfl
@[simp] theorem resetHif_tsOut (s : State) : (resetHif s).tsOut = s.tsOut := rfl
@[simp] theorem resetHif_fsIn (s : State) : (resetHif s).fsIn = s.fsIn := rfl
@[simp] theorem resetHif_fsOut (s : State) : (resetHif s).fsOut = s.fsOut := rfl
@[simp] theorem resetHif_bbIn (s : State) : (resetHif s).bbIn = s.bbIn := rfl
@[simp] theorem resetHif_bbOut (s : State) : (resetHif s).bbOut = s.bbOut := rfl
@[simp] theorem resetHif_rotOut (s : State) : (resetHif s).rotOut = s.rotOut := rfl
@[simp] theorem resetHif_sched (s : State) : (resetHif s).sched = s.sched := rfl
@[simp] theorem resetHif_tick (s : State) : (resetHif s).tick = s.tick := rfl

/-! ### `csrWritten` -/

@[simp] theorem csrWritten_params (c : Csr) (w : Word) (s : State) : (csrWritten c w s).params = s.params := rfl
@[simp] theorem csrWritten_csr (c : Csr) (w : Word) (s : State) : (csrWritten c w s).csr = writeCsr s.csr w c := rfl
@[simp] theorem csrWritten_hif (c : Csr) (w : Word) (s : State) : (csrWritten c w s).hif = s.hif := rfl
@[simp] theorem csrWritten_ts (c : Csr) (w : Word) (s : State) : (csrWritten c w s).ts = if c.isGainInput then setGains s.params.numerics (writeCsr s.csr w c) s.ts else s.ts := rfl
@[simp] theorem csrWritten_fs (c : Csr) (w : Word) (s : State) : (csrWritten c w s).fs = s.fs := rfl
@[simp] theorem csrWritten_fe (c : Csr) (w : Word) (s : State) : (csrWritten c w s).fe = s.fe := rfl
@[simp] theorem csrWritten_bb (c : Csr) (w : Word) (s : State) : (csrWritten c w s).bb = s.bb := rfl
@[simp] theorem csrWritten_cmdIn (c : Csr) (w : Word) (s : State) : (csrWritten c w s).cmdIn = s.cmdIn := rfl
@[simp] theorem csrWritten_rspOut (c : Csr) (w : Word) (s : State) : (csrWritten c w s).rspOut = s.rspOut := rfl
@[simp] theorem csrWritten_tsIn (c : Csr) (w : Word) (s : State) : (csrWritten c w s).tsIn = s.tsIn := rfl
@[simp] theorem csrWritten_tsOut (c : Csr) (w : Word) (s : State) : (csrWritten c w s).tsOut = s.tsOut := rfl
@[simp] theorem csrWritten_fsIn (c : Csr) (w : Word) (s : State) : (csrWritten c w s).fsIn = s.fsIn := rfl
@[simp] theorem csrWritten_fsOut (c : Csr) (w : Word) (s : State) : (csrWritten c w s).fsOut = s.fsOut := rfl
@[simp] theorem csrWritten_bbIn (c : Csr) (w : Word) (s : State) : (csrWritten c w s).bbIn = s.bbIn := rfl
@[simp] theorem csrWritten_bbOut (c : Csr) (w : Word) (s : State) : (csrWritten c w s).bbOut = s.bbOut := rfl
@[simp] theorem csrWritten_rotOut (c : Csr) (w : Word) (s : State) : (csrWritten c w s).rotOut = s.rotOut := rfl
@[simp] theorem csrWritten_sched (c : Csr) (w : Word) (s : State) : (csrWritten c w s).sched = s.sched := rfl
@[simp] theorem csrWritten_tick (c : Csr) (w : Word) (s : State) : (csrWritten c w s).tick = s.tick := rfl

/-! ### `setErr` -/

@[simp] theorem setErr_status (e : Err) (h : HifState) : (setErr e h).status = h.status ||| e.mask := rfl
@[simp] theorem setErr_obValid (e : Err) (h : HifState) : (setErr e h).obValid = h.obValid := rfl
@[simp] theorem setErr_obValue (e : Err) (h : HifState) : (setErr e h).obValue = h.obValue := rfl

/-! ### `setGains` -/

@[simp] theorem setGains_x (n : Numerics) (c : Csrs) (ts : TsState) : (setGains n c ts).x = ts.x := rfl
@[simp] theorem setGains_nIn (n : Numerics) (c : Csrs) (ts : TsState) : (setGains n c ts).nIn = ts.nIn := rfl
@[simp] theorem setGains_kOn (n : Numerics) (c : Csrs) (ts : TsState) : (setGains n c ts).kOn = ts.kOn := rfl
@[simp] theorem setGains_muOn (n : Numerics) (c : Csrs) (ts : TsState) : (setGains n c ts).muOn = ts.muOn := rfl
@[simp] theorem setGains_ph (n : Numerics) (c : Csrs) (ts : TsState) : (setGains n c ts).ph = ts.ph := rfl
@[simp] theorem setGains_v (n : Numerics) (c : Csrs) (ts : TsState) : (setGains n c ts).v = ts.v := rfl
@[simp] theorem setGains_integ (n : Numerics) (c : Csrs) (ts : TsState) : (setGains n c ts).integ = ts.integ := rfl
@[simp] theorem setGains_k1 (n : Numerics) (c : Csrs) (ts : TsState) : (setGains n c ts).k1 = (gains n c).1 := rfl
@[simp] theorem setGains_k2 (n : Numerics) (c : Csrs) (ts : TsState) : (setGains n c ts).k2 = (gains n c).2 := rfl
@[simp] theorem setGains_yMid (n : Numerics) (c : Csrs) (ts : TsState) : (setGains n c ts).yMid = ts.yMid := rfl
@[simp] theorem setGains_yPrev (n : Numerics) (c : Csrs) (ts : TsState) : (setGains n c ts).yPrev = ts.yPrev := rfl
@[simp] theorem setGains_tPrev (n : Numerics) (c : Csrs) (ts : TsState) : (setGains n c ts).tPrev = ts.tPrev := rfl
@[simp] theorem setGains_held (n : Numerics) (c : Csrs) (ts : TsState) : (setGains n c ts).held = ts.held := rfl
@[simp] theorem setGains_tags (n : Numerics) (c : Csrs) (ts : TsState) : (setGains n c ts).tags = ts.tags := rfl
@[simp] theorem setGains_outCount (n : Numerics) (c : Csrs) (ts : TsState) : (setGains n c ts).outCount = ts.outCount := rfl
@[simp] theorem setGains_eos (n : Numerics) (c : Csrs) (ts : TsState) : (setGains n c ts).eos = ts.eos := rfl

/-! ### `TsState.push` -/

@[simp] theorem TsState.push_x (z : Cx) (ts : TsState) : (ts.push z).x = z :: ts.x := rfl
@[simp] theorem TsState.push_nIn (z : Cx) (ts : TsState) : (ts.push z).nIn = ts.nIn + 1 := rfl
@[simp] theorem TsState.push_kOn (z : Cx) (ts : TsState) : (ts.push z).kOn = ts.kOn := rfl
@[simp] theorem TsState.push_muOn (z : Cx) (ts : TsState) : (ts.push z).muOn = ts.muOn := rfl
@[simp] theorem TsState.push_ph (z : Cx) (ts : TsState) : (ts.push z).ph = ts.ph := rfl
@[simp] theorem TsState.push_v (z : Cx) (ts : TsState) : (ts.push z).v = ts.v := rfl
@[simp] theorem TsState.push_integ (z : Cx) (ts : TsState) : (ts.push z).integ = ts.integ := rfl
@[simp] theorem TsState.push_k1 (z : Cx) (ts : TsState) : (ts.push z).k1 = ts.k1 := rfl
@[simp] theorem TsState.push_k2 (z : Cx) (ts : TsState) : (ts.push z).k2 = ts.k2 := rfl
@[simp] theorem TsState.push_yMid (z : Cx) (ts : TsState) : (ts.push z).yMid = ts.yMid := rfl
@[simp] theorem TsState.push_yPrev (z : Cx) (ts : TsState) : (ts.push z).yPrev = ts.yPrev := rfl
@[simp] theorem TsState.push_tPrev (z : Cx) (ts : TsState) : (ts.push z).tPrev = ts.tPrev := rfl
@[simp] theorem TsState.push_held (z : Cx) (ts : TsState) : (ts.push z).held = ts.held := rfl
@[simp] theorem TsState.push_tags (z : Cx) (ts : TsState) : (ts.push z).tags = ts.tags := rfl
@[simp] theorem TsState.push_outCount (z : Cx) (ts : TsState) : (ts.push z).outCount = ts.outCount := rfl
@[simp] theorem TsState.push_eos (z : Cx) (ts : TsState) : (ts.push z).eos = ts.eos := rfl

/-! ### `takeMid` -/

@[simp] theorem takeMid_x (y : Cx) (ts : TsState) : (takeMid y ts).x = ts.x := rfl
@[simp] theorem takeMid_nIn (y : Cx) (ts : TsState) : (takeMid y ts).nIn = ts.nIn := rfl
@[simp] theorem takeMid_kOn (y : Cx) (ts : TsState) : (takeMid y ts).kOn = ts.kOn := rfl
@[simp] theorem takeMid_muOn (y : Cx) (ts : TsState) : (takeMid y ts).muOn = ts.muOn := rfl
@[simp] theorem takeMid_ph (y : Cx) (ts : TsState) : (takeMid y ts).ph = .on := rfl
@[simp] theorem takeMid_v (y : Cx) (ts : TsState) : (takeMid y ts).v = ts.v := rfl
@[simp] theorem takeMid_integ (y : Cx) (ts : TsState) : (takeMid y ts).integ = ts.integ := rfl
@[simp] theorem takeMid_k1 (y : Cx) (ts : TsState) : (takeMid y ts).k1 = ts.k1 := rfl
@[simp] theorem takeMid_k2 (y : Cx) (ts : TsState) : (takeMid y ts).k2 = ts.k2 := rfl
@[simp] theorem takeMid_yMid (y : Cx) (ts : TsState) : (takeMid y ts).yMid = some y := rfl
@[simp] theorem takeMid_yPrev (y : Cx) (ts : TsState) : (takeMid y ts).yPrev = ts.yPrev := rfl
@[simp] theorem takeMid_tPrev (y : Cx) (ts : TsState) : (takeMid y ts).tPrev = ts.tPrev := rfl
@[simp] theorem takeMid_held (y : Cx) (ts : TsState) : (takeMid y ts).held = ts.held := rfl
@[simp] theorem takeMid_tags (y : Cx) (ts : TsState) : (takeMid y ts).tags = ts.tags := rfl
@[simp] theorem takeMid_outCount (y : Cx) (ts : TsState) : (takeMid y ts).outCount = ts.outCount := rfl
@[simp] theorem takeMid_eos (y : Cx) (ts : TsState) : (takeMid y ts).eos = ts.eos := rfl

/-! ### `FsState.push` -/

@[simp] theorem FsState.push_r (z : Cx) (fs : FsState) : (fs.push z).r = z :: fs.r := rfl
@[simp] theorem FsState.push_nIn (z : Cx) (fs : FsState) : (fs.push z).nIn = fs.nIn + 1 := rfl
@[simp] theorem FsState.push_lock (z : Cx) (fs : FsState) : (fs.push z).lock = fs.lock := rfl
@[simp] theorem FsState.push_hits (z : Cx) (fs : FsState) : (fs.push z).hits = fs.hits := rfl
@[simp] theorem FsState.push_misses (z : Cx) (fs : FsState) : (fs.push z).misses = fs.misses := rfl
@[simp] theorem FsState.push_nextHdr (z : Cx) (fs : FsState) : (fs.push z).nextHdr = fs.nextHdr := rfl
@[simp] theorem FsState.push_searchFrom (z : Cx) (fs : FsState) : (fs.push z).searchFrom = fs.searchFrom := rfl
@[simp] theorem FsState.push_ccmPls (z : Cx) (fs : FsState) : (fs.push z).ccmPls = fs.ccmPls := rfl
@[simp] theorem FsState.push_frm (z : Cx) (fs : FsState) : (fs.push z).frm = fs.frm := rfl
@[simp] theorem FsState.push_lastPls (z : Cx) (fs : FsState) : (fs.push z).lastPls = fs.lastPls := rfl
@[simp] theorem FsState.push_lastPlsValid (z : Cx) (fs : FsState) : (fs.push z).lastPlsValid = fs.lastPlsValid := rfl
@[simp] theorem FsState.push_frameCount (z : Cx) (fs : FsState) : (fs.push z).frameCount = fs.frameCount := rfl
@[simp] theorem FsState.push_eos (z : Cx) (fs : FsState) : (fs.push z).eos = fs.eos := rfl

/-! ### `noteHit` -/

@[simp] theorem noteHit_r (p : Pls) (fs : FsState) : (noteHit p fs).r = fs.r := rfl
@[simp] theorem noteHit_nIn (p : Pls) (fs : FsState) : (noteHit p fs).nIn = fs.nIn := rfl
@[simp] theorem noteHit_lock (p : Pls) (fs : FsState) : (noteHit p fs).lock = fs.lock := rfl
@[simp] theorem noteHit_hits (p : Pls) (fs : FsState) : (noteHit p fs).hits = fs.hits := rfl
@[simp] theorem noteHit_misses (p : Pls) (fs : FsState) : (noteHit p fs).misses = fs.misses := rfl
@[simp] theorem noteHit_nextHdr (p : Pls) (fs : FsState) : (noteHit p fs).nextHdr = fs.nextHdr := rfl
@[simp] theorem noteHit_searchFrom (p : Pls) (fs : FsState) : (noteHit p fs).searchFrom = fs.searchFrom := rfl
@[simp] theorem noteHit_ccmPls (p : Pls) (fs : FsState) : (noteHit p fs).ccmPls = fs.ccmPls := rfl
@[simp] theorem noteHit_frm (p : Pls) (fs : FsState) : (noteHit p fs).frm = fs.frm := rfl
@[simp] theorem noteHit_lastPls (p : Pls) (fs : FsState) : (noteHit p fs).lastPls = p := rfl
@[simp] theorem noteHit_lastPlsValid (p : Pls) (fs : FsState) : (noteHit p fs).lastPlsValid = true := rfl
@[simp] theorem noteHit_frameCount (p : Pls) (fs : FsState) : (noteHit p fs).frameCount = fs.frameCount := rfl
@[simp] theorem noteHit_eos (p : Pls) (fs : FsState) : (noteHit p fs).eos = fs.eos := rfl

/-! ### `dropPartial` -/

@[simp] theorem dropPartial_isOpen (b : BbState) : (dropPartial b).isOpen = b.isOpen := rfl
@[simp] theorem dropPartial_kbch (b : BbState) : (dropPartial b).kbch = b.kbch := rfl
@[simp] theorem dropPartial_disc (b : BbState) : (dropPartial b).disc = b.disc := rfl
@[simp] theorem dropPartial_fbuf (b : BbState) : (dropPartial b).fbuf = b.fbuf := rfl
@[simp] theorem dropPartial_nbytes (b : BbState) : (dropPartial b).nbytes = b.nbytes := rfl
@[simp] theorem dropPartial_part (b : BbState) : (dropPartial b).part = [] := rfl
@[simp] theorem dropPartial_havePart (b : BbState) : (dropPartial b).havePart = false := rfl
@[simp] theorem dropPartial_framesOk (b : BbState) : (dropPartial b).framesOk = b.framesOk := rfl
@[simp] theorem dropPartial_crcErr (b : BbState) : (dropPartial b).crcErr = b.crcErr := rfl
@[simp] theorem dropPartial_hdrErr (b : BbState) : (dropPartial b).hdrErr = b.hdrErr := rfl
@[simp] theorem dropPartial_malformed (b : BbState) : (dropPartial b).malformed = b.malformed := rfl
@[simp] theorem dropPartial_packetsOut (b : BbState) : (dropPartial b).packetsOut = b.packetsOut := rfl
@[simp] theorem dropPartial_eos (b : BbState) : (dropPartial b).eos = b.eos := rfl

/-! ### `countMalformed` -/

@[simp] theorem countMalformed_isOpen (b : BbState) : (countMalformed b).isOpen = b.isOpen := rfl
@[simp] theorem countMalformed_kbch (b : BbState) : (countMalformed b).kbch = b.kbch := rfl
@[simp] theorem countMalformed_disc (b : BbState) : (countMalformed b).disc = b.disc := rfl
@[simp] theorem countMalformed_fbuf (b : BbState) : (countMalformed b).fbuf = b.fbuf := rfl
@[simp] theorem countMalformed_nbytes (b : BbState) : (countMalformed b).nbytes = b.nbytes := rfl
@[simp] theorem countMalformed_part (b : BbState) : (countMalformed b).part = [] := rfl
@[simp] theorem countMalformed_havePart (b : BbState) : (countMalformed b).havePart = false := rfl
@[simp] theorem countMalformed_framesOk (b : BbState) : (countMalformed b).framesOk = b.framesOk := rfl
@[simp] theorem countMalformed_crcErr (b : BbState) : (countMalformed b).crcErr = b.crcErr := rfl
@[simp] theorem countMalformed_hdrErr (b : BbState) : (countMalformed b).hdrErr = b.hdrErr := rfl
@[simp] theorem countMalformed_malformed (b : BbState) : (countMalformed b).malformed = b.malformed + 1 := rfl
@[simp] theorem countMalformed_packetsOut (b : BbState) : (countMalformed b).packetsOut = b.packetsOut := rfl
@[simp] theorem countMalformed_eos (b : BbState) : (countMalformed b).eos = b.eos := rfl

/-! ### `closeMalformed` -/

@[simp] theorem closeMalformed_isOpen (b : BbState) : (closeMalformed b).isOpen = false := rfl
@[simp] theorem closeMalformed_kbch (b : BbState) : (closeMalformed b).kbch = b.kbch := rfl
@[simp] theorem closeMalformed_disc (b : BbState) : (closeMalformed b).disc = b.disc := rfl
@[simp] theorem closeMalformed_fbuf (b : BbState) : (closeMalformed b).fbuf = [] := rfl
@[simp] theorem closeMalformed_nbytes (b : BbState) : (closeMalformed b).nbytes = 0 := rfl
@[simp] theorem closeMalformed_part (b : BbState) : (closeMalformed b).part = [] := rfl
@[simp] theorem closeMalformed_havePart (b : BbState) : (closeMalformed b).havePart = false := rfl
@[simp] theorem closeMalformed_framesOk (b : BbState) : (closeMalformed b).framesOk = b.framesOk := rfl
@[simp] theorem closeMalformed_crcErr (b : BbState) : (closeMalformed b).crcErr = b.crcErr := rfl
@[simp] theorem closeMalformed_hdrErr (b : BbState) : (closeMalformed b).hdrErr = b.hdrErr := rfl
@[simp] theorem closeMalformed_malformed (b : BbState) : (closeMalformed b).malformed = b.malformed + 1 := rfl
@[simp] theorem closeMalformed_packetsOut (b : BbState) : (closeMalformed b).packetsOut = b.packetsOut := rfl
@[simp] theorem closeMalformed_eos (b : BbState) : (closeMalformed b).eos = b.eos := rfl

/-! ### Runs of FS -/

@[simp] theorem FsRun.withFe_fs (r : FsRun) (f : FeRun) : (r.withFe f).fs = r.fs := rfl
@[simp] theorem FsRun.withFe_fe (r : FsRun) (f : FeRun) : (r.withFe f).fe = f.fe := rfl
@[simp] theorem FsRun.withFe_hif (r : FsRun) (f : FeRun) : (r.withFe f).hif = f.hif := rfl
@[simp] theorem FsRun.withFe_out (r : FsRun) (f : FeRun) : (r.withFe f).out = r.out := rfl
@[simp] theorem FsRun.feRun_fe (r : FsRun) : r.feRun.fe = r.fe := rfl
@[simp] theorem FsRun.feRun_hif (r : FsRun) : r.feRun.hif = r.hif := rfl
@[simp] theorem fsRun_fs (s : State) : (fsRun s).fs = s.fs := rfl
@[simp] theorem fsRun_fe (s : State) : (fsRun s).fe = s.fe := rfl
@[simp] theorem fsRun_hif (s : State) : (fsRun s).hif = s.hif := rfl
@[simp] theorem fsRun_out (s : State) : (fsRun s).out = [] := rfl

end Sys2Proof.Machine
end

