-- ==== Sys2Proof/Laws/Bb.lean ====
section
/-!
SUPPORT. What the BBFRAME Deheader's operations can do (44_bb_deheader.md): the packets of a DATAFIELD, a frame, a byte,
and the invariant they keep.
-/

namespace Sys2Proof.Machine

/-! ### CRC-8 (R324) -/

theorem crcShift_zero : crcShift 0 = 0 := by decide

/-- A byte equal to the register brings it to zero. -/
theorem crcByte_self (b : Byte) : crcByte b b = 0 := by
  unfold crcByte
  rw [BitVec.xor_self]
  decide

theorem crc8_append (l m : List Byte) : crc8 (l ++ m) = m.foldl crcByte (crc8 l) := by
  simp [crc8]

/-! ### Cutting packets (R330, R341) -/

theorem cutPackets_spec : ∀ (n : Nat) (d : List Byte), d.length < 188 * (n + 1) →
    (cutPackets n d).1 = (List.range (d.length / 188)).map (fun j => (d.drop (188 * j)).take 188) ∧
      (cutPackets n d).2 = d.drop (188 * (d.length / 188)) := by
  intro n
  induction n with
  | zero =>
    intro d hd
    have h0 : d.length / 188 = 0 := by omega
    simp [cutPackets, h0]
  | succ n ih =>
    intro d hd
    unfold cutPackets
    split
    next hge =>
      obtain ⟨h1, h2⟩ := ih (d.drop 188) (by simp; omega)
      have hq : d.length / 188 = (d.drop 188).length / 188 + 1 := by
        simp only [List.length_drop]
        omega
      rw [hq, List.range_succ_eq_map]
      simp only [h1, h2, List.map_cons, List.map_map, List.drop_drop]
      refine ⟨?_, ?_⟩
      · congr 1
        apply List.map_congr_left
        intro j _
        simp only [Function.comp, Nat.succ_eq_add_one]
        congr 2
        omega
      · congr 1
        omega
    next hlt =>
      have h0 : d.length / 188 = 0 := by omega
      simp [h0]

/-- The packets sent one after another. -/
theorem foldl_emitUp (ups : List (List Byte)) (r : BbRun) :
    ups.foldl (fun r u => emitUp u r) r =
      { bb := { r.bb with packetsOut := r.bb.packetsOut + BitVec.ofNat 32 ups.length }
        out := r.out ++ ups.flatMap upBeats } := by
  induction ups generalizing r with
  | nil => simp
  | cons u us ih =>
    rw [List.foldl_cons, ih]
    simp only [emitUp, List.flatMap_cons, List.append_assoc, List.length_cons, BitVec.ofNat_add]
    congr 2
    rw [BitVec.add_assoc, BitVec.add_comm 1]
    rfl

/-- The user packets that a DATAFIELD completes and holds (R340, R341). -/
def packetsOf (b : BbState) (d : List Byte) (s : Nat) : List (List Byte) :=
  (if completes b s then [b.part ++ d.take s] else []) ++
    (List.range ((d.length - s) / 188)).map fun j => (d.drop (s + 188 * j)).take 188

/-- The packets depend on the partial packet, the DATAFIELD and the offset only (R345). -/
theorem packetsOf_congr {b b' : BbState} (d : List Byte) (s : Nat) (hp : b.part = b'.part)
    (hh : b.havePart = b'.havePart) : packetsOf b d s = packetsOf b' d s := by
  unfold packetsOf completes
  rw [hp, hh]

/-- The packets of a valid frame, DISC taken into account (R330). -/
theorem packetsOf_disc (disc : Bool) (b : BbState) (d : List Byte) (s : Nat) :
    packetsOf (if disc then dropPartial b else b) d s =
      (if disc = false ∧ b.havePart = true ∧ b.part.length + s = 188 then [b.part ++ d.take s] else []) ++
        (List.range ((d.length - s) / 188)).map fun j => (d.drop (s + 188 * j)).take 188 := by
  cases disc <;> simp [packetsOf, completes, dropPartial]

/-- The bytes a DATAFIELD leaves over (R341). -/
def leftOver (d : List Byte) (s : Nat) : List Byte := d.drop (s + 188 * ((d.length - s) / 188))

/-- What the DATAFIELD of a valid frame does. -/
theorem takeData_eq (d : List Byte) (s : Nat) (r : BbRun) :
    takeData d s r =
      { bb := { r.bb with
          part := leftOver d s
          havePart := !(leftOver d s).isEmpty
          packetsOut := r.bb.packetsOut + BitVec.ofNat 32 (packetsOf r.bb d s).length }
        out := r.out ++ (packetsOf r.bb d s).flatMap upBeats } := by
  have hcut := cutPackets_spec (d.length / 188) (d.drop s) (by simp; omega)
  simp only [List.length_drop, List.drop_drop] at hcut
  have hk : ∀ b : BbState, b.part = [] → b.havePart = false →
      keepPartial (leftOver d s) b = { b with part := leftOver d s, havePart := !(leftOver d s).isEmpty } := by
    intro b h1 h2
    unfold keepPartial
    cases hl : leftOver d s
    · obtain ⟨⟩ := b
      simp_all
    · simp
  unfold takeData
  dsimp only
  rw [hcut.1, hcut.2, foldl_emitUp]
  have : (d.drop (s + 188 * ((d.length - s) / 188))) = leftOver d s := rfl
  rw [this, hk _ rfl rfl]
  unfold packetsOf
  by_cases hc : completes r.bb s = true
  · simp only [hc, if_true, emitUp, dropPartial, List.flatMap_append, List.length_append, List.length_map,
      List.length_range, List.flatMap_cons, List.flatMap_nil, List.append_nil, List.length_singleton, BitVec.ofNat_add,
      List.append_assoc]
    congr 2
    rw [BitVec.add_assoc]
    rfl
  · simp [hc, dropPartial]

/-! ### A frame (R330) -/

/-- What processing a frame can do: one counter, and the partial packet. -/
inductive FrameCase (f : List Byte) (kbch : Nat) (disc : Bool) (b : BbState) (r : BbRun) : Prop where
  /-- R334 -/
  | crc (h : crc8 (f.take 9) ≠ byteAt f 9)
      (hr : r = ⟨{ b with crcErr := b.crcErr + 1, part := [], havePart := false }, []⟩)
  /-- R335 to R337 -/
  | header (h : crc8 (f.take 9) = byteAt f 9) (hh : headerGood f kbch = false)
      (hr : r = ⟨{ b with hdrErr := b.hdrErr + 1, part := [], havePart := false }, []⟩)
  /-- A valid frame (R340, R341, R343). -/
  | valid (ups : List (List Byte)) (h : crc8 (f.take 9) = byteAt f 9) (hh : headerGood f kbch = true)
      (hu : ups = packetsOf (if disc then dropPartial b else b) (dataField f) (syncdOf f / 8))
      (hr : r = ⟨{ b with
        framesOk := b.framesOk + 1
        part := leftOver (dataField f) (syncdOf f / 8)
        havePart := !(leftOver (dataField f) (syncdOf f / 8)).isEmpty
        packetsOut := b.packetsOut + BitVec.ofNat 32 ups.length }, ups.flatMap upBeats⟩)

theorem processFrame_cases (f : List Byte) (kbch : Nat) (disc : Bool) (b : BbState) :
    FrameCase f kbch disc b (processFrame f kbch disc b) := by
  have hd : (if disc then dropPartial b else b).framesOk = b.framesOk ∧
      (if disc then dropPartial b else b).crcErr = b.crcErr ∧
      (if disc then dropPartial b else b).hdrErr = b.hdrErr := by
    cases disc <;> exact ⟨rfl, rfl, rfl⟩
  unfold processFrame
  by_cases hc : crc8 (f.take 9) = byteAt f 9
  · cases hh : headerGood f kbch
    · refine .header hc hh ?_
      simp only [crcGood, hc, beq_self_eq_true, Bool.not_true, Bool.false_eq_true, if_false, Bool.not_false, if_true]
      cases disc <;> rfl
    · refine .valid _ hc hh rfl ?_
      simp only [crcGood, hc, beq_self_eq_true, Bool.not_true, Bool.false_eq_true, if_false, hd.1, takeData_eq]
      cases disc
      · exact congrArg₂ BbRun.mk rfl (List.nil_append _)
      · exact congrArg₂ BbRun.mk rfl (List.nil_append _)
  · refine .crc hc ?_
    have : crcGood f = false := by simpa [crcGood] using hc
    simp only [this, Bool.not_false, if_true]
    cases disc <;> rfl

/-- The checks of R335 to R337 on numbers. -/
theorem headerGood_iff (f : List Byte) (kbch : Nat) : headerGood f kbch = true ↔
    dflOf f + 80 ≤ kbch ∧ dflOf f % 8 = 0 ∧ syncdOf f ≤ dflOf f ∧ syncdOf f % 8 = 0 := by
  simp [headerGood, and_assoc]

/-- A valid frame's DATAFIELD has the length its header says. -/
theorem dataField_length {f : List Byte} {kbch : Nat} (hl : f.length = kbch / 8) (h : headerGood f kbch = true) :
    (dataField f).length = dflOf f / 8 := by
  have := (headerGood_iff f kbch).mp h
  simp only [dataField, List.length_take, List.length_drop]
  omega

/-- Every packet a valid frame sends has 188 bytes (R344). -/
theorem packetsOf_length {b : BbState} {d : List Byte} {s : Nat} (hs : s ≤ d.length) {u : List Byte}
    (hu : u ∈ packetsOf b d s) : u.length = 188 := by
  unfold packetsOf at hu
  rw [List.mem_append] at hu
  obtain hu | hu := hu
  · split at hu
    next hc =>
      rw [List.mem_singleton] at hu
      simp only [completes, Bool.and_eq_true, decide_eq_true_eq] at hc
      rw [hu, List.length_append, List.length_take]
      omega
    · simp at hu
  · obtain ⟨j, hj, rfl⟩ := List.mem_map.mp hu
    rw [List.mem_range] at hj
    simp only [List.length_take, List.length_drop]
    omega

theorem leftOver_length {d : List Byte} {s : Nat} (hs : s ≤ d.length) : (leftOver d s).length < 188 := by
  simp only [leftOver, List.length_drop]
  omega

/-! ### The invariant -/

theorem BbInv.dropped {b : BbState} (h : BbInv b) : BbInv (dropPartial b) :=
  ⟨h.count, h.frame, by simp, by simp⟩

theorem closeMalformed_inv (b : BbState) : BbInv (closeMalformed b) :=
  ⟨rfl, by simp, by simp, by simp⟩

theorem BbInv.startBb {b : BbState} (h : BbInv b) (k : Nat) (d : Bool) : BbInv (startBb k d b) := by
  have h1 : BbInv (if b.isOpen then closeMalformed b else b) := by
    split
    · exact closeMalformed_inv b
    · exact h
  unfold Machine.startBb
  dsimp only
  split
  next hk =>
    refine ⟨rfl, fun _ => ⟨hk, ?_⟩, h1.part, h1.short⟩
    simp only [legalKbch, Bool.and_eq_true, decide_eq_true_eq] at hk
    simp only
    omega
  next => exact ⟨h1.count, h1.frame, by simp, by simp⟩

theorem BbInv.endBb {b : BbState} (h : BbInv b) : BbInv (endBb b) := by
  have h1 : BbInv (if b.isOpen then closeMalformed b else b) := by
    split
    · exact closeMalformed_inv b
    · exact h
  exact ⟨h1.count, h1.frame, by simp [Machine.endBb], by simp [Machine.endBb]⟩

theorem BbInv.appendByte {b : BbState} (h : BbInv b) (ho : b.isOpen = true) (x : Byte) :
    BbInv (appendByte x b).bb := by
  have hf := h.frame ho
  unfold Machine.appendByte
  dsimp only
  split
  next hn =>
    have hlen : (b.fbuf ++ [x]).length = b.nbytes + 1 := by simp [h.count]
    obtain ⟨-, hr⟩ | ⟨-, -, hr⟩ | ⟨ups, -, hg, -, hr⟩ := processFrame_cases (b.fbuf ++ [x]) b.kbch b.disc
        { b with fbuf := b.fbuf ++ [x], nbytes := b.nbytes + 1, isOpen := false } <;> rw [hr]
    · exact ⟨hlen.symm, by simp, by simp, by simp⟩
    · exact ⟨hlen.symm, by simp, by simp, by simp⟩
    · have hd := dataField_length (by omega) hg
      have hg' := (headerGood_iff _ _).mp hg
      have hl := leftOver_length (d := dataField (b.fbuf ++ [x])) (s := syncdOf (b.fbuf ++ [x]) / 8) (by omega)
      exact ⟨hlen.symm, by simp, by simp, by simp only; omega⟩
  next hn =>
    refine ⟨by simp [h.count], fun _ => ⟨hf.1, ?_⟩, h.part, h.short⟩
    simp only
    omega

end Sys2Proof.Machine
end

