-- ==== Sys2Proof/Laws/Fe.lean ====
section
/-!
SUPPORT. What the Frequency Offset Estimator's operations can do: to the outbox (42_freq_estimator.md rule R245), to the
mode, and the invariant each keeps.
-/

namespace Sys2Proof.Machine

/-- At most one write of the outbox (R245, 60_exceptions.md rule R367). -/
def OneWrite (h h' : HifState) : Prop := h' = h ∨ ∃ c, h' = outboxWrite c h

theorem OneWrite.refl (h : HifState) : OneWrite h h := .inl rfl

/-- An outbox write sets `OUTBOX_OVERWRITE` if the outbox was full, and no other bit. -/
theorem outboxWrite_status (c : Rat) (h : HifState) :
    (outboxWrite c h).status = if h.obValid then h.status ||| Err.mask .outboxOverwrite else h.status := by
  unfold outboxWrite
  split <;> simp_all

@[simp] theorem outboxWrite_obValid (c : Rat) (h : HifState) : (outboxWrite c h).obValid = true := rfl
@[simp] theorem outboxWrite_obValue (c : Rat) (h : HifState) : (outboxWrite c h).obValue = c := rfl

/-! ### `command()` (R238) -/

/-- A command issues in closed loop only; it changes `last_cmd` and the outbox. -/
theorem feCommand_cases (c : NumCtx) (r : FeRun) :
    (r.fe.mode = false ∧ feCommand c r = r) ∨
    (r.fe.mode = true ∧ feCommand c r =
      ⟨{ r.fe with lastCmd := commandValue c r.fe.fCum }, outboxWrite (commandValue c r.fe.fCum) r.hif⟩) := by
  unfold feCommand
  cases h : r.fe.mode <;> simp

/-! ### `fe_reset()` (R241) -/

theorem feReset_fe (r : FeRun) : ∃ l, (feReset r).fe =
      { r.fe with fstate := .uncorrected, fCum := 0, acc := .fin CQ.zero, cnt := 0, lastCmd := l } ∧
    (r.fe.mode = true → l = 0) ∧ (r.fe.mode = false → l = r.fe.lastCmd) := by
  refine ⟨_, rfl, ?_, ?_⟩ <;> intro h <;> simp [h]

theorem feReset_hif (r : FeRun) : OneWrite r.hif (feReset r).hif ∧ (r.fe.mode = false → (feReset r).hif = r.hif) := by
  unfold feReset OneWrite
  refine ⟨?_, fun h => by simp [h]⟩
  dsimp only
  split
  · exact .inr ⟨0, rfl⟩
  · exact .inl rfl

@[simp] theorem feReset_mode (r : FeRun) : (feReset r).fe.mode = r.fe.mode := rfl

theorem FeInv.feReset {n : Numerics} {r : FeRun} (h : FeInv n r.fe) : FeInv n (feReset r).fe := by
  obtain ⟨l, he, h1, h0⟩ := feReset_fe r
  rw [he]
  refine ⟨by norm_num, fun _ => rfl, by norm_num, fun hm => ?_, fun hm => ?_⟩
  · exact (h0 hm).trans (h.opened hm)
  · simpa using h1 hm

/-! ### The mode check (R221) -/

theorem feModeCheck_cases (m : Bool) (r : FeRun) :
    (r.fe.mode = m ∧ feModeCheck m r = r) ∨
    (r.fe.mode = !m ∧ feModeCheck m r = ⟨{ (feReset r).fe with mode := m }, (feReset r).hif⟩) := by
  unfold feModeCheck
  by_cases h : r.fe.mode = m
  · exact .inl ⟨h, by simp [h]⟩
  · refine .inr ⟨?_, by simp [h]⟩
    cases hm : r.fe.mode <;> cases m <;> simp_all

@[simp] theorem feModeCheck_mode (m : Bool) (r : FeRun) : (feModeCheck m r).fe.mode = m := by
  obtain ⟨h, he⟩ | ⟨-, he⟩ := feModeCheck_cases m r <;> rw [he]
  exact h

/-- The mode check writes the outbox only when it leaves FE in open loop. -/
theorem feModeCheck_hif (m : Bool) (r : FeRun) :
    OneWrite r.hif (feModeCheck m r).hif ∧ (m = true → (feModeCheck m r).hif = r.hif) := by
  obtain ⟨-, he⟩ | ⟨hm, he⟩ := feModeCheck_cases m r <;> rw [he]
  · exact ⟨.refl _, fun _ => rfl⟩
  · refine ⟨(feReset_hif r).1, fun h => (feReset_hif r).2 ?_⟩
    rw [hm, h]
    rfl

theorem FeInv.feModeCheck {n : Numerics} {m : Bool} {r : FeRun} (h : FeInv n r.fe) :
    FeInv n (feModeCheck m r).fe := by
  obtain ⟨-, he⟩ | ⟨hm, he⟩ := feModeCheck_cases m r <;> rw [he]
  · exact h
  · have hr := h.feReset
    obtain ⟨l, hl, h1, h0⟩ := feReset_fe r
    have hl0 : l = 0 := by
      cases m
      · exact h1 (by simpa using hm)
      · exact (h0 (by simpa using hm)).trans (h.opened (by simpa using hm))
    refine ⟨hr.range, hr.start, hr.count, fun _ => ?_, fun _ => ?_⟩ <;> simp [hl, hl0]

/-! ### Estimates (R225, R234) -/

/-- What an update of `f_cum` and its command can do. -/
theorem feCommand_hif (c : NumCtx) (r : FeRun) :
    OneWrite r.hif (feCommand c r).hif ∧ (r.fe.mode = false → (feCommand c r).hif = r.hif) := by
  obtain ⟨hm, he⟩ | ⟨hm, he⟩ := feCommand_cases c r <;> rw [he]
  · exact ⟨.refl _, fun _ => rfl⟩
  · exact ⟨.inr ⟨_, rfl⟩, fun h => by simp [hm] at h⟩

@[simp] theorem feCommand_mode (c : NumCtx) (r : FeRun) : (feCommand c r).fe.mode = r.fe.mode := by
  obtain ⟨-, he⟩ | ⟨-, he⟩ := feCommand_cases c r <;> rw [he]

@[simp] theorem feCommand_fstate (c : NumCtx) (r : FeRun) : (feCommand c r).fe.fstate = r.fe.fstate := by
  obtain ⟨-, he⟩ | ⟨-, he⟩ := feCommand_cases c r <;> rw [he]

/-- `f_cum` updated in a state past UNCORRECTED, and commanded. -/
theorem FeInv.command {c : NumCtx} {r : FeRun} {f : FState} {eps : Num} (hf : f ≠ .uncorrected)
    (h : FeInv c.numerics r.fe) :
    FeInv c.numerics (feCommand c { r with fe := { addEstimate c eps r.fe with fstate := f } }).fe := by
  have hw := wrapf_bounds (numReal c .freqUpdate [.fin r.fe.fCum, eps] (r.fe.fCum + eps.val))
  obtain ⟨hm, he⟩ | ⟨hm, he⟩ := feCommand_cases c { r with fe := { addEstimate c eps r.fe with fstate := f } } <;> rw [he]
  · exact ⟨hw, fun h' => absurd h' hf, h.count, h.opened, fun h' => absurd (hm.symm.trans h') (by decide)⟩
  · refine ⟨hw, fun h' => absurd h' hf, h.count, fun h' => ?_, fun _ => ?_⟩
    · exact absurd (h'.symm.trans hm) (by decide)
    · simp [hf, commandValue_tick c.numerics c.tick 0]

theorem applyCoarse_hif (c : NumCtx) (t : Rat) (eps : Num) (r : FeRun) :
    OneWrite r.hif (applyCoarse c t eps r).hif ∧ (r.fe.mode = false → (applyCoarse c t eps r).hif = r.hif) := by
  unfold applyCoarse
  split
  · exact feCommand_hif c { r with fe := { addEstimate c eps r.fe with fstate := .coarseCorrected } }
  · exact feCommand_hif c { r with fe := { addEstimate c eps r.fe with
      fstate := if belowFine eps t then .fineTracking else .coarseCorrected } }
  · exact ⟨.refl _, fun _ => rfl⟩

@[simp] theorem applyCoarse_mode (c : NumCtx) (t : Rat) (eps : Num) (r : FeRun) :
    (applyCoarse c t eps r).fe.mode = r.fe.mode := by
  unfold applyCoarse
  split <;> simp [addEstimate]

theorem FeInv.applyCoarse {c : NumCtx} {t : Rat} {eps : Num} {r : FeRun} (h : FeInv c.numerics r.fe) :
    FeInv c.numerics (applyCoarse c t eps r).fe := by
  unfold Machine.applyCoarse
  split
  · exact h.command (by decide)
  · exact h.command (by split <;> decide)
  · exact h

/-- The state after a coarse period's end (R235, R236). -/
theorem applyCoarse_fstate (c : NumCtx) (t : Rat) (eps : Num) (r : FeRun) :
    (applyCoarse c t eps r).fe.fstate =
      match r.fe.fstate with
      | .uncorrected => .coarseCorrected
      | .coarseCorrected => if belowFine eps t then .fineTracking else .coarseCorrected
      | .fineTracking => .fineTracking := by
  unfold applyCoarse
  split <;> simp_all

/-- `fe_coarse` either adds a measurement to the period or ends the period with it (R223, R224). -/
theorem feCoarse_cases (c : NumCtx) (l : Latch) (p : Pls) (w : List Cx) (r : FeRun) :
    (r.fe.cnt + 1 < l.period ∧ ∃ acc, feCoarse c l p w r = { r with fe := { r.fe with acc := acc, cnt := r.fe.cnt + 1 } }) ∨
    (l.period ≤ r.fe.cnt + 1 ∧ ∃ eps, feCoarse c l p w r =
      applyCoarse c l.tFine eps { r with fe := { r.fe with acc := .fin CQ.zero, cnt := 0 } }) := by
  unfold feCoarse
  by_cases h : l.period ≤ r.fe.cnt + 1
  · exact .inr ⟨h, _, by simp [h]; rfl⟩
  · exact .inl ⟨by omega, _, by simp [h]; rfl⟩

theorem feCoarse_hif (c : NumCtx) (l : Latch) (p : Pls) (w : List Cx) (r : FeRun) :
    OneWrite r.hif (feCoarse c l p w r).hif ∧ (r.fe.mode = false → (feCoarse c l p w r).hif = r.hif) := by
  obtain ⟨-, a, he⟩ | ⟨-, e, he⟩ := feCoarse_cases c l p w r <;> rw [he]
  · exact ⟨.refl _, fun _ => rfl⟩
  · exact applyCoarse_hif c l.tFine e { r with fe := { r.fe with acc := .fin CQ.zero, cnt := 0 } }

@[simp] theorem feCoarse_mode (c : NumCtx) (l : Latch) (p : Pls) (w : List Cx) (r : FeRun) :
    (feCoarse c l p w r).fe.mode = r.fe.mode := by
  obtain ⟨-, a, he⟩ | ⟨-, e, he⟩ := feCoarse_cases c l p w r <;> rw [he]
  simp

theorem FeInv.feCoarse {c : NumCtx} {l : Latch} {p : Pls} {w : List Cx} {r : FeRun} (hl : l.period ≤ 65535)
    (h : FeInv c.numerics r.fe) : FeInv c.numerics (feCoarse c l p w r).fe := by
  obtain ⟨hlt, a, he⟩ | ⟨-, e, he⟩ := feCoarse_cases c l p w r <;> rw [he]
  · exact { h with count := by simp only; omega }
  · exact FeInv.applyCoarse (r := { r with fe := { r.fe with acc := .fin CQ.zero, cnt := 0 } })
      { h with count := by norm_num }

/-- `apply_fine` acts in FINE_TRACKING only (R233). -/
theorem applyFine_cases (c : NumCtx) (eps : Num) (r : FeRun) :
    (r.fe.fstate ≠ .fineTracking ∧ applyFine c eps r = r) ∨
    (r.fe.fstate = .fineTracking ∧ applyFine c eps r =
      feCommand c { r with fe := { addEstimate c eps r.fe with fstate := .fineTracking } }) := by
  unfold applyFine
  cases h : r.fe.fstate
  · exact .inl ⟨by simp, rfl⟩
  · exact .inl ⟨by simp, rfl⟩
  · refine .inr ⟨rfl, ?_⟩
    have : addEstimate c eps r.fe = { addEstimate c eps r.fe with fstate := .fineTracking } := by
      unfold addEstimate
      rw [← h]
    rw [← this]

theorem feFine_hif (c : NumCtx) (g : Nat) (b : List (List Cx)) (r : FeRun) :
    OneWrite r.hif (feFine c g b r).hif ∧ (r.fe.mode = false → (feFine c g b r).hif = r.hif) := by
  unfold feFine
  obtain ⟨-, he⟩ | ⟨-, he⟩ := applyFine_cases c (numNum c .fineEps (.fin (internalFreq r.fe) :: .fin (g : Rat) ::
    b.flatMap windowOperands) (fineFormula (internalFreq r.fe) g (b.map (List.map Cx.val)))) r <;> simp only [he]
  · exact ⟨.refl _, fun _ => trivial⟩
  · exact feCommand_hif c { r with fe := { addEstimate c _ r.fe with fstate := .fineTracking } }

theorem feFine_fe (c : NumCtx) (g : Nat) (b : List (List Cx)) (r : FeRun) :
    (feFine c g b r).fe.mode = r.fe.mode ∧ (feFine c g b r).fe.fstate = r.fe.fstate := by
  unfold feFine
  obtain ⟨-, he⟩ | ⟨hf, he⟩ := applyFine_cases c (numNum c .fineEps (.fin (internalFreq r.fe) :: .fin (g : Rat) ::
    b.flatMap windowOperands) (fineFormula (internalFreq r.fe) g (b.map (List.map Cx.val)))) r <;> simp only [he]
  · exact ⟨trivial, trivial⟩
  · simp [addEstimate, hf]

theorem FeInv.feFine {c : NumCtx} {g : Nat} {b : List (List Cx)} {r : FeRun} (h : FeInv c.numerics r.fe) :
    FeInv c.numerics (feFine c g b r).fe := by
  unfold Machine.feFine
  obtain ⟨-, he⟩ | ⟨-, he⟩ := applyFine_cases c (numNum c .fineEps (.fin (internalFreq r.fe) :: .fin (g : Rat) ::
    b.flatMap windowOperands) (fineFormula (internalFreq r.fe) g (b.map (List.map Cx.val)))) r <;> simp only [he]
  · exact h
  · exact h.command (by decide)

/-! ### Reference arithmetic on real numbers (00_scope.md rule R18) -/

theorem windowOperands_fin {w : List Cx} (h : ∀ z ∈ w, z ≠ .nonFinite) :
    (windowOperands w).all Num.isFin = true := by
  unfold windowOperands
  rw [List.all_flatMap, List.all_eq_true]
  intro z hz
  cases z with
  | fin a => rfl
  | nonFinite => exact absurd rfl (h _ hz)

theorem commandValue_reference {c : NumCtx} (hc : c.numerics = .reference) (f : Rat) :
    commandValue c f = -2 * piRef * f := by
  simp [commandValue, numReal, NumCtx.exact, hc, Num.isFin]

theorem addEstimate_reference {c : NumCtx} (hc : c.numerics = .reference) (e : Rat) (fe : FeState) :
    addEstimate c (.fin e) fe = { fe with fCum := wrapf (fe.fCum + e) } := by
  simp [addEstimate, numReal, NumCtx.exact, hc, Num.isFin, Num.val]

theorem coarseMeasure_reference {c : NumCtx} (hc : c.numerics = .reference) (f : Rat) (p : Pls) {w : List Cx}
    (h : ∀ z ∈ w, z ≠ .nonFinite) : coarseMeasure c f p w = .fin (coarseProduct f p (w.map Cx.val)) := by
  simp [coarseMeasure, numCx, NumCtx.exact, hc, Num.isFin, windowOperands_fin h]

theorem accumulate_reference {c : NumCtx} (hc : c.numerics = .reference) (a b : CQ) :
    accumulate c (.fin a) (.fin b) = .fin (a.add b) := by
  simp [accumulate, numCx, NumCtx.exact, hc, Cx.operands, Num.isFin, Cx.val]

theorem coarseEps_reference {c : NumCtx} (hc : c.numerics = .reference) (a : CQ) :
    coarseEps c (.fin a) = .fin (wrapf (argTurns a)) := by
  simp [coarseEps, numNum, NumCtx.exact, hc, Cx.operands, Num.isFin, Cx.val]

end Sys2Proof.Machine
end

