-- ==== Sys2Proof/Laws/Fs.lean ====
section
/-!
SUPPORT. What the PL Frame Synchronizer's operations can do: one lemma for each part of 43_frame_sync.md rule R280, and
the invariant a step keeps.
-/

namespace Sys2Proof.Machine

/-! ### Geometry (R275) -/

theorem slotsOf_ge (p : Pls) : 36 ≤ slotsOf p := by
  have hb : ∀ b, 144 ≤ normalSlots b := by
    intro b
    unfold normalSlots
    split <;> omega
  unfold slotsOf
  dsimp only
  have := hb (bitsPerSymbol (modcodOf p).toNat)
  split
  · omega
  · split <;> omega

/-- A PLFRAME is longer than its header. -/
theorem plInfo_len_ge (p : Pls) : 3330 ≤ (plInfo p).len := by
  have := slotsOf_ge p
  simp only [plInfo]
  omega

/-! ### Windows of received symbols (R268) -/

theorem FsState.window_mem {fs : FsState} {s n : Nat} {z : Cx} (h : z ∈ fs.window s n) : z ∈ fs.r := by
  unfold FsState.window at h
  rw [List.mem_reverse] at h
  exact List.mem_of_mem_drop (List.mem_of_mem_take h)

theorem FsState.window_length {fs : FsState} {s n : Nat} (hc : fs.r.length = fs.nIn) (h : s + n ≤ fs.nIn) :
    (fs.window s n).length = n := by
  simp only [FsState.window, List.length_reverse, List.length_take, List.length_drop]
  omega

/-- A hit and a candidate depend on the received symbols only. -/
theorem isCandidate_congr (c : NumCtx) (thresh : Rat) {a b : FsState} (hr : a.r = b.r) (hn : a.nIn = b.nIn) (s : Nat) :
    isCandidate c thresh a s = isCandidate c thresh b s ∧ isHit c thresh a s = isHit c thresh b s := by
  have hm : ∀ s, sofMetric c a s = sofMetric c b s := by
    intro s
    simp only [sofMetric, FsState.window, hr, hn]
  have hb : sofMetricBefore c a s = sofMetricBefore c b s := by
    cases s <;> simp [sofMetricBefore, hm]
  simp only [isCandidate, isHit, hm, hb, and_self]

/-! ### The payload part (R293) -/

theorem sendPayload_cases (c : FsCfg) (f : Frame) (k : Nat) (z : Cx) (r : FsRun) :
    sendPayload c f k z r = r ∨
    (f.emit = true ∧ (payloadIndex f.geom k).isSome = true ∧
      ∃ re im, sendPayload c f k z r = { r with out := r.out ++ [sampleBeat re im] }) := by
  unfold sendPayload
  by_cases h : (f.emit && (payloadIndex f.geom k).isSome) = true
  · rw [Bool.and_eq_true] at h
    exact .inr ⟨h.1, h.2, _, _, by rw [if_pos (by simp [h.1, h.2])]⟩
  · exact .inl (by simp only [h]; rfl)

theorem measureFine_cases (c : FsCfg) (f : Frame) (k : Nat) (r : FsRun) :
    measureFine c f k r = r ∨
    (1 ≤ f.geom.pilotBlocks ∧ k = pilotOffset f.geom.pilotBlocks + 35 ∧ r.fs.lock = .locked ∧ f.hit = true ∧
      measureFine c f k r = r.withFe (feFine c.ctx f.gold (pilotSymbols r.fs f) r.feRun)) := by
  unfold measureFine
  split
  · exact .inr ⟨by tauto, by tauto, by tauto, by tauto, rfl⟩
  · exact .inl rfl

/-- FS's own part of the payload step: a frame ends with its last symbol. -/
theorem payloadStep_fs (c : FsCfg) (i : Nat) (z : Cx) (r : FsRun) :
    (payloadStep c i z r).fs = r.fs ∨
    ∃ f, r.fs.frm = some f ∧ f.h + 90 ≤ i ∧ i + 1 = f.h + f.geom.len ∧
      (payloadStep c i z r).fs = { r.fs with frm := none } := by
  unfold payloadStep
  split
  · exact .inl rfl
  next f hf =>
    dsimp only
    split
    next hk =>
      have h1 : (measureFine c f (i - f.h) (sendPayload c f (i - f.h) z r)).fs = r.fs := by
        obtain h | ⟨-, -, -, -, h⟩ := measureFine_cases c f (i - f.h) (sendPayload c f (i - f.h) z r) <;> rw [h]
        all_goals obtain h | ⟨-, -, _, _, h⟩ := sendPayload_cases c f (i - f.h) z r <;> rw [h]
        all_goals rfl
      unfold closeFrame
      split
      next hl => exact .inr ⟨f, hf, hk.1, by omega, by simp only [h1]⟩
      next => exact .inl h1
    · exact .inl rfl

/-- What becomes of the frame in a payload step. -/
theorem payloadStep_frm (c : FsCfg) (i : Nat) (z : Cx) (r : FsRun) {f : Frame} (hf : r.fs.frm = some f)
    (h1 : f.h + 90 ≤ i) :
    (payloadStep c i z r).fs = { r.fs with frm := if i + 1 = f.h + f.geom.len then none else some f } := by
  obtain h | ⟨f', hf', -, h4, h⟩ := payloadStep_fs c i z r
  · rw [h]
    by_cases he : i + 1 = f.h + f.geom.len
    · exfalso
      have hh : (payloadStep c i z r).fs.frm = none := by
        unfold payloadStep closeFrame
        simp only [hf]
        rw [if_pos ⟨h1, by omega⟩, if_pos (by omega)]
      rw [h, hf] at hh
      cases hh
    · simp [he, ← hf]
  · cases hf.symm.trans hf'
    rw [h, if_pos h4]

/-- What the payload step sends and measures: at most one payload symbol, and at most one outbox write, made at the
last symbol of the last pilot block. -/
theorem payloadStep_out (c : FsCfg) (i : Nat) (z : Cx) (r : FsRun) :
    ((payloadStep c i z r).out = r.out ∨
      ∃ f re im, r.fs.frm = some f ∧ f.emit = true ∧ f.h + 90 ≤ i ∧ i < f.h + f.geom.len ∧
        (payloadIndex f.geom (i - f.h)).isSome = true ∧ (payloadStep c i z r).out = r.out ++ [sampleBeat re im]) ∧
    (((payloadStep c i z r).fe = r.fe ∧ (payloadStep c i z r).hif = r.hif) ∨
      ∃ f, r.fs.frm = some f ∧ f.h + 90 ≤ i ∧ i < f.h + f.geom.len ∧ r.fs.lock = .locked ∧ f.hit = true ∧
        1 ≤ f.geom.pilotBlocks ∧ i = f.h + pilotOffset f.geom.pilotBlocks + 35 ∧
        (payloadStep c i z r).fe = (feFine c.ctx f.gold (pilotSymbols r.fs f) r.feRun).fe ∧
        (payloadStep c i z r).hif = (feFine c.ctx f.gold (pilotSymbols r.fs f) r.feRun).hif) := by
  unfold payloadStep
  split
  · exact ⟨.inl rfl, .inl ⟨rfl, rfl⟩⟩
  next f hf =>
    dsimp only
    split
    next hk =>
      have hc : ∀ q, (closeFrame f (i - f.h) q).out = q.out ∧ (closeFrame f (i - f.h) q).fe = q.fe ∧
          (closeFrame f (i - f.h) q).hif = q.hif := by
        intro q
        unfold closeFrame
        split <;> exact ⟨rfl, rfl, rfl⟩
      have hm : ∀ q, (measureFine c f (i - f.h) q).out = q.out := by
        intro q
        obtain h | ⟨-, -, -, -, h⟩ := measureFine_cases c f (i - f.h) q <;> rw [h]
        rfl
      rw [(hc _).1, (hc _).2.1, (hc _).2.2, hm]
      refine ⟨?_, ?_⟩
      · obtain h | ⟨h1, h2, re, im, h⟩ := sendPayload_cases c f (i - f.h) z r
        · exact .inl (by rw [h])
        · exact .inr ⟨f, re, im, hf, h1, hk.1, by omega, h2, by rw [h]⟩
      · have hs : (sendPayload c f (i - f.h) z r).fe = r.fe ∧ (sendPayload c f (i - f.h) z r).hif = r.hif ∧
            (sendPayload c f (i - f.h) z r).fs = r.fs := by
          obtain h | ⟨-, -, _, _, h⟩ := sendPayload_cases c f (i - f.h) z r <;> rw [h] <;> exact ⟨rfl, rfl, rfl⟩
        obtain h | ⟨h1, h2, h3, h4, h⟩ := measureFine_cases c f (i - f.h) (sendPayload c f (i - f.h) z r)
        · exact .inl (by rw [h]; exact ⟨hs.1, hs.2.1⟩)
        · rw [hs.2.2] at h3
          refine .inr ⟨f, hf, hk.1, by omega, h3, h4, h1, by omega, ?_, ?_⟩ <;>
            · rw [h, FsRun.feRun, hs.1, hs.2.1, hs.2.2]
              rfl
    · exact ⟨.inl rfl, .inl ⟨rfl, rfl⟩⟩

/-- The fine measurement, where it is due (R227, R293). -/
theorem payloadStep_fine (c : FsCfg) (i : Nat) (z : Cx) (r : FsRun) {f : Frame} (hf : r.fs.frm = some f)
    (h1 : f.h + 90 ≤ i) (h2 : i < f.h + f.geom.len) (hp : 1 ≤ f.geom.pilotBlocks)
    (hi : i = f.h + pilotOffset f.geom.pilotBlocks + 35) (hl : r.fs.lock = .locked) (hh : f.hit = true) :
    (payloadStep c i z r).feRun = feFine c.ctx f.gold (pilotSymbols r.fs f) r.feRun := by
  have hc : ∀ q, (closeFrame f (i - f.h) q).feRun = q.feRun := by
    intro q
    unfold closeFrame
    split <;> rfl
  have hs : (sendPayload c f (i - f.h) z r).fs = r.fs ∧ (sendPayload c f (i - f.h) z r).feRun = r.feRun := by
    obtain h | ⟨-, -, _, _, h⟩ := sendPayload_cases c f (i - f.h) z r <;> rw [h] <;> exact ⟨rfl, rfl⟩
  unfold payloadStep
  simp only [hf]
  rw [if_pos ⟨h1, by omega⟩, hc]
  unfold measureFine
  rw [hs.1, if_pos ⟨hp, by omega, hl, hh⟩, hs.2]
  rfl

/-! ### Starting a frame (R289) -/

theorem startFrame_fs (l : Latch) (h : Nat) (p : Pls) (emit hit : Bool) (r : FsRun) :
    (startFrame l h p emit hit r).fs = { r.fs with
      frm := some ⟨h, p, emit, l.gold, hit, plInfo p⟩
      frameCount := if emit then r.fs.frameCount + 1 else r.fs.frameCount } := by
  unfold startFrame
  cases emit <;> rfl

theorem startFrame_out (l : Latch) (h : Nat) (p : Pls) (emit hit : Bool) (r : FsRun) :
    (startFrame l h p emit hit r).out =
      if emit then r.out ++ [frameTagBeat (modcodOf p) (shortOf p)] else r.out := by
  unfold startFrame
  cases emit <;> rfl

@[simp] theorem startFrame_fe (l : Latch) (h : Nat) (p : Pls) (emit hit : Bool) (r : FsRun) :
    (startFrame l h p emit hit r).fe = r.fe := by
  unfold startFrame
  cases emit <;> rfl

@[simp] theorem startFrame_hif (l : Latch) (h : Nat) (p : Pls) (emit hit : Bool) (r : FsRun) :
    (startFrame l h p emit hit r).hif = r.hif := by
  unfold startFrame
  cases emit <;> rfl

/-- Neither a frame's start nor the next expectation touches FE or the outbox. -/
theorem startFrame_feRun (l : Latch) (h : Nat) (p : Pls) (emit hit : Bool) (r : FsRun) :
    (expectNext h p (startFrame l h p emit hit r)).feRun = r.feRun := by
  simp [FsRun.feRun, expectNext]

/-! ### FE in a header evaluation (R299) -/

/-- FE and the outbox after a mode check and at most one further call, which is the whole of a header evaluation. -/
inductive FeStep (c : NumCtx) (l : Latch) (f g : FeRun) : Prop where
  | check (h : g = feModeCheck l.mode f)
  | coarse (p : Pls) (w : List Cx) (h : g = feCoarse c l p w (feModeCheck l.mode f))
  | reset (h : g = feReset (feModeCheck l.mode f))

theorem FeStep.oneWrite {c : NumCtx} {l : Latch} {f g : FeRun} (h : FeStep c l f g) : OneWrite f.hif g.hif := by
  have hm := feModeCheck_hif l.mode f
  have hmode := feModeCheck_mode l.mode f
  rcases h with rfl | ⟨p, w, rfl⟩ | rfl
  · exact hm.1
  · have hc := feCoarse_hif c l p w (feModeCheck l.mode f)
    cases hl : l.mode
    · rw [hl] at hmode hm
      rw [hl] at hc
      rw [hc.2 hmode]
      exact hm.1
    · rw [hl] at hm hc
      rw [hm.2 rfl] at hc
      exact hc.1
  · have hc := feReset_hif (feModeCheck l.mode f)
    cases hl : l.mode
    · rw [hl] at hmode hm
      rw [hl] at hc
      rw [hc.2 hmode]
      exact hm.1
    · rw [hl] at hm hc
      rw [hm.2 rfl] at hc
      exact hc.1

theorem FeStep.inv {c : NumCtx} {l : Latch} {f g : FeRun} (hl : l.period ≤ 65535) (h : FeStep c l f g)
    (hf : FeInv c.numerics f.fe) : FeInv c.numerics g.fe := by
  rcases h with rfl | ⟨p, w, rfl⟩ | rfl
  · exact hf.feModeCheck
  · exact hf.feModeCheck.feCoarse hl
  · exact hf.feModeCheck.feReset

/-! ### The header part (R279, R281) -/

/-- What a header part that is due can do.  Each case gives its cause, FS's state, the beats sent and FE's part; `h` is
the header's index and `p` its PLS. -/
inductive HeaderCase (c : FsCfg) (r q : FsRun) : Prop where
  /-- A search candidate with an invalid PLS (R274). -/
  | invalid (s : Nat) (hn : r.fs.nextHdr = none) (hs : s + 90 = r.fs.nIn)
      (hf : r.fs.searchFrom ≤ s) (hc : isCandidate c.ctx (latchOf c.csr).thresh r.fs s = true)
      (hv : invalidPls (decodePls c.ctx (r.fs.window s 90)) = true) (hfs : q.fs = r.fs) (hout : q.out = r.out)
      (hfe : q.feRun = feModeCheck (latchOf c.csr).mode r.feRun)
  /-- A search candidate (R279). -/
  | acquire (s : Nat) (p : Pls) (hn : r.fs.nextHdr = none) (hs : s + 90 = r.fs.nIn)
      (hf : r.fs.searchFrom ≤ s) (hc : isCandidate c.ctx (latchOf c.csr).thresh r.fs s = true) (hp : p = decodePls c.ctx (r.fs.window s 90))
      (hv : invalidPls p = false)
      (hfs : q.fs = { r.fs with
        hits := 1, lastPls := p, lastPlsValid := true, nextHdr := some (s + (plInfo p).len) })
      (hout : q.out = r.out)
      (hfe : q.feRun = feCoarse c.ctx (latchOf c.csr) p (r.fs.window s 90)
        (feModeCheck (latchOf c.csr).mode r.feRun))
  /-- `lose_frame` (R283): an invalid PLS, a miss in confirmation or the last miss allowed. -/
  | lose (h : Nat) (hn : r.fs.nextHdr = some h)
      (hw : invalidPls (expectedPls c (latchOf c.csr) r.fs h) = true ∨
        (isHit c.ctx (latchOf c.csr).thresh r.fs h = false ∧
          (r.fs.lock = .locked → c.csr.fsUnlockCount.toNat ≤ r.fs.misses + 1)))
      (hfe : q.feRun = feReset (feModeCheck (latchOf c.csr).mode r.feRun))
      (hfs : q.fs = { r.fs with
        lock := .unlocked, hits := 0, misses := 0, ccmPls := none, nextHdr := none, searchFrom := h + 1, frm := none })
      (hout : q.out = r.out)
  /-- A hit in confirmation that does not lock (R281). -/
  | confirm (h : Nat) (p : Pls) (hn : r.fs.nextHdr = some h) (hv : invalidPls p = false)
      (hp : p = expectedPls c (latchOf c.csr) r.fs h) (hh : isHit c.ctx (latchOf c.csr).thresh r.fs h = true)
      (hu : r.fs.lock = .unlocked) (hl : r.fs.hits + 1 < c.csr.fsLockCount.toNat)
      (hfs : q.fs = { r.fs with
        hits := r.fs.hits + 1, lastPls := p, lastPlsValid := true, nextHdr := some (h + (plInfo p).len) })
      (hout : q.out = r.out)
      (hfe : q.feRun = feCoarse c.ctx (latchOf c.csr) p (r.fs.window h 90)
        (feModeCheck (latchOf c.csr).mode r.feRun))
  /-- The hit that locks (R282). -/
  | lockOn (h : Nat) (p : Pls) (emit : Bool) (hn : r.fs.nextHdr = some h) (hv : invalidPls p = false)
      (hp : p = expectedPls c (latchOf c.csr) r.fs h) (hh : isHit c.ctx (latchOf c.csr).thresh r.fs h = true)
      (hu : r.fs.lock = .unlocked) (hl : c.csr.fsLockCount.toNat ≤ r.fs.hits + 1)
      (he : emit = emits (latchOf c.csr) p)
      (hfs : q.fs = { r.fs with
        hits := r.fs.hits + 1, lastPls := p, lastPlsValid := true, lock := .locked, misses := 0,
        ccmPls := if (latchOf c.csr).acm then r.fs.ccmPls else some p,
        frm := some ⟨h, p, emit, c.csr.fsGold.toNat, true, plInfo p⟩,
        frameCount := if emit then r.fs.frameCount + 1 else r.fs.frameCount,
        nextHdr := some (h + (plInfo p).len) })
      (hout : q.out = if emit then r.out ++ [frameTagBeat (modcodOf p) (shortOf p)] else r.out)
      (hfe : q.feRun = feCoarse c.ctx (latchOf c.csr) p (r.fs.window h 90)
        (feModeCheck (latchOf c.csr).mode r.feRun))
  /-- A hit while LOCKED (R284). -/
  | hit (h : Nat) (p : Pls) (emit : Bool) (hn : r.fs.nextHdr = some h) (hv : invalidPls p = false)
      (hp : p = expectedPls c (latchOf c.csr) r.fs h) (hh : isHit c.ctx (latchOf c.csr).thresh r.fs h = true)
      (hu : r.fs.lock = .locked) (he : emit = emits (latchOf c.csr) p)
      (hfs : q.fs = { r.fs with
        misses := 0, lastPls := p,
        frm := some ⟨h, p, emit, c.csr.fsGold.toNat, true, plInfo p⟩,
        frameCount := if emit then r.fs.frameCount + 1 else r.fs.frameCount,
        nextHdr := some (h + (plInfo p).len) })
      (hout : q.out = if emit then r.out ++ [frameTagBeat (modcodOf p) (shortOf p)] else r.out)
      (hfe : q.feRun = feCoarse c.ctx (latchOf c.csr) p (r.fs.window h 90)
        (feModeCheck (latchOf c.csr).mode r.feRun))
  /-- A miss while LOCKED that keeps the lock (R286). -/
  | miss (h : Nat) (p : Pls) (hn : r.fs.nextHdr = some h) (hv : invalidPls p = false)
      (hp : p = expectedPls c (latchOf c.csr) r.fs h) (hh : isHit c.ctx (latchOf c.csr).thresh r.fs h = false)
      (hu : r.fs.lock = .locked) (hm : r.fs.misses + 1 < c.csr.fsUnlockCount.toNat)
      (hfs : q.fs = { r.fs with
        misses := r.fs.misses + 1, frm := some ⟨h, p, false, c.csr.fsGold.toNat, false, plInfo p⟩,
        nextHdr := some (h + (plInfo p).len) })
      (hout : q.out = r.out) (hfe : q.feRun = feModeCheck (latchOf c.csr).mode r.feRun)

/-- Nothing is due in the header part: no expected header ends here, and the search finds no candidate. -/
def NotDue (c : FsCfg) (i : Nat) (r : FsRun) : Prop :=
  (∀ h, r.fs.nextHdr = some h → i ≠ h + 89) ∧
  (r.fs.nextHdr = none → 89 ≤ i → r.fs.searchFrom ≤ i - 89 →
    isCandidate c.ctx (latchOf c.csr).thresh r.fs (i - 89) = false)

/-- The header part does nothing, or is one of the cases with one call of FE after the mode check. -/
theorem headerStep_cases (c : FsCfg) (i : Nat) (r : FsRun) (hi : r.fs.nIn = i + 1) :
    (headerStep c i r = r ∧ NotDue c i r) ∨
    ((∀ h, r.fs.nextHdr = some h → i = h + 89) ∧ HeaderCase c r (headerStep c i r) ∧
      FeStep c.ctx (latchOf c.csr) r.feRun (headerStep c i r).feRun) := by
  unfold headerStep
  cases hn : r.fs.nextHdr with
  | none =>
    dsimp only
    unfold searchStep
    split
    next hs =>
      unfold searchAt
      dsimp only
      split
      next hcand =>
        refine .inr ⟨by simp, ?_⟩
        split
        next hv => exact ⟨.invalid (i - 89) hn (by omega) hs.2 hcand hv rfl rfl rfl, .check rfl⟩
        next hv =>
          simp only [FsRun.withFe_fs] at hv ⊢
          exact ⟨.acquire (i - 89) _ hn (by omega) hs.2 hcand rfl (Bool.eq_false_of_not_eq_true hv) rfl rfl rfl,
            .coarse _ _ rfl⟩
      next hcand => exact .inl ⟨rfl, by simp [hn], fun _ _ _ => Bool.eq_false_of_not_eq_true hcand⟩
    next hs => exact .inl ⟨rfl, by simp [hn], fun _ h1 h2 => absurd ⟨h1, h2⟩ hs⟩
  | some h =>
    dsimp only
    split
    next hih =>
      refine .inr ⟨by rintro _ ⟨⟩; exact hih, ?_⟩
      unfold evaluate
      dsimp only
      split
      next hv => exact ⟨.lose h hn (.inl hv) rfl rfl rfl, .reset rfl⟩
      next hv =>
        have hv := Bool.eq_false_of_not_eq_true hv
        simp only [FsRun.withFe_fs] at hv ⊢
        split
        next hu ht =>
          unfold confirmHit
          dsimp only
          split
          next hl =>
            refine ⟨.lockOn h (expectedPls c (latchOf c.csr) r.fs h) _ hn hv rfl ht hu hl rfl ?_ ?_ (startFrame_feRun ..),
              .coarse (expectedPls c (latchOf c.csr) r.fs h) (r.fs.window h 90) (startFrame_feRun ..)⟩
            · simp only [expectNext, startFrame_fs]
              rfl
            · simp only [expectNext, startFrame_out]
              rfl
          next hl =>
            exact ⟨.confirm h _ hn hv rfl ht hu (by simpa [coarseAt, latchOf] using hl) rfl rfl rfl, .coarse _ _ rfl⟩
        next hu ht => exact ⟨.lose h hn (.inr ⟨ht, by simp [hu]⟩) rfl rfl rfl, .reset rfl⟩
        next hu ht =>
          unfold lockedHit
          refine ⟨.hit h (expectedPls c (latchOf c.csr) r.fs h) _ hn hv rfl ht hu rfl ?_ ?_ (startFrame_feRun ..),
            .coarse (expectedPls c (latchOf c.csr) r.fs h) (r.fs.window h 90) (startFrame_feRun ..)⟩
          · simp only [expectNext, startFrame_fs]
            rfl
          · simp only [expectNext, startFrame_out]
            rfl
        next hu ht =>
          unfold lockedMiss
          dsimp only
          split
          next hm => exact ⟨.lose h hn (.inr ⟨ht, fun _ => hm⟩) rfl rfl rfl, .reset rfl⟩
          next hm =>
            refine ⟨.miss h (expectedPls c (latchOf c.csr) r.fs h) hn hv rfl ht hu (by simpa [latchOf] using hm) ?_ ?_
              (startFrame_feRun ..), .check (startFrame_feRun ..)⟩
            · simp only [expectNext, startFrame_fs]
              rfl
            · simp only [expectNext, startFrame_out]
              rfl
    next hne => exact .inl ⟨rfl, by rw [hn]; rintro _ ⟨⟩; exact hne, by simp [hn]⟩

/-! ### The invariant -/

/-- FS after the payload part of a step: its invariant, but for the header that may be due. -/
structure FsMid (fs : FsState) : Prop where
  count    : fs.r.length = fs.nIn
  search   : fs.searchFrom ≤ fs.nIn
  idle     : fs.nextHdr = none → fs.lock = .unlocked ∧ fs.hits = 0
  expected : ∀ h, fs.nextHdr = some h → fs.nIn ≤ h + 90 ∧ 1 ≤ fs.hits ∧ fs.lastPlsValid = true
  unlocked : fs.lock = .unlocked → fs.frm = none ∧ fs.misses = 0 ∧ fs.ccmPls = none
  locked   : fs.lock = .locked → 2 ≤ fs.hits
  frame    : ∀ f, fs.frm = some f → FrameInv f fs.nIn ∧ fs.nextHdr = some (f.h + f.geom.len)

/-- The payload part keeps the invariant up to the header that may be due. -/
theorem FsMid.payloadStep {c : FsCfg} {i : Nat} {z : Cx} {r : FsRun} {fs : FsState} (h : FsInv fs)
    (hr : r.fs = fs.push z) (hi : fs.nIn = i) : FsMid (payloadStep c i z r).fs := by
  have hb : ∀ fr, (∀ f, fr = some f → FrameInv f (i + 1) ∧ fs.nextHdr = some (f.h + f.geom.len)) →
      (fs.lock = .unlocked → fr = none) → FsMid { fs.push z with frm := fr } := by
    intro fr hfr hun
    refine ⟨?_, ?_, h.idle, ?_, ?_, h.locked, ?_⟩
    · simp [h.count]
    · have := h.search
      simp only [FsState.push]
      omega
    · intro k hk
      have := h.expected k hk
      exact ⟨by simp only [FsState.push]; omega, this.2⟩
    · intro hu
      exact ⟨hun hu, (h.unlocked hu).2⟩
    · intro f hf
      simpa [FsState.push, hi] using hfr f hf
  cases hf : fs.frm with
  | none =>
    obtain he | ⟨f, hf', -⟩ := payloadStep_fs c i z r
    · rw [he, hr]
      exact hb fs.frm (by simp [hf]) (by simp [hf])
    · simp [hr, hf] at hf'
  | some f =>
    have hF := h.frame f hf
    have hs := hF.1.started
    have hu := hF.1.unended
    rw [payloadStep_frm c i z r (f := f) (by simp [hr, hf]) (by omega), hr]
    apply hb
    · intro f' hf'
      split at hf'
      · cases hf'
      next hne =>
        cases hf'
        refine ⟨⟨hF.1.geometry, hF.1.valid, by omega, by omega, hF.1.emitted⟩, hF.2⟩
    · intro hl
      rw [(h.unlocked hl).1] at hf
      cases hf

/-- The header part makes it whole again. -/
theorem FsInv.headerStep {c : FsCfg} {i : Nat} {r : FsRun} (hc : 2 ≤ c.csr.fsLockCount.toNat)
    (hi : r.fs.nIn = i + 1) (h : FsMid r.fs) : FsInv (headerStep c i r).fs := by
  obtain ⟨he, hne⟩ | ⟨hdue, hcase, -⟩ := headerStep_cases c i r hi
  · rw [he]
    refine ⟨h.count, h.search, h.idle, ?_, h.unlocked, h.locked, h.frame⟩
    intro k hk
    have hx := h.expected k hk
    have := hne.1 k hk
    exact ⟨by omega, hx.2⟩
  · have hF : ∀ (k : Nat) (p : Pls) (e hit : Bool), i = k + 89 → invalidPls p = false →
        (e = true → hit = true ∧ modcodOf p ≠ 0) →
        FrameInv ⟨k, p, e, c.csr.fsGold.toNat, hit, plInfo p⟩ r.fs.nIn := by
      intro k p e hit hk hv he
      have := plInfo_len_ge p
      exact ⟨rfl, hv, by simp only; omega, by simp only; omega, he⟩
    have hE : ∀ p, emits (latchOf c.csr) p = true → true = true ∧ modcodOf p ≠ 0 := by
      intro p hp
      simp only [emits, Bool.and_eq_true, decide_eq_true_eq] at hp
      exact ⟨rfl, hp.2⟩
    cases hcase with
    | invalid s hn hs hsf hc hv hfs hout =>
      rw [hfs]
      exact ⟨h.count, h.search, h.idle, by simp [hn], h.unlocked, h.locked, h.frame⟩
    | acquire s p hn hs hsf hc hp hv hfs hout =>
      rw [hfs]
      have hu := h.idle hn
      have hl := plInfo_len_ge p
      refine ⟨h.count, h.search, by simp, ?_, h.unlocked, by simp [hu.1], ?_⟩
      · rintro k ⟨⟩
        exact ⟨by simp only; omega, by simp, rfl⟩
      · intro f hf
        rw [(h.unlocked hu.1).1] at hf
        cases hf
    | lose k hn hw hfe hfs hout =>
      rw [hfs]
      have := hdue k hn
      exact ⟨h.count, by simp only; omega, by simp, by simp, by simp, by simp, by simp⟩
    | confirm k p hn hv hp hh hu hl hfs hout =>
      rw [hfs]
      have := hdue k hn
      have hlen := plInfo_len_ge p
      refine ⟨h.count, h.search, by simp, ?_, h.unlocked, by simp [hu], ?_⟩
      · rintro k' ⟨⟩
        exact ⟨by simp only; omega, by simp, rfl⟩
      · intro f hf
        rw [(h.unlocked hu).1] at hf
        cases hf
    | lockOn k p e hn hv hp hh hu hl he hfs hout =>
      rw [hfs]
      have := hdue k hn
      have hlen := plInfo_len_ge p
      refine ⟨h.count, h.search, by simp, ?_, by simp, ?_, ?_⟩
      · rintro k' ⟨⟩
        exact ⟨by simp only; omega, by simp, rfl⟩
      · intro _
        simp only
        omega
      · rintro f ⟨⟩
        exact ⟨hF k p e true this hv (by rw [he]; exact hE p), rfl⟩
    | hit k p e hn hv hp hh hu he hfs hout =>
      rw [hfs]
      have := hdue k hn
      have hlen := plInfo_len_ge p
      have hx := h.expected k hn
      refine ⟨h.count, h.search, by simp, ?_, by simp [hu], h.locked, ?_⟩
      · rintro k' ⟨⟩
        exact ⟨by simp only; omega, hx.2.1, hx.2.2⟩
      · rintro f ⟨⟩
        exact ⟨hF k p e true this hv (by rw [he]; exact hE p), rfl⟩
    | miss k p hn hv hp hh hu hm hfs hout =>
      rw [hfs]
      have := hdue k hn
      have hlen := plInfo_len_ge p
      have hx := h.expected k hn
      refine ⟨h.count, h.search, by simp, ?_, by simp [hu], h.locked, ?_⟩
      · rintro k' ⟨⟩
        exact ⟨by simp only; omega, hx.2.1, hx.2.2⟩
      · rintro f ⟨⟩
        exact ⟨hF k p false false this hv (by simp), rfl⟩

/-- The symbols received are counted before the header part. -/
theorem payloadStep_nIn (c : FsCfg) (i : Nat) (z : Cx) (r : FsRun) : (payloadStep c i z r).fs.nIn = r.fs.nIn := by
  obtain h | ⟨f, -, -, -, h⟩ := payloadStep_fs c i z r <;> rw [h]

/-- One symbol keeps FS's invariant. -/
theorem fsSampleRun_inv {c : FsCfg} {z : Cx} {r : FsRun} (hc : 2 ≤ c.csr.fsLockCount.toNat) (h : FsInv r.fs) :
    FsInv (fsSampleRun c z r).fs := by
  unfold fsSampleRun
  exact FsInv.headerStep hc (by rw [payloadStep_nIn]; rfl) (FsMid.payloadStep h rfl rfl)

/-- A fine measurement and a header never fall in one step (R298, 60_exceptions.md rule R367), so that one symbol
writes the outbox at most once and calls FE once after the mode check. -/
theorem fsSampleRun_fe {c : FsCfg} {z : Cx} {r : FsRun} (h : FsInv r.fs) :
    ((fsSampleRun c z r).fe = r.fe ∧ (fsSampleRun c z r).hif = r.hif) ∨
    (∃ f g b, r.fs.frm = some f ∧ r.fs.lock = .locked ∧ f.hit = true ∧ 1 ≤ f.geom.pilotBlocks ∧
      r.fs.nIn = f.h + pilotOffset f.geom.pilotBlocks + 35 ∧
      (fsSampleRun c z r).feRun = feFine c.ctx g b r.feRun) ∨
    ((∀ k, r.fs.nextHdr = some k → r.fs.nIn = k + 89) ∧
      FeStep c.ctx (latchOf c.csr) r.feRun (fsSampleRun c z r).feRun) := by
  unfold fsSampleRun
  dsimp only
  have hi : (payloadStep c r.fs.nIn z { r with fs := r.fs.push z }).fs.nIn = r.fs.nIn + 1 := by
    rw [payloadStep_nIn]
    rfl
  have hnext : (payloadStep c r.fs.nIn z { r with fs := r.fs.push z }).fs.nextHdr = r.fs.nextHdr := by
    obtain h | ⟨f, -, -, -, h⟩ := payloadStep_fs c r.fs.nIn z { r with fs := r.fs.push z } <;> rw [h] <;> rfl
  obtain ⟨he, -⟩ | ⟨hdue, -, hfe⟩ := headerStep_cases c r.fs.nIn (payloadStep c r.fs.nIn z { r with fs := r.fs.push z }) hi
  · rw [he]
    obtain hp | ⟨f, hf, h1, h2, h3, h4, h5, h6, h7, h8⟩ := (payloadStep_out c r.fs.nIn z { r with fs := r.fs.push z }).2
    · exact .inl hp
    · refine .inr (.inl ⟨f, f.gold, pilotSymbols (r.fs.push z) f, hf, h3, h4, h5, h6, ?_⟩)
      rw [FsRun.feRun, h7, h8]
      rfl
  · rw [hnext] at hdue
    refine .inr (.inr ⟨hdue, ?_⟩)
    obtain hp | ⟨f, hf, h1, h2, -⟩ := (payloadStep_out c r.fs.nIn z { r with fs := r.fs.push z }).2
    · have hrun : (payloadStep c r.fs.nIn z { r with fs := r.fs.push z }).feRun = r.feRun := by
        rw [FsRun.feRun, hp.1, hp.2]
        rfl
      rwa [hrun] at hfe
    · exfalso
      have hF := h.frame f hf
      have := hdue _ hF.2
      omega

/-- What one symbol sends: nothing, the payload symbol of a frame being sent, or the tag of a frame that starts; and
`frame_count` counts the tags (R290, R293, R294, R303). -/
inductive FsSent (c : FsCfg) (r q : FsRun) : Prop where
  | nothing (ho : q.out = r.out) (hc : q.fs.frameCount = r.fs.frameCount)
  | payload (f : Frame) (re im : Word) (hf : r.fs.frm = some f) (he : f.emit = true)
      (hi : f.h + 90 ≤ r.fs.nIn ∧ r.fs.nIn < f.h + f.geom.len)
      (hk : (payloadIndex f.geom (r.fs.nIn - f.h)).isSome = true)
      (ho : q.out = r.out ++ [sampleBeat re im]) (hc : q.fs.frameCount = r.fs.frameCount)
  | tag (k : Nat) (p : Pls) (hn : r.fs.nextHdr = some k) (hi : r.fs.nIn = k + 89) (hv : invalidPls p = false)
      (he : emits (latchOf c.csr) p = true)
      (hf : q.fs.frm = some ⟨k, p, true, c.csr.fsGold.toNat, true, plInfo p⟩) (hl : q.fs.lock = .locked)
      (ho : q.out = r.out ++ [frameTagBeat (modcodOf p) (shortOf p)])
      (hc : q.fs.frameCount = r.fs.frameCount + 1)

theorem fsSampleRun_sent {c : FsCfg} {z : Cx} {r : FsRun} (h : FsInv r.fs) : FsSent c r (fsSampleRun c z r) := by
  unfold fsSampleRun
  dsimp only
  have hfs := payloadStep_fs c r.fs.nIn z { r with fs := r.fs.push z }
  have hi : (payloadStep c r.fs.nIn z { r with fs := r.fs.push z }).fs.nIn = r.fs.nIn + 1 := by
    rw [payloadStep_nIn]
    rfl
  have hnext : (payloadStep c r.fs.nIn z { r with fs := r.fs.push z }).fs.nextHdr = r.fs.nextHdr ∧
      (payloadStep c r.fs.nIn z { r with fs := r.fs.push z }).fs.frameCount = r.fs.frameCount := by
    obtain h | ⟨f, -, -, -, h⟩ := hfs <;> rw [h] <;> exact ⟨rfl, rfl⟩
  have hout := (payloadStep_out c r.fs.nIn z { r with fs := r.fs.push z }).1
  have hdone : ∀ q : FsRun, q.out = (payloadStep c r.fs.nIn z { r with fs := r.fs.push z }).out →
      q.fs.frameCount = r.fs.frameCount → FsSent c r q := by
    intro q hq hqc
    obtain ho | ⟨f, re, im, h1, h2, h3, h4, h5, h6⟩ := hout
    · exact .nothing (hq.trans ho) hqc
    · exact .payload f re im h1 h2 ⟨h3, h4⟩ h5 (hq.trans h6) hqc
  obtain ⟨he, -⟩ | ⟨hdue, hcase, -⟩ :=
    headerStep_cases c r.fs.nIn (payloadStep c r.fs.nIn z { r with fs := r.fs.push z }) hi
  · rw [he]
    exact hdone _ rfl hnext.2
  · rw [hnext.1] at hdue
    have htag : ∀ k, r.fs.nextHdr = some k →
        (payloadStep c r.fs.nIn z { r with fs := r.fs.push z }).out = r.out := by
      intro k hk
      obtain ho | ⟨f, re, im, h1, h2, h3, h4, h5, h6⟩ := hout
      · exact ho
      · exfalso
        have hF := h.frame f h1
        have := hdue _ hF.2
        omega
    cases hcase with
    | invalid s hn hs hsf hc hv hfs' hout' => exact hdone _ hout' (by rw [hfs', hnext.2])
    | acquire s p hn hs hsf hc hp hv hfs' hout' => exact hdone _ hout' (by rw [hfs']; exact hnext.2)
    | lose k hn hw hfe hfs' hout' => exact hdone _ hout' (by rw [hfs']; exact hnext.2)
    | confirm k p hn hv hp hh hu hl hfs' hout' => exact hdone _ hout' (by rw [hfs']; exact hnext.2)
    | miss k p hn hv hp hh hu hm hfs' hout' => exact hdone _ hout' (by rw [hfs']; exact hnext.2)
    | lockOn k p e hn hv hp hh hu hl he hfs' hout' =>
      rw [hnext.1] at hn
      cases e
      · exact hdone _ hout' (by rw [hfs']; exact hnext.2)
      · refine .tag k p hn (hdue k hn) hv he.symm (by rw [hfs']) (by rw [hfs']) ?_ ?_
        · rw [hout', if_pos rfl, htag k hn]
        · rw [hfs', if_pos rfl, hnext.2]
    | hit k p e hn hv hp hh hu he hfs' hout' =>
      rw [hnext.1] at hn
      cases e
      · exact hdone _ hout' (by rw [hfs']; exact hnext.2)
      · refine .tag k p hn (hdue k hn) hv he.symm (by rw [hfs']) (by rw [hfs']; exact hu) ?_ ?_
        · rw [hout', if_pos rfl, htag k hn]
        · rw [hfs', if_pos rfl, hnext.2]

theorem fsSampleRun_oneWrite {c : FsCfg} {z : Cx} {r : FsRun} (h : FsInv r.fs) :
    OneWrite r.hif (fsSampleRun c z r).hif := by
  obtain ⟨-, h⟩ | ⟨f, g, b, -, -, -, -, -, h⟩ | ⟨-, h⟩ := fsSampleRun_fe (c := c) (z := z) h
  · exact .inl h
  · have := (feFine_hif c.ctx g b r.feRun).1
    rw [← h] at this
    exact this
  · exact h.oneWrite

theorem fsSampleRun_feInv {c : FsCfg} {z : Cx} {r : FsRun} (h : FsInv r.fs)
    (hc : c.csr.fsFreqPeriod.toNat ≤ 65535) (hf : FeInv c.ctx.numerics r.fe) :
    FeInv c.ctx.numerics (fsSampleRun c z r).fe := by
  obtain ⟨h, -⟩ | ⟨f, g, b, -, -, -, -, -, h⟩ | ⟨-, h⟩ := fsSampleRun_fe (c := c) (z := z) h
  · rwa [h]
  · have := FeInv.feFine (c := c.ctx) (g := g) (b := b) (r := r.feRun) hf
    rw [← h] at this
    exact this
  · exact h.inv hc hf

end Sys2Proof.Machine
end

