-- ==== Sys2Proof/Laws/Header.lean ====
section
/-!
SUPPORT. The scrambling sequences as iterated steps of their registers (43_frame_sync.md rule R300), and the reception
of a noise-free header (rules R263 to R273) under the reference arithmetic.
-/

namespace Sys2Proof.Machine

/-! ### Linear maps of registers -/

/-- A map of registers that respects ⊕. -/
def Additive18 (f : Lfsr → Lfsr) : Prop := ∀ r s, f (r ^^^ s) = f r ^^^ f s

theorem Additive18.zero {f : Lfsr → Lfsr} (h : Additive18 f) : f 0 = 0 := by
  have := h 0 0
  rwa [BitVec.xor_self, BitVec.xor_self] at this

theorem xor_swap (a b c : Lfsr) : a ^^^ (b ^^^ c) = b ^^^ (a ^^^ c) := by
  rw [← BitVec.xor_assoc, ← BitVec.xor_assoc, BitVec.xor_comm a b]

/-- A register is the ⊕ of its set bits. -/
theorem additive_ext {f g : Lfsr → Lfsr} (hf : Additive18 f) (hg : Additive18 g)
    (h : ∀ i, i < 18 → f (BitVec.twoPow 18 i) = g (BitVec.twoPow 18 i)) (r : Lfsr) : f r = g r := by
  have key : ∀ n, n ≤ 18 → ∀ r : Lfsr, (∀ j, n ≤ j → r.getLsbD j = false) → f r = g r := by
    intro n
    induction n with
    | zero =>
      intro _ r hr
      have : r = 0 := BitVec.eq_of_getLsbD_eq fun j _ => by rw [hr j (Nat.zero_le j)]; simp
      rw [this, hf.zero, hg.zero]
    | succ n ih =>
      intro hn r hr
      cases hb : r.getLsbD n with
      | false =>
        refine ih (by omega) r fun j hj => ?_
        obtain rfl | hj := Nat.eq_or_lt_of_le hj
        · exact hb
        · exact hr j hj
      | true =>
        have e : r = (r ^^^ BitVec.twoPow 18 n) ^^^ BitVec.twoPow 18 n := by
          rw [BitVec.xor_assoc, BitVec.xor_self, BitVec.xor_zero]
        rw [e, hf, hg, h n (by omega), ih (by omega) _ fun j hj => ?_]
        rw [BitVec.getLsbD_xor, BitVec.getLsbD_twoPow]
        obtain rfl | hj := Nat.eq_or_lt_of_le hj
        · simp [hb]; omega
        · rw [hr j hj]
          simp
          omega
  exact key 18 (le_refl _) r fun j hj => BitVec.getLsbD_of_ge _ _ hj

/-- `applyMap` from bit `k` on. -/
theorem applyMap_fold (m : List Lfsr) : ∀ (k : Nat) (acc r : Lfsr),
    (m.zipIdx k).foldl (fun acc p => if r.getLsbD p.2 then acc ^^^ p.1 else acc) acc =
      acc ^^^ (m.zipIdx k).foldl (fun acc p => if r.getLsbD p.2 then acc ^^^ p.1 else acc) 0 := by
  induction m with
  | nil => intro k acc r; simp
  | cons a m ih =>
    intro k acc r
    simp only [List.zipIdx_cons, List.foldl_cons]
    rw [ih, ih (k + 1) (if r.getLsbD k then (0 : Lfsr) ^^^ a else 0)]
    split <;> simp [BitVec.xor_assoc]

theorem applyMap_additive (m : LfsrMap) : Additive18 (applyMap m) := by
  intro r s
  unfold applyMap
  suffices ∀ (m : List Lfsr) (k : Nat),
      (m.zipIdx k).foldl (fun acc p => if (r ^^^ s).getLsbD p.2 then acc ^^^ p.1 else acc) 0 =
        (m.zipIdx k).foldl (fun acc p => if r.getLsbD p.2 then acc ^^^ p.1 else acc) 0 ^^^
        (m.zipIdx k).foldl (fun acc p => if s.getLsbD p.2 then acc ^^^ p.1 else acc) 0 from this m 0
  intro m
  induction m with
  | nil => intro k; simp
  | cons a m ih =>
    intro k
    simp only [List.zipIdx_cons, List.foldl_cons]
    rw [applyMap_fold, applyMap_fold _ _ _ r, applyMap_fold _ _ _ s, ih]
    rw [BitVec.getLsbD_xor]
    generalize List.foldl (fun acc p => if r.getLsbD p.2 then acc ^^^ p.1 else acc) 0 (m.zipIdx (k + 1)) = x
    generalize List.foldl (fun acc p => if s.getLsbD p.2 then acc ^^^ p.1 else acc) 0 (m.zipIdx (k + 1)) = y
    cases r.getLsbD k <;> cases s.getLsbD k <;> simp [BitVec.xor_assoc, xor_swap a x]

/-- The map of a list takes the `i`-th unit register to the list's `i`-th entry. -/
theorem applyMap_twoPow (m : LfsrMap) (hm : m.length = 18) (i : Nat) (hi : i < 18) :
    applyMap m (BitVec.twoPow 18 i) = m.getD i 0 := by
  unfold applyMap
  suffices ∀ (m : List Lfsr) (k : Nat), k ≤ i → k + m.length ≤ 18 →
      (m.zipIdx k).foldl (fun acc p => if (BitVec.twoPow 18 i).getLsbD p.2 then acc ^^^ p.1 else acc) 0 =
        m.getD (i - k) 0 by
    simpa using this m 0 (Nat.zero_le _) (by omega)
  intro m
  induction m with
  | nil => intro k _ _; simp
  | cons a m ih =>
    intro k hk hl
    simp only [List.zipIdx_cons, List.foldl_cons, List.length_cons] at *
    rw [applyMap_fold]
    obtain rfl | hk := Nat.eq_or_lt_of_le hk
    · have hz : ∀ (m : List Lfsr) (k' : Nat), k < k' → (m.zipIdx k').foldl
          (fun acc p => if (BitVec.twoPow 18 k).getLsbD p.2 then acc ^^^ p.1 else acc) (0 : Lfsr) = 0 := by
        intro m
        induction m with
        | nil => intro k' _; simp
        | cons b m ihm =>
          intro k' hk'
          simp only [List.zipIdx_cons, List.foldl_cons]
          rw [if_neg (by rw [BitVec.getLsbD_twoPow]; simp; omega)]
          exact ihm (k' + 1) (by omega)
      rw [hz m (k + 1) (by omega), BitVec.getLsbD_twoPow]
      simp [hi]
    · rw [ih (k + 1) (by omega) (by omega), BitVec.getLsbD_twoPow]
      have : i - k = (i - (k + 1)) + 1 := by omega
      rw [this]
      have hne : ¬ i = k := by omega
      simp [hne]

theorem mapOf_apply {f : Lfsr → Lfsr} (hf : Additive18 f) (r : Lfsr) : applyMap (mapOf f) r = f r :=
  additive_ext (applyMap_additive _) hf
    (fun i hi => by rw [applyMap_twoPow _ (by simp [mapOf]) i hi]; simp [mapOf, hi]) r

theorem squareMap_apply {m : LfsrMap} (hm : m.length = 18) (r : Lfsr) :
    applyMap (squareMap m) r = applyMap m (applyMap m r) := by
  refine additive_ext (g := fun r => applyMap m (applyMap m r)) (applyMap_additive _) (fun r s => ?_) (fun i hi => ?_) r
  · dsimp only
    rw [applyMap_additive m r s, applyMap_additive m]
  · rw [applyMap_twoPow _ (by simp [squareMap, hm]) i hi, applyMap_twoPow m hm i hi]
    simp [squareMap, hm, hi]

/-- Jumping by the powers of two of a map is iterating it (assumption log 17). -/
theorem jump_powerMaps {f : Lfsr → Lfsr} : ∀ (n : Nat) (m : LfsrMap) (k : Nat), m.length = 18 →
    (∀ r, applyMap m r = f^[k] r) → ∀ i, i < 2 ^ n → ∀ r, jump (powerMaps n m) i r = f^[k * i] r := by
  intro n
  induction n with
  | zero =>
    intro m k _ _ i hi r
    have : i = 0 := by simpa using hi
    simp [this, powerMaps, jump]
  | succ n ih =>
    intro m k hm hk i hi r
    rw [powerMaps, jump, ih (squareMap m) (k + k) (by simp [squareMap, hm]) (fun r => ?_) (i / 2) (by omega)]
    · split
      next h1 =>
        rw [hk, ← Function.iterate_add_apply]
        congr 1
        have : i = 2 * (i / 2) + 1 := by omega
        conv_rhs => rw [this]
        ring
      next h0 =>
        congr 1
        have : i = 2 * (i / 2) := by omega
        conv_rhs => rw [this]
        ring
    · rw [squareMap_apply hm, hk, hk, ← Function.iterate_add_apply]

/-! ### The sequences (R300) -/

/-- The bits of a step: each moves down by one place. -/
theorem xStep_bit (r : Lfsr) (j : Nat) :
    (xStep r).getLsbD j = if j < 17 then r.getLsbD (j + 1) else (decide (j = 17) && (r.getLsbD 7 ^^ r.getLsbD 0)) := by
  unfold xStep
  rw [BitVec.getLsbD_append]
  split
  · simp [*, Nat.add_comm]
  · rw [BitVec.getLsbD_ofBool]
    congr 1
    simp
    omega

theorem yStep_bit (r : Lfsr) (j : Nat) :
    (yStep r).getLsbD j = if j < 17 then r.getLsbD (j + 1)
      else (decide (j = 17) && (r.getLsbD 10 ^^ r.getLsbD 7 ^^ r.getLsbD 5 ^^ r.getLsbD 0)) := by
  unfold yStep
  rw [BitVec.getLsbD_append]
  split
  · simp [*, Nat.add_comm]
  · rw [BitVec.getLsbD_ofBool]
    congr 1
    simp
    omega

theorem xStep_additive : Additive18 xStep := by
  intro r s
  apply BitVec.eq_of_getLsbD_eq
  intro j _
  simp only [xStep_bit, BitVec.getLsbD_xor]
  split
  · rfl
  · cases decide (j = 17) <;> simp [Bool.xor_left_comm]

theorem yStep_additive : Additive18 yStep := by
  intro r s
  apply BitVec.eq_of_getLsbD_eq
  intro j _
  simp only [yStep_bit, BitVec.getLsbD_xor]
  split
  · rfl
  · cases decide (j = 17) <;> simp [Bool.xor_left_comm]

theorem xSeq_eq (i : Nat) (hi : i < 2 ^ 18) : xSeq i = (xStep^[i] 1).getLsbD 0 := by
  unfold xSeq xMaps
  rw [jump_powerMaps (f := xStep) 18 _ 1 (by simp [mapOf]) (fun r => mapOf_apply xStep_additive r) i hi, one_mul]

theorem ySeq_eq (i : Nat) (hi : i < 2 ^ 18) : ySeq i = (yStep^[i] (BitVec.allOnes 18)).getLsbD 0 := by
  unfold ySeq yMaps
  rw [jump_powerMaps (f := yStep) 18 _ 1 (by simp [mapOf]) (fun r => mapOf_apply yStep_additive r) i hi, one_mul]

/-- Bit `j` of a register is bit 0 after `j` more steps, when a step moves bits down. -/
theorem iterate_bit {f : Lfsr → Lfsr} (hf : ∀ r j, j < 17 → (f r).getLsbD j = r.getLsbD (j + 1)) :
    ∀ j, j < 18 → ∀ r, r.getLsbD j = (f^[j] r).getLsbD 0 := by
  intro j
  induction j with
  | zero => intro _ r; rfl
  | succ j ih =>
    intro hj r
    rw [Function.iterate_succ_apply, ← ih (by omega), hf r j (by omega)]

/-! ### A noise-free header (R263 to R273) -/

/-- The 90 symbols of a header, each times √2 (assumption log 18). -/
def cleanHeader (v : Pls) : List CQ := (List.range 90).map (headerSymbol v)

/-- The SOF is the same in every header. -/
theorem cleanHeader_sof (v : Pls) : (cleanHeader v).take 26 = (List.range 26).map sofSymbol := by
  rw [cleanHeader, ← List.map_take, List.take_range]
  apply List.map_congr_left
  intro k hk
  have hk : k < 26 := by simpa using hk
  simp [headerSymbol, headerBit, sofSymbol, hk]

/-- The two angles that a receiver removes are zero. -/
theorem sofD_clean (v : Pls) : sofD (cleanHeader v) = ⟨50, 0⟩ := by
  unfold sofD
  rw [cleanHeader_sof]
  decide +kernel

theorem sofE_clean (v : Pls) : sofE (cleanHeader v) = 50 := by
  unfold sofE
  rw [cleanHeader_sof]
  decide +kernel

theorem mul_one_cq (z : CQ) : z.mul ⟨1, 0⟩ = z := by
  obtain ⟨a, b⟩ := z
  simp [CQ.mul]

theorem cisTurns_zero : cisTurns 0 = ⟨1, 0⟩ := by decide +kernel

theorem argTurns_pos {q : Rat} (h : 0 < q) : argTurns ⟨q, 0⟩ = 0 := by
  have h1 : wrapf 0 = 0 := by decide +kernel
  have h2 : ¬ q < 0 := not_lt.mpr h.le
  simp [argTurns, h.ne', h2, octantTurns, h1]

theorem derotated_clean (v : Pls) : derotated (cleanHeader v) = cleanHeader v := by
  unfold derotated
  have h1 : argTurns (sofD (cleanHeader v)) = 0 := by rw [sofD_clean]; exact argTurns_pos (by norm_num)
  have h2 : ((cleanHeader v).mapIdx fun k r => r.mul (cisTurns (-(0 * (k : Rat))))) = cleanHeader v := by
    apply List.ext_getElem <;> simp [cisTurns_zero, mul_one_cq]
  dsimp only
  rw [h1, h2]
  have h3 : CQ.sum (((cleanHeader v).take 26).mapIdx fun k z => z.mul (sofSymbol k).conj) = ⟨52, 0⟩ := by
    rw [cleanHeader_sof]
    decide +kernel
  rw [h3, argTurns_pos (by norm_num)]
  simp [cisTurns_zero, mul_one_cq]

/-- The soft values of a noise-free header: ±√2 · √2 (R272). -/
theorem softFormula_clean (v : Pls) :
    softFormula (cleanHeader v) = (List.range 64).map fun m => if plscBit v m then -2 else 2 := by
  unfold softFormula
  rw [derotated_clean]
  have hs : ∀ k y, ((bpskSymbol k y).mul (bpskUnit k).conj).re = if y then -2 else 2 := by
    intro k y
    unfold bpskSymbol bpskUnit
    by_cases hk : k % 2 = 0 <;> cases y <;> simp [hk, CQ.mul, CQ.conj, CQ.scale] <;> norm_num
  have hd : (cleanHeader v).drop 26 = (List.range 64).map fun m => headerSymbol v (m + 26) := by
    apply List.ext_getElem
    · simp [cleanHeader]
    · intro i h1 h2
      simp [cleanHeader, Nat.add_comm]
  rw [hd]
  apply List.ext_getElem
  · simp
  · intro i h1 h2
    simp [headerSymbol, headerBit, hs]

/-- The decision keeps a value that no other reaches, once it is among those compared (R273). -/
theorem argmaxFrom_unique {score : Pls → Num} {v : Pls} (h : ∀ u, u ≠ v → (score v).gt (score u) = true)
    (h' : ∀ u, (score u).gt (score v) = false) :
    ∀ (l : List Pls) (b : Pls), b = v ∨ v ∈ l → argmaxFrom score b l = v := by
  intro l
  induction l with
  | nil => intro b hb; simpa [argmaxFrom] using hb
  | cons a l ih =>
    intro b hb
    rw [argmaxFrom]
    apply ih
    by_cases hbv : b = v
    · subst hbv
      left
      rw [if_neg (by simp [h' a])]
    · obtain hb | hb := hb
      · exact absurd hb hbv
      · obtain rfl | hb := List.mem_cons.mp hb
        · left
          rw [if_pos (h b hbv)]
        · exact .inr hb

/-- Among equal scores the first value compared stays (R273). -/
theorem argmaxFrom_flat {score : Pls → Num} (h : ∀ u v, (score u).gt (score v) = false) :
    ∀ (l : List Pls) (b : Pls), argmaxFrom score b l = b := by
  intro l
  induction l with
  | nil => intro b; rfl
  | cons a l ih => intro b; rw [argmaxFrom, if_neg (by simp [h]), ih]

/-- Soft values that are all 0 decide for PLS 0 (R273). -/
theorem decodePls_flat {k n : Nat} {w : List Cx} (h : softValues ⟨.reference, k⟩ w = List.replicate n (.fin 0)) :
    decodePls ⟨.reference, k⟩ w = 0 := by
  have hz : ∀ v : Pls, sumRat ((List.replicate n (0 : Rat)).mapIdx fun m a => if plscBit v m then -a else a) = 0 := by
    intro v
    have : ((List.replicate n (0 : Rat)).mapIdx fun m a => if plscBit v m then -a else a) = List.replicate n 0 := by
      apply List.ext_getElem <;> simp
    rw [this]
    clear h this
    induction n with
    | zero => rfl
    | succ n ih => simpa [sumRat, List.replicate_succ] using ih
  have hx : (⟨.reference, k⟩ : NumCtx).exact (List.replicate n (.fin 0)) = true := by
    simp [NumCtx.exact, Num.isFin]
  refine argmaxFrom_flat (fun u v => ?_) _ _
  simp [h, plscScore, numNum, plscMetric, hz, hx, Num.gt, Num.val]

/-- A PLS value from seven of its transmitted bits: no two values have the same code word (R266). -/
theorem plscBit_recovers : ∀ v : Pls,
    v = BitVec.ofBool (plscBit v 2 ^^ plscBit v 0 ^^ true) ++ BitVec.ofBool (plscBit v 4 ^^ plscBit v 0 ^^ false) ++
      BitVec.ofBool (plscBit v 8 ^^ plscBit v 0 ^^ true) ++ BitVec.ofBool (plscBit v 16 ^^ plscBit v 0 ^^ true) ++
      BitVec.ofBool (plscBit v 32 ^^ plscBit v 0 ^^ false) ++ BitVec.ofBool (plscBit v 0 ^^ false) ++
      BitVec.ofBool (plscBit v 1 ^^ plscBit v 0 ^^ true) := by
  decide +kernel

theorem plscBit_injective {u v : Pls} (h : ∀ m, m < 64 → plscBit u m = plscBit v m) : u = v := by
  rw [plscBit_recovers u, plscBit_recovers v]
  simp only [h 0 (by omega), h 1 (by omega), h 2 (by omega), h 4 (by omega), h 8 (by omega), h 16 (by omega),
    h 32 (by omega)]

/-- The soft values of a noise-free header with PLS `v` (`softFormula_clean`). -/
def cleanSoft (v : Pls) : List Rat := (List.range 64).map fun m => if plscBit v m then -2 else 2

theorem softValues_clean (v : Pls) (k : Nat) :
    softValues ⟨.reference, k⟩ ((cleanHeader v).map .fin) = (cleanSoft v).map .fin := by
  have hv : ((cleanHeader v).map Cx.fin).map Cx.val = cleanHeader v := by simp [Cx.val, Function.comp_def]
  have hf : (windowOperands ((cleanHeader v).map Cx.fin)).all Num.isFin = true := by
    simp [windowOperands, List.flatMap_map, List.all_flatMap, Cx.operands, Num.isFin]
  unfold softValues
  rw [hv, softFormula_clean]
  apply List.ext_getElem
  · simp [cleanSoft]
  · intro i h1 h2
    simp [cleanSoft, numNum, NumCtx.exact, Num.isFin, hf]

theorem plscScore_clean (u v : Pls) (k : Nat) :
    plscScore ⟨.reference, k⟩ ((cleanSoft v).map .fin) u = .fin (plscMetric u (cleanSoft v)) := by
  have hv : ((cleanSoft v).map Num.fin).map Num.val = cleanSoft v := by simp [Num.val, Function.comp_def]
  simp only [plscScore, hv]
  simp [numNum, NumCtx.exact, Num.isFin]

theorem sumRat_eq_sum (l : List Rat) : sumRat l = l.sum := by
  have h : ∀ (l : List Rat) a, l.foldl (· + ·) a = a + l.sum := by
    intro l
    induction l with
    | nil => simp
    | cons x l ih =>
      intro a
      simp [ih, add_assoc]
  simpa [sumRat] using h l 0

/-- Every bit in which `u` agrees with `v` counts 2 for `u`, every other one −2 (R273). -/
theorem plscMetric_clean (u v : Pls) : plscMetric u (cleanSoft v) =
    ((List.range 64).map fun m => if plscBit u m = plscBit v m then (2 : Rat) else -2).sum := by
  have h : ∀ l : List Nat, (∀ i (hi : i < l.length), l[i] = i) →
      ((l.map fun m => if plscBit v m then (-2 : Rat) else 2).mapIdx fun m a => if plscBit u m then -a else a) =
        l.map fun m => if plscBit u m = plscBit v m then (2 : Rat) else -2 := by
    intro l hl
    apply List.ext_getElem
    · simp
    · intro i h1 h2
      simp only [List.getElem_mapIdx, List.getElem_map, hl i (by simpa using h2)]
      cases plscBit u i <;> cases plscBit v i <;> simp
  rw [plscMetric, sumRat_eq_sum, cleanSoft, h _ (by simp)]

theorem plscMetric_clean_self (v : Pls) : plscMetric v (cleanSoft v) = 128 := by
  have h : ∀ l : List Nat, (l.map fun m => if plscBit v m = plscBit v m then (2 : Rat) else -2).sum = 2 * l.length := by
    intro l
    induction l with
    | nil => simp
    | cons a l ih =>
      rw [List.map_cons, List.sum_cons, ih, if_pos rfl, List.length_cons]
      push_cast
      ring
  rw [plscMetric_clean, h, List.length_range]
  norm_num

/-- No other value reaches that of the header's own PLS. -/
theorem plscMetric_clean_lt {u v : Pls} (h : u ≠ v) : plscMetric u (cleanSoft v) < 128 := by
  have hsum : ∀ l : List Nat,
      (l.map fun m => if plscBit u m = plscBit v m then (2 : Rat) else -2).sum ≤ 2 * l.length ∧
        ((∃ m ∈ l, plscBit u m ≠ plscBit v m) →
          (l.map fun m => if plscBit u m = plscBit v m then (2 : Rat) else -2).sum < 2 * l.length) := by
    intro l
    induction l with
    | nil => simp
    | cons a l ih =>
      simp only [List.map_cons, List.sum_cons, List.length_cons, Nat.cast_add, Nat.cast_one]
      by_cases ha : plscBit u a = plscBit v a
      · rw [if_pos ha]
        refine ⟨by linarith [ih.1], fun hm => ?_⟩
        obtain ⟨m, hm, hne⟩ := hm
        obtain rfl | hm := List.mem_cons.mp hm
        · exact absurd ha hne
        · linarith [ih.2 ⟨m, hm, hne⟩]
      · rw [if_neg ha]
        exact ⟨by linarith [ih.1], fun _ => by linarith [ih.1]⟩
  have hex : ∃ m ∈ List.range 64, plscBit u m ≠ plscBit v m := by
    by_contra hno
    push Not at hno
    exact h (plscBit_injective fun m hm => hno m (List.mem_range.mpr hm))
  rw [plscMetric_clean]
  refine lt_of_lt_of_eq ((hsum _).2 hex) ?_
  rw [List.length_range]
  norm_num

end Sys2Proof.Machine
end

