-- ==== Sys2Proof/Laws/PerInstr.lean ====
section
/-!
SUPPORT. One fact for each constructor of `Instr`: its encoding is on the port, and of the length, that 30_encoding.md
rules R120 and R123 give its format.
-/

namespace Sys2Proof.Laws.EncodingPort

/-- The words of a command, or the port of a beat (rules R84, R120). -/
inductive Place where
  | commandWords (n : Nat)
  | beatOf (port : String)
deriving DecidableEq, Repr

/-- Where an encoding stands. -/
def placeOf : Encoded → Place
  | .cmdIn ws => .commandWords ws.length
  | .tsIn _ => .beatOf "TS_IN"
  | .fsIn _ => .beatOf "FS_IN"
  | .bbIn _ => .beatOf "BB_IN"
  | .rspOut _ => .beatOf "RSP_OUT"
  | .tsOut _ => .beatOf "TS_OUT"
  | .fsOut _ => .beatOf "FS_OUT"
  | .bbOut _ => .beatOf "BB_OUT"
  | .rotOut _ => .beatOf "ROT_OUT"

/-- Where the format of an instruction puts it: OP = 0x01 alone has a DATA word (rule R123). -/
def expected : Instr → Place
  | .nop => .commandWords 1
  | .csrw _ _ => .commandWords 2
  | .csrr _ => .commandWords 1
  | .reset _ _ _ _ => .commandWords 1
  | .clrerr => .commandWords 1
  | .cmdReserved _ => .commandWords 1
  | .cmdMalformed cmd _ => .commandWords (if opField cmd = 1 then 2 else 1)
  | .tsSample _ _ => .beatOf "TS_IN"
  | .tsTag _ => .beatOf "TS_IN"
  | .tsEos => .beatOf "TS_IN"
  | .tsReserved => .beatOf "TS_IN"
  | .fsSample _ _ => .beatOf "FS_IN"
  | .fsTag _ => .beatOf "FS_IN"
  | .fsEos => .beatOf "FS_IN"
  | .fsReserved => .beatOf "FS_IN"
  | .bbByte _ => .beatOf "BB_IN"
  | .bbStart _ _ => .beatOf "BB_IN"
  | .bbEos => .beatOf "BB_IN"
  | .bbReserved => .beatOf "BB_IN"
  | .outRsp _ => .beatOf "RSP_OUT"
  | .outTsSample _ _ => .beatOf "TS_OUT"
  | .outTsTag _ => .beatOf "TS_OUT"
  | .outFsSample _ _ => .beatOf "FS_OUT"
  | .outFsTag _ _ => .beatOf "FS_OUT"
  | .outEos .ts => .beatOf "TS_OUT"
  | .outEos .fs => .beatOf "FS_OUT"
  | .outBbByte _ _ => .beatOf "BB_OUT"
  | .outBbEos => .beatOf "BB_OUT"
  | .outRotMsg _ => .beatOf "ROT_OUT"

/-- A well-formed instruction's encoding stands where its format puts it. -/
def Statement (i : Instr) : Prop := i.wellFormed = true → placeOf (encode i) = expected i

theorem nop : Statement .nop := fun _ => rfl
theorem csrw (addr : BitVec 8) (data : Word) : Statement (.csrw addr data) := fun _ => rfl
theorem csrr (addr : BitVec 8) : Statement (.csrr addr) := fun _ => rfl
theorem reset (ts fs bb hif : Bool) : Statement (.reset ts fs bb hif) := fun _ => rfl
theorem clrerr : Statement .clrerr := fun _ => rfl
theorem cmdReserved (cmd : Word) : Statement (.cmdReserved cmd) := fun _ => rfl
theorem cmdMalformed (cmd : Word) (data : Option Word) : Statement (.cmdMalformed cmd data) := by
  intro h
  simp only [Instr.wellFormed, Bool.and_eq_true, beq_iff_eq] at h
  have hd := h.2
  by_cases ho : opField cmd = 1
  · cases data with
    | none => rw [ho] at hd; cases hd
    | some d => simp only [expected, if_pos ho]; rfl
  · cases data with
    | none => simp only [expected, if_neg ho]; rfl
    | some d => exact absurd (eq_of_beq hd.symm) ho
theorem tsSample (re im : Word) : Statement (.tsSample re im) := fun _ => rfl
theorem tsTag (p : TagPayload) : Statement (.tsTag p) := fun _ => rfl
theorem tsEos : Statement .tsEos := fun _ => rfl
theorem tsReserved : Statement .tsReserved := fun _ => rfl
theorem fsSample (re im : Word) : Statement (.fsSample re im) := fun _ => rfl
theorem fsTag (p : TagPayload) : Statement (.fsTag p) := fun _ => rfl
theorem fsEos : Statement .fsEos := fun _ => rfl
theorem fsReserved : Statement .fsReserved := fun _ => rfl
theorem bbByte (b : Byte) : Statement (.bbByte b) := fun _ => rfl
theorem bbStart (k : BitVec 16) (d : Bool) : Statement (.bbStart k d) := fun _ => rfl
theorem bbEos : Statement .bbEos := fun _ => rfl
theorem bbReserved : Statement .bbReserved := fun _ => rfl
theorem outRsp (v : Word) : Statement (.outRsp v) := fun _ => rfl
theorem outTsSample (re im : Word) : Statement (.outTsSample re im) := fun _ => rfl
theorem outTsTag (p : TagPayload) : Statement (.outTsTag p) := fun _ => rfl
theorem outFsSample (re im : Word) : Statement (.outFsSample re im) := fun _ => rfl
theorem outFsTag (m : BitVec 5) (sh : Bool) : Statement (.outFsTag m sh) := fun _ => rfl
theorem outEos (p : SOut) : Statement (.outEos p) := by cases p <;> exact fun _ => rfl
theorem outBbByte (b : Byte) (sop : Bool) : Statement (.outBbByte b sop) := fun _ => rfl
theorem outBbEos : Statement .outBbEos := fun _ => rfl
theorem outRotMsg (v : Word) : Statement (.outRotMsg v) := fun _ => rfl

end Sys2Proof.Laws.EncodingPort
end

