-- ==== Sys2Proof/Laws/Step.lean ====
section
/-!
SUPPORT. What a step can do (once for all invariants), that no instruction stops, and the shared operations of the
command and output sides.
-/

namespace Sys2Proof.Machine

/-! ### Shared operations -/

theorem raise_eq (e : Err) (s : State) : raise e s = WithError e.mask s := rfl

@[simp] theorem mask_cmdErr : Err.mask .cmdErr = 1 := by decide
@[simp] theorem mask_csrAddrErr : Err.mask .csrAddrErr = 2 := by decide
@[simp] theorem mask_csrValErr : Err.mask .csrValErr = 4 := by decide
@[simp] theorem mask_beatErr : Err.mask .beatErr = 8 := by decide
@[simp] theorem mask_outboxOverwrite : Err.mask .outboxOverwrite = 16 := by decide
@[simp] theorem mask_tsTagDrop : Err.mask .tsTagDrop = 0x20 := by decide
@[simp] theorem mask_bbStray : Err.mask .bbStray = 0x40 := by decide

/-- The host takes the head or nothing. -/
theorem takeHead_cases {α : Type} [DecidableEq α] (port : List α) (b : α) :
    takeHead port b = port ∨ port = b :: takeHead port b := by
  unfold takeHead
  split
  · exact .inl rfl
  next x rest =>
    split
    next h => exact .inr (by rw [h])
    next h => exact .inl rfl

@[simp] theorem takeHead_self {α : Type} [DecidableEq α] (b : α) (q : List α) : takeHead (b :: q) b = q := by
  simp [takeHead]

/-- Where the beat named does not stand at the head, nothing is taken (assumption log 5). -/
theorem takeHead_other {α : Type} [DecidableEq α] {port : List α} {b : α} (h : port.head? ≠ some b) :
    takeHead port b = port := by
  obtain h' | h' := takeHead_cases port b
  · exact h'
  · rw [h'] at h
    simp at h

/-- A CSRW's outcome (R161, R367). -/
theorem writeAddr_cases (a : BitVec 8) (w : Word) (s : State) :
    ((∀ c, Csr.ofAddr a = some c → c.legal? w = none) ∧ writeAddr a w s = WithError 2 s) ∨
    (∃ c, Csr.ofAddr a = some c ∧ c.legal? w = some false ∧ writeAddr a w s = WithError 4 s) ∨
    ∃ c, Csr.ofAddr a = some c ∧ c.legal? w = some true ∧ writeAddr a w s = csrWritten c w s := by
  unfold writeAddr
  cases hc : Csr.ofAddr a with
  | none => exact .inl ⟨by simp, by simp [raise_eq]⟩
  | some c =>
    cases hl : c.legal? w with
    | none => exact .inl ⟨by rintro _ ⟨⟩; exact hl, by simp [hl, raise_eq]⟩
    | some b =>
      cases b
      · exact .inr (.inl ⟨c, rfl, hl, by simp [hl, raise_eq]⟩)
      · exact .inr (.inr ⟨c, rfl, hl, by simp [hl]⟩)

/-- A CSRR's outcome (R162). -/
theorem readAddr_cases (a : BitVec 8) (s : State) :
    (Csr.ofAddr a = none ∧ readAddr a s = sendRsp 0 (WithError 2 s)) ∨
    ∃ c, Csr.ofAddr a = some c ∧ readAddr a s = sendRsp (readCsr s c) s := by
  unfold readAddr
  cases hc : Csr.ofAddr a with
  | none => exact .inl ⟨rfl, by simp [raise_eq]⟩
  | some c => exact .inr ⟨c, rfl, rfl⟩

/-- RESET, unit by unit (R163, R391). -/
theorem resetUnits_eq (ts fs bb hif : Bool) (s : State) : resetUnits ts fs bb hif s = { s with
    ts := if ts then setGains s.params.numerics s.csr TsState.reset else s.ts
    tsIn := if ts then [] else s.tsIn
    fs := if fs then FsState.reset else s.fs
    fe := if fs then FeState.reset else s.fe
    fsIn := if fs then [] else s.fsIn
    bb := if bb then BbState.reset else s.bb
    bbIn := if bb then [] else s.bbIn
    hif := if hif then HifState.reset else s.hif } := by
  cases ts <;> cases fs <;> cases bb <;> cases hif <;> rfl

/-- An illegal command's whole effect (R166). -/
theorem illegalCmd_eq (cmd : Word) (s : State) : illegalCmd cmd s = WithError 1
    { s with rspOut := if opField cmd = 2 then s.rspOut ++ [0] else s.rspOut } := by
  unfold illegalCmd
  rw [raise_eq, mask_cmdErr]
  split <;> rfl

/-- HIF's turn with a two-word command (R123). -/
theorem turn_hif_long {s : State} {cmd data : Word} {rest : List Word} (h : s.cmdIn = cmd :: data :: rest)
    (ho : opField cmd = 1) : turn .hif s = exec (decodeLong cmd data) { s with cmdIn := rest } := by
  simp only [turn, fetch, fetchHif, decodeCmd, h, if_pos ho]

/-- HIF's turn with a one-word command (R123). -/
theorem turn_hif_short {s : State} {cmd : Word} {rest : List Word} (h : s.cmdIn = cmd :: rest)
    (ho : opField cmd ≠ 1) : turn .hif s = exec (decodeShort cmd) { s with cmdIn := rest } := by
  simp only [turn, fetch, fetchHif, decodeCmd, h, if_neg ho]

/-- A legal CSRW (R161): a register reads the value written, the others what they read before, but for the gains. -/
theorem readCsr_csrWritten (c : Csr) (w : Word) (s : State) (c' : Csr) (h : c.legal? w = some true) :
    readCsr (csrWritten c w s) c' =
      if c' = c then (if c = .fsCtrl then w &&& 0xF else w)
      else if c.isGainInput ∧ (c' = .tsK1 ∨ c' = .tsK2) then
        bits32 (if c' = .tsK1 then (gains s.params.numerics (writeCsr s.csr w c)).1
          else (gains s.params.numerics (writeCsr s.csr w c)).2)
      else readCsr s c' := by
  cases c <;> first | (simp [Csr.legal?] at h; done) | (cases c' <;> rfl)

/-! ### Every instruction answers a next state (R360) -/

theorem exec_next (i : Instr) (s : State) : ∃ t, exec i s = .next t := by
  cases i with
  | outEos port => cases port <;> exact ⟨_, rfl⟩
  | _ => exact ⟨_, rfl⟩

/-! ### What a step can do -/

/-- Nothing but the script and the input ports differs. -/
def SameCore (s s' : State) : Prop :=
  s' = { s with sched := s'.sched, cmdIn := s'.cmdIn, tsIn := s'.tsIn, fsIn := s'.fsIn, bbIn := s'.bbIn }

theorem SameCore.refl (s : State) : SameCore s s := rfl

/-- An instruction found is run from a state with the same core. -/
theorem fetch_run {a : Agent} {s s' : State} {i : Instr} (h : fetch a s = .run i s') : SameCore s s' := by
  have hout : ∀ p d, fetchOut p s d = .run i s' → s' = s := by
    intro p d hd
    unfold fetchOut at hd
    split at hd <;> cases hd
    rfl
  cases a with
  | hif =>
    simp only [fetch, fetchHif] at h
    split at h <;> cases h
    rfl
  | ts =>
    simp only [fetch, fetchTs] at h
    split at h <;> cases h
    rfl
  | fs =>
    simp only [fetch, fetchFs] at h
    split at h <;> cases h
    rfl
  | bb =>
    simp only [fetch, fetchBb] at h
    split at h <;> cases h
    rfl
  | host p =>
    cases p <;> exact (hout _ _ h) ▸ .refl s
  | rotator =>
    simp only [fetch, fetchRotator] at h
    split at h <;> cases h
    rfl

/-- A step changes the script and the input ports, and then runs one instruction or none. -/
theorem step_cases {s t : State} (h : step s = .next t) : ∃ s', SameCore s s' ∧ (t = s' ∨ ∃ i, exec i s' = .next t) := by
  unfold step at h
  split at h
  · cases h
    exact ⟨s, .refl s, .inl rfl⟩
  next a rest _ =>
    unfold turn at h
    split at h
    next i s' hf =>
      have hs := fetch_run hf
      refine ⟨s', ?_, .inr ⟨i, h⟩⟩
      rw [SameCore, hs]
    · cases h
      exact ⟨{ s with sched := rest }, rfl, .inl rfl⟩
    · cases h
  next e rest _ _ =>
    cases h
    refine ⟨_, ?_, .inl rfl⟩
    cases e <;> rfl

/-- A property that the script and the input ports do not touch, and that every instruction keeps, every step keeps. -/
theorem step_keeps {P : State → Prop} (hs : ∀ s s', SameCore s s' → P s → P s')
    (he : ∀ i s t, P s → exec i s = .next t → P t) {s t : State} (h : P s) (hst : step s = .next t) : P t := by
  obtain ⟨s', hc, rfl | ⟨i, hi⟩⟩ := step_cases hst
  · exact hs _ _ hc h
  · exact he i s' t (hs _ _ hc h) hi

end Sys2Proof.Machine
end

