-- ==== Sys2Proof/Laws/Ts.lean ====
section
/-!
SUPPORT. What the Symbol Timing Synchronizer's operations can do: one lemma each for `releaseHeld`, the loop update, an
interpolant and the loop of 41_timing_sync.md rule R190, and the invariant they keep.
-/

namespace Sys2Proof.Machine

/-! ### The held interpolant (R199) -/

/-- The release of `hd` when its midpoint is `m`. -/
def released (c : TsCfg) (hd : Held) (m : Rat) (r : TsRun) : TsRun :=
  sendInterpolant c hd.y
    { ts := { r.ts with tags := r.ts.tags.filter fun g => !decide ((g.index : Rat) ≤ m) }
      out := r.out ++ tagBeats (r.ts.tags.filter fun g => decide ((g.index : Rat) ≤ m)) }

/-- `releaseHeld` leaves the run, and then a held interpolant's midpoint has not been received, or it releases. -/
theorem releaseHeld_cases (c : TsCfg) (r : TsRun) :
    (releaseHeld c r = r ∧ ∀ hd, r.ts.held = some hd → r.ts.nIn ≤ floorNat (midTime c r.ts.v hd.t)) ∨
    ∃ hd, r.ts.held = some hd ∧ floorNat (midTime c r.ts.v hd.t) < r.ts.nIn ∧
      releaseHeld c r = released c hd (midTime c r.ts.v hd.t) r := by
  unfold releaseHeld
  cases hh : r.ts.held with
  | none => exact .inl ⟨rfl, by simp⟩
  | some hd =>
    by_cases hm : floorNat (midTime c r.ts.v hd.t) < r.ts.nIn
    · exact .inr ⟨hd, rfl, hm, by simp [hm, released]⟩
    · exact .inl ⟨by simp [hm], by intro hd' h; cases h; omega⟩

@[simp] theorem released_held (c : TsCfg) (hd : Held) (m : Rat) (r : TsRun) : (released c hd m r).ts.held = none := rfl

/-- A second release finds nothing to do. -/
theorem releaseHeld_idem (c : TsCfg) (r : TsRun) : releaseHeld c (releaseHeld c r) = releaseHeld c r := by
  obtain ⟨h, -⟩ | ⟨hd, -, -, h⟩ := releaseHeld_cases c r
  · rw [h, h]
  · rw [h]
    simp [releaseHeld]

/-! ### The loop of R190 -/

/-- What both parts of the loop keep, the loop keeps. -/
theorem tsLoop_keeps {c : TsCfg} {P : TsRun → Prop} (hrel : ∀ r, P r → P (releaseHeld c r))
    (htake : ∀ r, P r → releaseHeld c r = r → available c r.ts (nextTime c r.ts) = true →
      P { r with ts := takeInterpolant c (nextTime c r.ts) r.ts }) :
    ∀ n r, P r → P (tsLoop c n r) := by
  intro n
  induction n with
  | zero => exact hrel
  | succ n ih =>
    intro r hr
    simp only [tsLoop]
    split
    · exact ih _ (htake _ (hrel r hr) (releaseHeld_idem c r) ‹_›)
    · exact hrel r hr

/-! ### An interpolant (R188 to R190) -/

/-- The loop update changes `v` and `I` only, keeps both in their ranges (R189, R202), and changes neither when the
damping is 0 (R184). -/
theorem loopUpdate_spec (c : TsCfg) (e : Num) (ts : TsState) :
    ∃ v i, loopUpdate c e ts = { ts with v := v, integ := i } ∧
      ((v = ts.v ∧ i = ts.integ) ∨
        (¬ loopFrozen c ts ∧ -(1 / 2) ≤ v ∧ v ≤ 1 / 2 ∧ -1 < i ∧ i < 1)) := by
  unfold loopUpdate
  split
  · exact ⟨ts.v, ts.integ, rfl, .inl ⟨rfl, rfl⟩⟩
  next hg =>
    exact ⟨_, _, rfl, .inr ⟨hg, (clampRat_bounds _ (by norm_num)).1, (clampRat_bounds _ (by norm_num)).2,
      (fmod1_bounds _).1, (fmod1_bounds _).2⟩⟩

/-- With the damping 0 the loop stands still (R184). -/
theorem loopUpdate_frozen {c : TsCfg} {ts : TsState} (h : loopFrozen c ts) (e : Num) : loopUpdate c e ts = ts :=
  if_pos h

theorem addError_reference {c : TsCfg} (hc : c.ctx.numerics = .reference) (site : Site) (k e i : Rat) :
    addError c site k (.fin e) i = k * e + i := by
  unfold addError
  split
  next h => simp [h.1]
  · simp [numReal, NumCtx.exact, hc, Num.isFin, Num.val]

/-- The loop update under the reference arithmetic, with a damping that is not 0 (R189). -/
theorem loopUpdate_reference {c : TsCfg} {ts : TsState} (hc : c.ctx.numerics = .reference) (e : Rat)
    (hg : ¬ loopFrozen c ts) : loopUpdate c (.fin e) ts = { ts with
      integ := fmod1 (ts.k2 * e + ts.integ)
      v := clampRat (ts.k1 * e + fmod1 (ts.k2 * e + ts.integ)) (-(1 / 2)) (1 / 2) } := by
  simp only [loopUpdate, if_neg hg, addError_reference hc]

theorem fmod1_self {x : Rat} (h : -1 < x ∧ x < 1) : fmod1 x = x := by
  unfold fmod1
  split
  next h0 =>
    have hf : x.floor = 0 := Int.floor_eq_zero_iff.mpr ⟨h0, h.2⟩
    simp [hf]
  next h0 =>
    have hc : x.ceil = 0 := by
      have h1 : x ≤ ((x.ceil : Int) : Rat) := Rat.le_ceil
      have h2 : ((x.ceil : Int) : Rat) < x + 1 := Rat.ceil_lt
      have h3 : ((-1 : Int) : Rat) < ((x.ceil : Int) : Rat) := by push_cast; linarith
      have h4 : ((x.ceil : Int) : Rat) < ((1 : Int) : Rat) := by push_cast; linarith
      have h3 := Int.cast_lt.mp h3
      have h4 := Int.cast_lt.mp h4
      omega
    simp [hc]

/-- With both gains 0 but a damping that is not (the bandwidth is 0, R183), `I` stays and `v` becomes its clamp, under
every arithmetic (R189). -/
theorem loopUpdate_zero_gains {c : TsCfg} {ts : TsState} (hz : c.zeta ≠ 0) (h1 : ts.k1 = 0) (h2 : ts.k2 = 0)
    (hi : -1 < ts.integ ∧ ts.integ < 1) (e : Rat) :
    loopUpdate c (.fin e) ts = { ts with v := clampRat ts.integ (-(1 / 2)) (1 / 2) } := by
  simp [loopUpdate, hz, addError, h1, h2, Num.isFin, fmod1_self hi]

/-- As `loopUpdate_spec`, for an ON interpolant. -/
theorem updateFrom_spec (c : TsCfg) (y : Cx) (ts : TsState) :
    ∃ v i, updateFrom c y ts = { ts with v := v, integ := i } ∧
      ((v = ts.v ∧ i = ts.integ) ∨
        (¬ loopFrozen c ts ∧ -(1 / 2) ≤ v ∧ v ≤ 1 / 2 ∧ -1 < i ∧ i < 1)) := by
  unfold updateFrom
  split
  · exact loopUpdate_spec c _ ts
  · exact ⟨ts.v, ts.integ, rfl, .inl ⟨rfl, rfl⟩⟩

/-- The ON interpolant's effect on TS. -/
theorem takeOn_spec (c : TsCfg) (y : Cx) (t : Rat) (ts : TsState) :
    ∃ v i, takeOn c y t ts =
        { ts with
          v := v
          integ := i
          yPrev := some y
          tPrev := some t
          kOn := floorNat t
          muOn := t - (floorNat t : Rat)
          held := some ⟨y, t⟩
          ph := .mid } ∧
      ((v = ts.v ∧ i = ts.integ) ∨
        (¬ loopFrozen c ts ∧ -(1 / 2) ≤ v ∧ v ≤ 1 / 2 ∧ -1 < i ∧ i < 1)) := by
  obtain ⟨v, i, h, hr⟩ := updateFrom_spec c y ts
  exact ⟨v, i, by rw [takeOn, h], hr⟩

/-- The midpoint of a held interpolant is the time of the MID interpolant after it. -/
theorem nextTime_mid {c : TsCfg} {ts : TsState} (h : ts.ph = .mid) : nextTime c ts = midTime c ts.v ts.tOn := by
  simp [nextTime, h]

theorem nextTime_on {c : TsCfg} {ts : TsState} (h : ts.ph = .on) : nextTime c ts = onTime c ts.v ts.tOn := by
  simp [nextTime, h]

/-- The times of R185 under the reference arithmetic. -/
theorem midTime_reference {c : TsCfg} (hc : c.ctx.numerics = .reference) (v t : Rat) :
    midTime c v t = t + c.sps / 2 * (1 + v) := by
  simp [midTime, numWithin, NumCtx.exact, hc, Num.isFin]

theorem onTime_reference {c : TsCfg} (hc : c.ctx.numerics = .reference) (v t : Rat) :
    onTime c v t = t + c.sps * (1 + v) := by
  simp [onTime, numWithin, NumCtx.exact, hc, Num.isFin]

/-- With finite samples every sample read is finite (R186). -/
theorem TsState.sample_fin {ts : TsState} (h : ∀ z ∈ ts.x, z ≠ .nonFinite) (i : Int) : ∃ z, ts.sample i = .fin z := by
  unfold TsState.sample
  split
  · exact ⟨_, rfl⟩
  · by_cases hn : ts.nIn - 1 - i.toNat < ts.x.length
    · rw [List.getD_eq_getElem _ _ hn]
      have hz := h _ (List.getElem_mem hn)
      cases hx : ts.x[ts.nIn - 1 - i.toNat] with
      | fin z => exact ⟨z, rfl⟩
      | nonFinite => exact absurd hx hz
    · rw [List.getD_eq_default _ _ (by omega)]
      exact ⟨_, rfl⟩

/-- An available interpolant's time has been passed. -/
theorem available_lt {c : TsCfg} {ts : TsState} {t : Rat} (h : available c ts t = true) :
    floorNat t + 2 ≤ ts.nIn := by
  have h := of_decide_eq_true h
  unfold supportAhead at h
  split at h <;> omega

theorem TsInv.tOn_nonneg {w : Nat} {ts : TsState} (h : TsInv w ts) : 0 ≤ ts.tOn := by
  unfold TsState.tOn
  have := h.mu.1
  positivity

theorem TsInv.push {w : Nat} {ts : TsState} (h : TsInv w ts) (z : Cx) : TsInv w (ts.push z) where
  count := by simp [h.count]
  mu := h.mu
  v := h.v
  integ := h.integ
  mid := h.mid
  prev := h.prev
  held := h.held
  sorted := h.sorted
  seen g hg := Nat.le_succ_of_le (h.seen g hg)
  width := h.width

theorem TsInv.released {w : Nat} {c : TsCfg} {hd : Held} {m : Rat} {r : TsRun} (h : TsInv w r.ts) :
    TsInv w (released c hd m r).ts where
  count := h.count
  mu := h.mu
  v := h.v
  integ := h.integ
  mid := h.mid
  prev := h.prev
  held := by simp
  sorted := h.sorted.filter _
  seen g hg := h.seen g (List.mem_of_mem_filter hg)
  width g hg := h.width g (List.mem_of_mem_filter hg)

theorem TsInv.releaseHeld {w : Nat} {c : TsCfg} {r : TsRun} (h : TsInv w r.ts) : TsInv w (releaseHeld c r).ts := by
  obtain ⟨hr, -⟩ | ⟨hd, -, -, hr⟩ := releaseHeld_cases c r <;> rw [hr]
  · exact h
  · exact h.released

/-- When the next MID interpolant is available, the held interpolant has been released. -/
theorem held_none_of_mid {w : Nat} {c : TsCfg} {r : TsRun} (h : TsInv w r.ts) (hr : Machine.releaseHeld c r = r)
    (hp : r.ts.ph = .mid) (ha : available c r.ts (nextTime c r.ts) = true) : r.ts.held = none := by
  cases hh : r.ts.held with
  | none => rfl
  | some hd =>
    exfalso
    have ht := (h.held hd hh).1
    have hlt := available_lt ha
    rw [nextTime_mid hp, ← ht] at hlt
    obtain ⟨-, h2⟩ | ⟨hd', h1, -, h2⟩ := releaseHeld_cases c r
    · have := h2 hd hh
      omega
    · have h3 : r.ts.held = none := by
        rw [hr] at h2
        rw [h2]
        rfl
      rw [h3] at h1
      cases h1

theorem TsInv.takeInterpolant {w : Nat} {c : TsCfg} {r : TsRun} (hs : 0 ≤ c.sps) (h : TsInv w r.ts)
    (hr : Machine.releaseHeld c r = r) (ha : available c r.ts (nextTime c r.ts) = true) :
    TsInv w (takeInterpolant c (nextTime c r.ts) r.ts) := by
  unfold Machine.takeInterpolant
  split
  next hp =>
    have hn := held_none_of_mid h hr hp ha
    exact { h with mid := by simp [takeMid], held := by simp [takeMid, hn] }
  next hp =>
    obtain ⟨v, i, he, hvi⟩ := takeOn_spec c (interpolate c r.ts (nextTime c r.ts)) (nextTime c r.ts) r.ts
    rw [he]
    have ht : 0 ≤ nextTime c r.ts := by
      rw [nextTime_on hp]
      have := (onTime_bounds c r.ts.tOn hs h.v).1
      have := h.tOn_nonneg
      linarith
    have hf := floorNat_bounds ht
    refine { h with mu := ?_, v := ?_, integ := ?_, mid := ?_, prev := ?_, held := ?_ }
    · simp only
      constructor <;> linarith
    · obtain ⟨rfl, rfl⟩ | ⟨-, h1, h2, h3, h4⟩ := hvi
      · exact h.v
      · exact ⟨h1, h2⟩
    · obtain ⟨rfl, rfl⟩ | ⟨-, h1, h2, h3, h4⟩ := hvi
      · exact h.integ
      · exact ⟨h3, h4⟩
    · simp
    · simp
    · intro hd hh
      cases hh
      simp [TsState.tOn]

/-- One sample keeps TS's invariant. -/
theorem tsSampleRun_inv {w : Nat} {c : TsCfg} {ts : TsState} (hs : 0 ≤ c.sps) (h : TsInv w ts) (z : Cx) :
    TsInv w (tsSampleRun c z ts).ts :=
  tsLoop_keeps (P := fun r => TsInv w r.ts) (fun _ hr => hr.releaseHeld)
    (fun _ hr hi ha => hr.takeInterpolant hs hi ha) _ _ (h.push z)

/-- One sample adds itself and changes neither the gains nor the end of the stream. -/
theorem tsSampleRun_frame (c : TsCfg) (z : Cx) (ts : TsState) :
    let t := (tsSampleRun c z ts).ts
    t.x = z :: ts.x ∧ t.nIn = ts.nIn + 1 ∧ t.k1 = ts.k1 ∧ t.k2 = ts.k2 ∧ t.eos = ts.eos := by
  refine tsLoop_keeps
    (P := fun r => r.ts.x = z :: ts.x ∧ r.ts.nIn = ts.nIn + 1 ∧ r.ts.k1 = ts.k1 ∧ r.ts.k2 = ts.k2 ∧ r.ts.eos = ts.eos)
    ?_ ?_ _ _ (by simp)
  · intro r hr
    obtain ⟨h, -⟩ | ⟨hd, -, -, h⟩ := releaseHeld_cases c r <;> rw [h]
    · exact hr
    · exact hr
  · intro r hr _ _
    unfold Machine.takeInterpolant
    split
    · exact hr
    · obtain ⟨v, i, he, -⟩ := takeOn_spec c (interpolate c r.ts (nextTime c r.ts)) (nextTime c r.ts) r.ts
      simp only [he]
      exact hr

/-! ### What is sent (R191, R195, R196, R198) -/

@[simp] theorem sampleCount_append (a b : List Beat) : sampleCount (a ++ b) = sampleCount a + sampleCount b := by
  simp [sampleCount]

@[simp] theorem tagPayloads_append (a b : List Beat) : tagPayloads (a ++ b) = tagPayloads a ++ tagPayloads b := by
  simp [tagPayloads]

@[simp] theorem sampleCount_nil : sampleCount [] = 0 := rfl
@[simp] theorem tagPayloads_nil : tagPayloads [] = [] := rfl

@[simp] theorem sampleCount_sample (re im : Word) : sampleCount [sampleBeat re im] = 1 := by simp [sampleCount]

@[simp] theorem tagPayloads_sample (re im : Word) : tagPayloads [sampleBeat re im] = [] := by simp [tagPayloads]

@[simp] theorem sampleCount_eos : sampleCount [eosBeat] = 0 := by decide
@[simp] theorem tagPayloads_eos : tagPayloads [eosBeat] = [] := by decide

@[simp] theorem sampleCount_tagBeats (tags : List Tag) : sampleCount (tagBeats tags) = 0 := by
  simp [sampleCount, tagBeats]

@[simp] theorem tagPayloads_tagBeats (tags : List Tag) : tagPayloads (tagBeats tags) = tags.map Tag.payload := by
  induction tags with
  | nil => rfl
  | cons g gs ih => simpa [tagPayloads, tagBeats] using ih

/-- Tags in the order of their indices split at a time without changing their order. -/
theorem split_sorted {tags : List Tag} (h : tags.Pairwise fun g k => g.index ≤ k.index) (m : Rat) :
    (tags.filter fun g => decide ((g.index : Rat) ≤ m)) ++ (tags.filter fun g => !decide ((g.index : Rat) ≤ m)) =
      tags := by
  induction tags with
  | nil => rfl
  | cons g gs ih =>
    rw [List.pairwise_cons] at h
    by_cases hg : (g.index : Rat) ≤ m
    · simpa [hg] using ih h.2
    · have hall : ∀ k ∈ gs, ¬ (k.index : Rat) ≤ m := fun k hk hkm =>
        hg (le_trans (by exact_mod_cast h.1 k hk) hkm)
      have h1 : (gs.filter fun k => decide ((k.index : Rat) ≤ m)) = [] := by
        rw [List.filter_eq_nil_iff]
        intro k hk
        simpa using hall k hk
      have h2 : (gs.filter fun k => !decide ((k.index : Rat) ≤ m)) = gs := by
        rw [List.filter_eq_self]
        intro k hk
        simpa using hall k hk
      simp only [List.filter_cons, hg, decide_false, Bool.false_eq_true, if_false, Bool.not_false, if_true, h1, h2]
      rfl

/-- The beats of one sample from the state `ts`: SAMPLE and TAG beats, one count for each SAMPLE, and the tags sent
and kept are the tags there were, in order. -/
structure TsSent (ts : TsState) (r : TsRun) : Prop where
  kinds : ∀ b ∈ r.out, (∃ re im, b = sampleBeat re im) ∨ ∃ p, b = tagBeat p
  count : r.ts.outCount = ts.outCount + BitVec.ofNat 32 (sampleCount r.out)
  tags  : tagPayloads r.out ++ r.ts.tags.map Tag.payload = ts.tags.map Tag.payload

theorem tagBeats_kinds {tags : List Tag} {b : Beat} (h : b ∈ tagBeats tags) : ∃ p, b = tagBeat p := by
  obtain ⟨g, -, rfl⟩ := List.mem_map.mp h
  exact ⟨_, rfl⟩

theorem TsSent.released {ts : TsState} {c : TsCfg} {hd : Held} {m : Rat} {r : TsRun} (h : TsSent ts r)
    (hs : r.ts.tags.Pairwise fun g k => g.index ≤ k.index) : TsSent ts (released c hd m r) where
  kinds b hb := by
    simp only [Machine.released, sendInterpolant, List.mem_append, List.mem_singleton] at hb
    obtain (hb | hb) | rfl := hb
    · exact h.kinds b hb
    · exact .inr (tagBeats_kinds hb)
    · exact .inl ⟨_, _, rfl⟩
  count := by
    simp only [Machine.released, sendInterpolant, sampleCount_append, sampleCount_tagBeats, sampleCount_sample, h.count,
      Nat.add_zero, BitVec.ofNat_add]
    rw [BitVec.add_assoc]
    rfl
  tags := by
    rw [← h.tags]
    simp only [Machine.released, sendInterpolant, tagPayloads_append, tagPayloads_tagBeats, tagPayloads_sample,
      List.append_nil, List.append_assoc, ← List.map_append, split_sorted hs m]

theorem TsSent.releaseHeld {ts : TsState} {c : TsCfg} {r : TsRun} (h : TsSent ts r)
    (hs : r.ts.tags.Pairwise fun g k => g.index ≤ k.index) : TsSent ts (releaseHeld c r) := by
  obtain ⟨hr, -⟩ | ⟨hd, -, -, hr⟩ := releaseHeld_cases c r <;> rw [hr]
  · exact h
  · exact h.released hs

/-- What one sample sends. -/
theorem tsSampleRun_sent {w : Nat} {c : TsCfg} {ts : TsState} (hs : 0 ≤ c.sps) (h : TsInv w ts) (z : Cx) :
    TsSent ts (tsSampleRun c z ts) :=
  (tsLoop_keeps (P := fun r => TsInv w r.ts ∧ TsSent ts r)
    (fun _ hr => ⟨hr.1.releaseHeld, hr.2.releaseHeld hr.1.sorted⟩)
    (fun r hr hi ha => ⟨hr.1.takeInterpolant hs hi ha, by
      have hk : (takeInterpolant c (nextTime c r.ts) r.ts).outCount = r.ts.outCount ∧
          (takeInterpolant c (nextTime c r.ts) r.ts).tags = r.ts.tags := by
        unfold Machine.takeInterpolant
        split
        · exact ⟨rfl, rfl⟩
        · obtain ⟨v, i, he, -⟩ := takeOn_spec c (interpolate c r.ts (nextTime c r.ts)) (nextTime c r.ts) r.ts
          simp [he]
      exact ⟨hr.2.kinds, by rw [hk.1]; exact hr.2.count, by rw [hk.2]; exact hr.2.tags⟩⟩)
    _ _ ⟨h.push z, by simp, by simp, by simp⟩).2

end Sys2Proof.Machine
end

