-- ==== Sys2Proof/Tests/Slice0.lean ====
section
/-!
SUPPORT. Tests and witnesses.

A `test_` theorem is a check on fixed values: ill-formed terms that WellFormed refuses, words written out from
30_encoding.md, and single steps whose results are the vectors of spec/95_test_vectors.md or are worked out by hand
from the rule named.  A `witness_` theorem shows a state and operands that meet the hypotheses of an obligation, at the
ends of their ranges where it has several clauses.
-/

namespace Sys2Proof.Tests

-- One test at a time: each holds a thread's stack while it waits for the kernel.
set_option Elab.async false

open Sys2Proof Sys2Proof.Machine

/-! ### Small states -/

/-- The state after an instruction, the same state where it gives none. -/
def after (i : Instr) (s : State) : State :=
  match exec i s with
  | .next t => t
  | .fault _ => s
  | .refused _ => s

theorem exec_after (i : Instr) (s : State) : exec i s = .next (after i s) := by
  obtain ⟨t, h⟩ := exec_next i s
  simp [after, h]

/-- The core at reset. -/
abbrev s0 : State := State.reset

/-- The core at reset with an error already pending. -/
def err (w : Word) : State := WithError w s0

/-- A real symbol or sample. -/
def real (q : Rat) : Cx := .fin ⟨q, 0⟩

/-- TS of V-TS-2 after six samples of `x[i] = i²` and one tag: the ON interpolant at t = 4 is held. -/
def busyTs : TsState where
  x        := [real 25, real 16, real 9, real 4, real 1, real 0]
  nIn      := 6
  kOn      := 4
  muOn     := 0
  ph       := .mid
  v        := 0
  integ    := 0
  k1       := 0
  k2       := 0
  yMid     := some (real 4)
  yPrev    := some (real 16)
  tPrev    := some 4
  held     := some ⟨real 16, 4⟩
  tags     := [⟨0, 0xA⟩]
  outCount := 0
  eos      := false

/-- FS in LOCKED, `n` symbols into a frame of PLS 86 that is sent. -/
def inFrame (n : Nat) : FsState where
  r            := List.replicate n (real 0)
  nIn          := n
  lock         := .locked
  hits         := 2
  misses       := 0
  nextHdr      := some 4140
  searchFrom   := 0
  ccmPls       := some 86
  frm          := some ⟨0, 86, true, 0, true, plInfo 86⟩
  lastPls      := 86
  lastPlsValid := true
  frameCount   := 1
  eos          := false

/-- FE in closed loop with an estimate of 1/4. -/
def closedFe : FeState where
  fstate  := .coarseCorrected
  fCum    := 1 / 4
  acc     := .fin ⟨0, 0⟩
  cnt     := 0
  lastCmd := commandValue ⟨.reference, 0⟩ (1 / 4)
  mode    := true

/-- BB with `bytes` of a frame of `kbch` bits, and a partial packet. -/
def inBbframe (kbch : Nat) (bytes part : List Byte) : BbState where
  isOpen     := true
  kbch       := kbch
  disc       := false
  fbuf       := bytes
  nbytes     := bytes.length
  part       := part
  havePart   := !part.isEmpty
  framesOk   := 0
  crcErr     := 0
  hdrErr     := 0
  malformed  := 0
  packetsOut := 0
  eos        := false

/-- Every unit at work and every port occupied. -/
def busy : State where
  params := ⟨64, .reference⟩
  csr    := { Csrs.reset with tsSps := 0x40800000, fsCtrl := 1 }
  hif    := { status := 1, obValid := true, obValue := commandValue ⟨.reference, 0⟩ (1 / 4) }
  ts     := busyTs
  fs     := inFrame 90
  fe     := closedFe
  bb     := inBbframe 80 [0xF0, 0x00] [0x0A, 0x11]
  cmdIn  := [0x01120000, 0x3F350481]
  rspOut := [0x44533252]
  tsIn   := [0x00000000C00000003F800000]
  tsOut  := [0x40000000000000000000002A, 0x000000000000000041800000]
  fsIn   := [0x40000000000000000000002A]
  fsOut  := [0x400000000000000000000035, 0x800000000000000000000000]
  bbIn   := [0x00000047]
  bbOut  := [0x00000147, 0x00000005]
  rotOut := []
  sched  := [.turn .hif, .turn .rotator]
  tick   := 7

/-- BB at work in a core otherwise at reset. -/
def bbState (b : BbState) : State := { s0 with bb := b }

/-- FS at work in a core otherwise at reset. -/
def fsState (fs : FsState) : State := { s0 with fs := fs }

/-- 89 symbols, the newest first, zero but for `r[10] = 1` and `r[11] = b`: with one more symbol, the header window of
V-FS-2 in which a single product is not zero. -/
def pair (b : CQ) : List Cx := List.replicate 77 (real 0) ++ [.fin b, real 1] ++ List.replicate 10 (real 0)

/-- FS in UNLOCKED and searching, the last symbol of window 0 to come. -/
def searching (b : CQ) : FsState := { FsState.reset with r := pair b, nIn := 89 }

/-- FS in UNLOCKED and searching, the last symbol of a noise-free header of PLS `v` to come. -/
def searchingClean (v : Pls) : FsState :=
  { FsState.reset with r := (((List.range 89).map (headerSymbol v)).map Cx.fin).reverse, nIn := 89 }

/-- FS in LOCKED, `n` symbols into a frame of PLS 87, which has pilots. -/
def inPilots (n : Nat) : FsState :=
  { inFrame n with
    nextHdr := some 4212, ccmPls := some 87, lastPls := 87, frm := some ⟨0, 87, true, 0, true, plInfo 87⟩ }

/-- FS in UNLOCKED with one hit, the last symbol of the expected header at 0 to come. -/
def confirming (b : CQ) : FsState :=
  { searching b with hits := 1, lastPlsValid := true, nextHdr := some 0 }

/-- FS in LOCKED on PLS 86, the last symbol of the expected header at 0 to come. -/
def tracking (b : CQ) : FsState :=
  { confirming b with lock := .locked, hits := 2, lastPls := 86, ccmPls := some 86 }

/-! ### WellFormed: one ill-formed term for each check -/

theorem test_wellFormed_refuses_reserved : (Instr.cmdReserved 0x04000000).wellFormed = false := by decide

/-- A defined OP, a violation, DATA under CSRW, no DATA under NOP. -/
theorem test_wellFormed_refuses_malformed :
    (Instr.cmdMalformed 0x05000001 none).wellFormed = false ∧ (Instr.cmdMalformed 0x02310000 none).wellFormed = false ∧
    (Instr.cmdMalformed 0x01000001 none).wellFormed = false ∧
    (Instr.cmdMalformed 0x00000001 (some 0)).wellFormed = false := by decide

/-- MODCOD from 1, MODCOD to 28, the SOP byte 0x47. -/
theorem test_wellFormed_refuses_beats :
    (Instr.outFsTag 0 false).wellFormed = false ∧ (Instr.outFsTag 29 false).wellFormed = false ∧
    (Instr.outBbByte 0x46 true).wellFormed = false := by decide

/-! ### Decoding (V-ENC-1 to V-ENC-3, 30_encoding.md) -/

theorem test_decode_commands :
    decode (.cmdIn [0x00000000]) = .ok .nop ∧
    decode (.cmdIn [0x01100000, 0x40800000]) = .ok (.csrw 0x10 0x40800000) ∧
    decode (.cmdIn [0x02010000]) = .ok (.csrr 0x01) ∧
    decode (.cmdIn [0x03050000]) = .ok (.reset true false true false) ∧
    decode (.cmdIn [0x03080000]) = .ok (.reset false false false true) ∧
    decode (.cmdIn [0x04000000]) = .ok .clrerr := by decide

theorem test_decode_illegal_commands :
    decode (.cmdIn [0x05000000]) = .ok (.cmdReserved 0x05000000) ∧
    decode (.cmdIn [0xFF123456]) = .ok (.cmdReserved 0xFF123456) ∧
    decode (.cmdIn [0x00010000]) = .ok (.cmdMalformed 0x00010000 none) ∧
    decode (.cmdIn [0x04000001]) = .ok (.cmdMalformed 0x04000001 none) ∧
    decode (.cmdIn [0x03100000]) = .ok (.cmdMalformed 0x03100000 none) ∧
    decode (.cmdIn [0x01100001, 0x40800000]) = .ok (.cmdMalformed 0x01100001 (some 0x40800000)) ∧
    decode (.cmdIn [0x02100001]) = .ok (.cmdMalformed 0x02100001 none) := by decide

theorem test_decode_refuses_by_name :
    decode (.cmdIn []) = .error .noWord ∧ decode (.cmdIn [0x01100000]) = .error .missingData ∧
    decode (.cmdIn [0, 0]) = .error .trailingWords ∧
    decode (.tsOut 0xC00000000000000000000000) = .error .notSent ∧
    decode (.fsOut 0x40000000000000000000001D) = .error .notSent ∧
    decode (.bbOut 0x00000146) = .error .notSent := by decide

theorem test_decode_ts_beats :
    decode (.tsIn 0x00000000000000003F800000) = .ok (.tsSample 0x3F800000 0) ∧
    decode (.tsIn 0x40000000000000000000002A) = .ok (.tsTag 0x2A) ∧
    decode (.tsIn 0x800000000000000000000000) = .ok .tsEos ∧
    decode (.tsIn 0xC0000000000000003F800000) = .ok .tsReserved := by decide

theorem test_decode_fs_beats :
    decode (.fsIn 0x00000000BF3504F33F3504F3) = .ok (.fsSample 0x3F3504F3 0xBF3504F3) ∧
    decode (.fsIn 0x400000000000000000000001) = .ok (.fsTag 1) ∧
    decode (.fsIn 0xBFFFFFFFFFFFFFFFFFFFFFFF) = .ok .fsEos ∧
    decode (.fsIn 0xC00000000000000000000000) = .ok .fsReserved := by decide

theorem test_decode_bb_beats :
    decode (.bbIn 0x00000047) = .ok (.bbByte 0x47) ∧ decode (.bbIn 0x40010AE0) = .ok (.bbStart 2784 true) ∧
    decode (.bbIn 0x80000000) = .ok .bbEos ∧ decode (.bbIn 0xC0000000) = .ok .bbReserved := by decide

theorem test_decode_output_beats :
    decode (.rspOut 0x00070000) = .ok (.outRsp 0x00070000) ∧
    decode (.tsOut 0x000000000000000040400000) = .ok (.outTsSample 0x40400000 0) ∧
    decode (.tsOut 0x40000000000000000000000A) = .ok (.outTsTag 0xA) ∧
    decode (.tsOut 0x800000000000000000000000) = .ok (.outEos .ts) ∧
    decode (.fsOut 0x00000000BF3504F33F3504F3) = .ok (.outFsSample 0x3F3504F3 0xBF3504F3) ∧
    decode (.fsOut 0x400000000000000000000012) = .ok (.outFsTag 18 false) ∧
    decode (.fsOut 0x800000000000000000000000) = .ok (.outEos .fs) ∧
    decode (.bbOut 0x00000147) = .ok (.outBbByte 0x47 true) ∧
    decode (.bbOut 0x00000005) = .ok (.outBbByte 0x05 false) ∧
    decode (.bbOut 0x80000000) = .ok .outBbEos ∧
    decode (.rotOut 0xBF20D97C) = .ok (.outRotMsg 0xBF20D97C) := by decide

theorem test_table_words :
    decodeTableWord 32 0x01100000 = some (.csrw 0x10 0) ∧ decodeTableWord 96 0x80000000_00000000_00000000 = some .tsEos ∧
    step (s0.withFetchWord 32 0x02010000) = .next { s0 with cmdIn := [0], rspOut := [0x00070000] } ∧
    step (s0.withFetchWord 96 0xC0000000_00000000_00000000) = .next (err 8) := ⟨by decide, by decide, rfl, rfl⟩

/-! ### Commands (V-ENC-3, V-HIF-1 to V-HIF-3, P1) -/

theorem test_nop : after .nop busy = busy := rfl
theorem test_csrr_version : (after (.csrr 0x01) s0).rspOut = [0x00070000] := by decide
theorem test_csrr_unmapped : (after (.csrr 0x23) s0) = { err 2 with rspOut := [0] } := rfl
theorem test_csrw_read_only : after (.csrw 0x18 0) s0 = err 2 := rfl
theorem test_csrw_illegal_values :
    after (.csrw 0x16 0) s0 = err 4 ∧
    after (.csrw 0x10 0x7FC00000) s0 = err 4 := by decide +kernel
theorem test_csrw_ctrl_reserved_bits : (after (.csrw 0x22 0xFFFFFFFF) s0).csr.fsCtrl = 0xF := by decide
theorem test_csrw_gains_p1 :
    readCsr (after (.csrw 0x12 0x3F000000) (after (.csrw 0x11 0x3D800000) s0)) .tsK1 = 0x3DF00F01 ∧
    readCsr (after (.csrw 0x12 0x3F000000) (after (.csrw 0x11 0x3D800000) s0)) .tsK2 = 0x3C700F01 := by decide +kernel
theorem test_reset_keeps_registers_and_ports :
    (after (.reset false true false false) busy).csr = busy.csr ∧
    (after (.reset false true false false) busy).fsOut = busy.fsOut ∧
    (after (.reset false true false false) busy).fsIn = [] ∧
    readCsr (after (.reset false true false false) busy) .fsStatus = 0 := by decide
theorem test_reset_hif_empties_outbox : (after (.reset false false false true) busy).hif = HifState.reset := by decide
theorem test_clrerr : (after .clrerr busy).hif.status = 0 := by decide
theorem test_illegal_commands :
    after (.cmdReserved 0x05000000) (err 6) = err 7 ∧
    after (.cmdMalformed 0x04000001 none) (err 2) = err 3 ∧
    (after (.cmdMalformed 0x02100001 none) s0).rspOut = [0] := by decide +kernel

/-! ### TS (V-TS-1 to V-TS-8) -/

theorem test_ts_sample_releases_held :
    (after (.tsSample 0x42100000 0) busy).tsOut =
      busy.tsOut ++ [0x40000000000000000000000A, 0x000000000000000041800000] ∧
    (after (.tsSample 0x42100000 0) busy).ts.outCount = 1 := by decide +kernel
theorem test_ts_first_mid :
    (after (.tsSample 0x40400000 0) { s0 with ts := { TsState.reset with x := [real 2, real 1], nIn := 2 } }).ts.yMid =
      some (real 2) := by decide +kernel
theorem test_ts_tag_index_and_width :
    (after (.tsTag 0x1FF) { busy with params := ⟨8, .reference⟩ }).ts.tags = [⟨0, 0xA⟩, ⟨6, 0xFF⟩] := by decide +kernel
theorem test_ts_eos :
    (after .tsEos busy).tsOut = busy.tsOut ++
          [0x40000000000000000000000A, 0x000000000000000041800000, 0x800000000000000000000000] ∧
    (after .tsEos (after (.tsTag 0x5A) s0)).hif.status = 0x20 ∧
    (after .tsEos (after (.tsTag 0x5A) s0)).tsOut = [0x800000000000000000000000] := by decide +kernel
theorem test_ts_reserved : after .tsReserved s0 = err 8 := rfl
theorem test_loop :
    gardner ⟨-1, 0⟩ ⟨-1, 0⟩ ⟨1, 0⟩ = 2 ∧
    (let c : TsCfg := ⟨⟨.reference, 0⟩, 2, 1, 1 / 2⟩
     let ts := loopUpdate c (.fin 2) { TsState.reset with k1 := 32 / 273, k2 := 4 / 273 }
     ts.integ = 8 / 273 ∧ ts.v = 24 / 91 ∧ midTime c ts.v 4 = 479 / 91 ∧ onTime c ts.v 4 = 594 / 91) ∧
    (let ts := { TsState.reset with v := 1 / 4, integ := 1 / 8 }
     loopUpdate ⟨⟨.reference, 0⟩, 2, 1, 0⟩ (.fin 2) ts = ts ∧
     loopUpdate ⟨⟨.reference, 0⟩, 2, 1, 1 / 2⟩ (.fin 2) ts = { ts with v := 1 / 8 }) := by decide +kernel
theorem test_interpolators_at_5_halves :
    interpFarrow (1 / 2) ⟨1, 0⟩ ⟨4, 0⟩ ⟨9, 0⟩ ⟨16, 0⟩ = ⟨6, 0⟩ ∧
    interpCubic (1 / 2) ⟨1, 0⟩ ⟨4, 0⟩ ⟨9, 0⟩ ⟨16, 0⟩ = ⟨25 / 4, 0⟩ ∧
    interpLinear (1 / 2) ⟨2, 0⟩ ⟨3, 0⟩ = ⟨5 / 2, 0⟩ := by decide +kernel

/-! ### FS and FE (V-FS-1 to V-FS-14, V-FE-1) -/

theorem test_header_constants :
    (List.range 8).map (headerSymbol 87) = [⟨1, 1⟩, ⟨1, -1⟩, ⟨-1, -1⟩, ⟨-1, 1⟩, ⟨1, 1⟩, ⟨-1, 1⟩, ⟨-1, -1⟩, ⟨1, -1⟩] ∧
    (List.range 8).map (fun k => headerSymbol 87 (k + 26)) =
      [⟨-1, -1⟩, ⟨1, -1⟩, ⟨-1, -1⟩, ⟨-1, 1⟩, ⟨-1, -1⟩, ⟨-1, 1⟩, ⟨1, 1⟩, ⟨-1, 1⟩] ∧
    (List.range 8).map (plscCode 86) = [true, true, false, false, true, true, false, false] := by decide +kernel
theorem test_geometry :
    (plInfo 0).len = 3330 ∧ (plInfo 63).len = 5598 ∧ (plInfo 61).len = 22194 ∧ (plInfo 87).len = 4212 ∧
    (plInfo 109).len = 13338 ∧ payloadOffset (plInfo 87) 1439 = 1529 ∧ payloadOffset (plInfo 87) 1440 = 1566 ∧
    pilotOffset 1 = 1530 ∧ pilotOffset 2 = 3006 ∧ payloadIndex (plInfo 87) 4211 = some 4049 ∧
    payloadIndex (plInfo 87) 1530 = none := by decide +kernel
theorem test_sof_metric :
    sofLambda (List.replicate 26 ⟨1, 0⟩) = 1 / 25 ∧
    sofLambda (List.replicate 26 ⟨0, 0⟩) = 0 := by decide +kernel
theorem test_fs_headers :
    (let t := after (.fsSample 0 0) (fsState (tracking ⟨0, 0⟩))
     t.fs.misses = 1 ∧ t.fs.nextHdr = some 4140 ∧ t.fs.lock = .locked ∧ t.fsOut = []) ∧
    (let t := after (.fsSample 0 0) { fsState (tracking ⟨0, 1⟩) with csr := { Csrs.reset with fsFreqPeriod := 2 } }
     (t.fsOut, t.fs.frameCount, t.fe.fstate, t.fe.cnt) = ([0x400000000000000000000035], 1, .uncorrected, 1)) := by
  decide +kernel
theorem test_fs_tag_discarded : after (.fsTag 5) busy = busy := rfl
theorem test_fs_eos : (after .fsEos s0).fsOut = [0x800000000000000000000000] ∧ (after .fsEos s0).fs.eos = true :=
  ⟨rfl, rfl⟩
theorem test_fs_reserved : after .fsReserved (err 2) = err 0xA := by decide +kernel
theorem test_outbox :
    bits32 (commandValue ⟨.reference, 0⟩ (1 / 10)) = 0xBF20D97C ∧
    outboxWrite 1 { status := 0, obValid := true, obValue := 3 } = { status := 0x10, obValid := true, obValue := 1 } ∧
    (outboxWrite 1 HifState.reset).status = 0 := by decide +kernel
theorem test_unwrap_and_slope :
    unwrap [2 / 5, -(2 / 5), -(1 / 5)] = [2 / 5, 3 / 5, 4 / 5] ∧
    regression [0, 10, 20] [2 / 5, 3 / 5, 4 / 5] = 1 / 50 := by decide +kernel

/-! ### BB (V-BB-1 to V-BB-10; the CRC bytes not listed there are worked out from R324) -/

theorem test_crc_of_headers :
    crc8 [0xF0, 0, 5, 0xE0, 0x0B, 0xC0, 0x47, 0, 0] = 0x4B ∧ crc8 [0xF0, 0, 5, 0xE0, 0x0B, 0xC0, 0x47, 2, 0xF0] = 0xD9 ∧
    crc8 [0xF0, 0, 5, 0xE0, 0, 0, 0x47, 0, 0] = 0x43 := by decide +kernel

/-- A BBHEADER without its CRC. -/
def header (dfl syncd : Byte) : List Byte := [0xF0, 0, 5, 0xE0, 0, dfl, 0x47, 0, syncd]

theorem test_bb_valid_empty_frame :
    (after (.bbByte 0x43) (bbState (inBbframe 80 (header 0 0) [1]))).bb.framesOk = 1 ∧
    (after (.bbByte 0x43) (bbState (inBbframe 80 (header 0 0) [1]))).bb.havePart = false := by decide +kernel
theorem test_bb_bad_frames :
    (after (.bbByte 0x42) (bbState (inBbframe 80 (header 0 0) [1]))).bb.crcErr = 1 ∧
    (after (.bbByte 0x42) (bbState (inBbframe 80 (header 0 0) [1]))).bb.part = [] ∧
    (after (.bbByte 0xB8) (bbState (inBbframe 88 (header 9 0 ++ [0x51]) []))).bb.hdrErr = 1 := by decide +kernel
theorem test_bb_joins_partial :
    (after (.bbByte 0xB8) (bbState (inBbframe 88 (header 8 8 ++ [0x3D]) (List.replicate 187 0x22)))).bbOut =
      0x00000147 :: (List.replicate 186 0x00000022 ++ [0x000000B8]) := by decide +kernel
/-- A BBFRAME of 1584 bits but for its last byte: the DATAFIELD is one packet, whose last byte is to come. -/
def packetFrame : List Byte := [0xF0, 0, 5, 0xE0, 5, 0xE0, 0x47, 0, 0, 0x47] ++ List.replicate 187 0x11

theorem test_bb_whole_packet :
    (after (.bbByte 0x22) (bbState (inBbframe 1584 packetFrame []))).bbOut =
      0x00000147 :: (List.replicate 186 0x00000011 ++ [0x00000022]) := by decide +kernel
theorem test_bb_start :
    (after (.bbStart 84 false) (bbState (inBbframe 80 [0xF0] [1]))).bb.malformed = 2 ∧
    (after (.bbStart 84 false) (bbState (inBbframe 80 [0xF0] [1]))).bb.isOpen = false ∧
    (after (.bbStart 2000 true) s0).bb =
      { BbState.reset with isOpen := true, kbch := 2000, disc := true } := by decide +kernel
theorem test_bb_stray : after (.bbByte 1) s0 = err 0x40 := rfl
theorem test_bb_eos_and_reserved :
    (after .bbEos (bbState (inBbframe 80 [0xF0] []))).bb.malformed = 1 ∧
    (after .bbEos (bbState (inBbframe 80 [0xF0] []))).bbOut = [0x80000000] ∧
    (after .bbReserved busy).bb = busy.bb ∧ (after .bbReserved busy).hif.status = 9 := by decide +kernel

/-! ### Output -/

theorem test_out_rsp : (after (.outRsp 0x44533252) busy).rspOut = [] := by decide
theorem test_out_samples :
    (after (.outTsTag 0x2A) busy).tsOut = [0x000000000000000041800000] ∧
    (after (.outTsSample 0x41800000 0) (after (.outTsTag 0x2A) busy)).tsOut = [] ∧
    (after (.outFsTag 21 true) busy).fsOut = [0x800000000000000000000000] ∧
    (after (.outEos .fs) (after (.outFsTag 21 true) busy)).fsOut = [] ∧
    (after (.outFsSample 0x3F3504F3 0xBF3504F3) { s0 with fsOut := [0x00000000BF3504F33F3504F3] }).fsOut = [] := by decide +kernel
theorem test_out_bytes :
    (after (.outBbByte 0x47 true) busy).bbOut = [0x00000005] ∧
    (after .outBbEos { s0 with bbOut := [0x80000000] }).bbOut = [] ∧
    (after (.outBbByte 0x05 false) busy).bbOut = busy.bbOut := by decide +kernel
theorem test_out_rot_msg : (after (.outRotMsg 0xBFC90FDB) busy).hif.obValid = false ∧
    (after (.outRotMsg 0xBFC90FDB) busy).rotOut = [0xBFC90FDB] := by decide +kernel

/-! ### Witnesses: encoding -/

theorem witness_wellFormed :
    (Instr.outFsTag 1 true).wellFormed = true ∧ (Instr.outFsTag 28 false).wellFormed = true ∧
    (Instr.outBbByte 0x47 true).wellFormed = true ∧ (Instr.outBbByte 0xFF false).wellFormed = true ∧
    (Instr.cmdReserved 0x05000000).wellFormed = true ∧ (Instr.cmdReserved 0xFFFFFFFF).wellFormed = true ∧
    (Instr.cmdMalformed 0x0400FFFF none).wellFormed = true ∧
    (Instr.cmdMalformed 0x01000001 (some 0)).wellFormed = true := by decide

theorem witness_command_lengths :
    opField 0x01120000 = 0x01 ∧ opField 0x00000000 ≠ 0x01 ∧ opField 0x02000000 ≠ 0x01 ∧ opField 0xFF000000 ≠ 0x01 := by
  decide

theorem witness_illegal_words :
    illegalWord 0x05000000 ∧ illegalWord 0xFF000000 ∧ illegalWord 0x00000001 ∧ illegalWord 0x00010000 ∧
    illegalWord 0x04FF0000 ∧ illegalWord 0x03100000 ∧ illegalWord 0x01108000 ∧ illegalWord 0x02100001 := by
  refine ⟨?_, ?_, ?_, ?_, ?_, ?_, ?_, ?_⟩ <;> (unfold illegalWord; decide)

theorem witness_ignored_bits :
    (sKind 0x00000000C00000003F800000 = sKind 0x3FFFFFFFC00000003F800000 ∧
      sRe 0x00000000C00000003F800000 = sRe 0x3FFFFFFFC00000003F800000 ∧
      sIm 0x00000000C00000003F800000 = sIm 0x3FFFFFFFC00000003F800000) ∧
    (sKind 0x40000000000000000000012A = 1 ∧ sKind 0x40000001000000000000002A = 1 ∧
      (0x40000000000000000000012A : Beat).toNat % 2 ^ 8 = (0x40000001000000000000002A : Beat).toNat % 2 ^ 8) ∧
    (sKind 0x800000000000000000000000 = sKind 0xBFFFFFFFFFFFFFFFFFFFFFFF) ∧
    (bKind 0x00000047 = 0 ∧ bKind 0x3FFFFF47 = 0 ∧ (0x3FFFFF47 : Word).toNat % 2 ^ 8 = 0x47) ∧
    (bKind 0x400107D0 = 1 ∧ bKind 0x7FFF07D0 = 1 ∧ (0x7FFF07D0 : Word).toNat % 2 ^ 17 = 0x107D0) := by decide

/-! ### Witnesses: steps -/

theorem witness_turns :
    decodeCmd busy.cmdIn = .ok (.csrw 0x12 0x3F350481, []) ∧
    decodeCmd { busy with cmdIn := [0x04000000] }.cmdIn = .ok (.clrerr, []) ∧
    busy.tsIn ≠ [] ∧ busy.fsIn ≠ [] ∧ busy.bbIn ≠ [] ∧ busy.rspOut ≠ [] ∧
    busy.tsOut.map decodeTsOut = [.ok (.outTsTag 0x2A), .ok (.outTsSample 0x41800000 0)] ∧
    busy.fsOut.map decodeFsOut = [.ok (.outFsTag 21 true), .ok (.outEos .fs)] ∧
    busy.bbOut.map decodeBbOut = [.ok (.outBbByte 0x47 true), .ok (.outBbByte 5 false)] ∧
    busy.hif.obValid = true ∧ busy.sched = .turn .hif :: [.turn .rotator] := by decide

theorem witness_rest :
    step s0 = .next s0 ∧ step { s0 with sched := [.turn .hif] } = .next s0 ∧
    step { s0 with sched := [.turn .rotator] } = .next s0 ∧
    step { s0 with sched := [.supplyBb 0x47] } = .next { s0 with bbIn := [0x47] } := ⟨rfl, rfl, rfl, rfl⟩

/-- `CsrInv` of a state that holds these registers. -/
theorem csrInv_of (s : State) (h : s.csr = busy.csr ∨ s.csr = s0.csr) : CsrInv s := by
  obtain h | h := h
  all_goals
    refine ⟨fun c => ?_, by rw [h]; decide⟩
    cases c <;> simp only [readCsr, h] <;> first | decide +kernel | simp [Csr.legal?]

theorem busyTs_inv : TsInv 64 busyTs where
  count  := rfl
  mu     := by decide +kernel
  v      := by decide +kernel
  integ  := by decide +kernel
  mid    := by decide
  prev   := by decide
  held   := by rintro hd ⟨⟩; exact ⟨by decide +kernel, rfl⟩
  sorted := by decide
  seen   := by decide
  width  := by decide

theorem inFrame_inv (n : Nat) (h : 90 ≤ n) (h' : n < 4051) : FsInv (inFrame n) where
  count    := by simp [inFrame]
  search   := by simp [inFrame]
  idle     := by simp [inFrame]
  expected := by rintro _ ⟨⟩; exact ⟨by simp [inFrame]; omega, by simp [inFrame], rfl⟩
  unlocked := by simp [inFrame]
  locked   := by simp [inFrame]
  frame    := by
    rintro f ⟨⟩
    exact ⟨⟨rfl, rfl, by simpa [inFrame] using h, by
      rw [show (inFrame n).nIn = n from rfl, show (plInfo 86).len = 4140 from rfl]; omega,
      fun _ => ⟨rfl, by decide⟩⟩, rfl⟩

theorem busy_inv : CoreInv busy where
  csr   := csrInv_of _ (.inl rfl)
  gains := by unfold GainsInv; decide +kernel
  ts    := busyTs_inv
  fs    := inFrame_inv 90 (by omega) (by omega)
  fe    := ⟨by decide +kernel, by simp [busy, closedFe], by decide, by simp [busy, closedFe], fun _ => rfl⟩
  bb    := ⟨rfl, fun _ => by decide, by decide, by decide⟩
  hif   := by unfold HifInv; decide
  ports := ⟨by simp [busy]; exact ⟨⟨.outTsTag 0x2A, by decide⟩, .outTsSample 0x41800000 0, by decide⟩,
    by simp [busy]; exact ⟨⟨.outFsTag 21 true, by decide⟩, .outEos .fs, by decide⟩,
    by simp [busy]; exact ⟨⟨.outBbByte 0x47 true, by decide⟩, .outBbByte 5 false, by decide⟩⟩

/-! ### Witnesses: commands -/

theorem witness_csrw_legal :
    (Csr.ofAddr 0x10 = some .tsSps ∧ Csr.tsSps.legal? 0x43800000 = some true) ∧
    (Csr.ofAddr 0x11 = some .tsLoopBw ∧ Csr.tsLoopBw.legal? 0x3F000000 = some true) ∧
    (Csr.ofAddr 0x12 = some .tsDamping ∧ Csr.tsDamping.legal? 0 = some true) ∧
    (Csr.ofAddr 0x17 = some .tsTedGain ∧ Csr.tsTedGain.legal? 0x49742400 = some true) ∧
    (Csr.ofAddr 0x22 = some .fsCtrl ∧ Csr.fsCtrl.legal? 0xFFFFFFFF = some true) := by decide +kernel

theorem witness_legal_sets_real :
    [0x3F800000, 0x3F800001, 0x43800000, 0x43800001].map Csr.tsSps.legal? = [some false, some true, some true, some false] ∧
    [0x80000001, 0x80000000, 0x3F000000, 0x3F000001].map Csr.tsLoopBw.legal? = [some false, some true, some true, some false] ∧
    [0xBF800000, 0x00000000, 0x42C80000, 0x42C80001].map Csr.tsDamping.legal? = [some false, some true, some true, some false] ∧
    [0x00000000, 0x00000001, 0x3F800000, 0x3F800001].map Csr.tsRolloff.legal? = [some false, some true, some true, some false] ∧
    [0x00000000, 0x00000001, 0x49742400, 0x49742401].map Csr.tsTedGain.legal? = [some false, some true, some true, some false] ∧
    [0x00000000, 0x00000001, 0x3F800000, 0x7F800000].map Csr.fsSofThresh.legal? = [some false, some true, some true, some false] ∧
    [0xBF000000, 0x00000000, 0x3F000000, 0x7FC00000].map Csr.fsFineThresh.legal? = [some false, some true, some true, some false] := by
  decide +kernel

theorem witness_legal_sets_unsigned :
    [0, 255, 256].map Csr.tsRrcDelay.legal? = [some true, some true, some false] ∧
    [0, 1, 4096, 4097].map Csr.tsNfilt.legal? = [some false, some true, some true, some false] ∧
    [0, 1, 3, 4].map Csr.tsInterp.legal? = [some false, some true, some true, some false] ∧
    [0, 262141, 262142].map Csr.fsGold.legal? = [some true, some true, some false] ∧
    [0, 1, 65535, 65536].map Csr.fsFreqPeriod.legal? = [some false, some true, some true, some false] ∧
    [1, 2, 255, 256].map Csr.fsLockCount.legal? = [some false, some true, some true, some false] ∧
    [0, 1, 255, 256].map Csr.fsUnlockCount.legal? = [some false, some true, some true, some false] := by
  decide +kernel

theorem witness_error_bits :
    NewBit 0 s0 (after (.cmdReserved 0x05000000) s0) ∧ NewBit 0 s0 (after (.cmdMalformed 1 none) s0) ∧
    NewBit 1 s0 (after (.csrw 0x05 0) s0) ∧ NewBit 1 s0 (after (.csrr 0x05) s0) ∧
    NewBit 2 s0 (after (.csrw 0x16 0) s0) ∧ NewBit 3 s0 (after .fsReserved s0) ∧
    NewBit 5 s0 (after .tsEos { s0 with ts := { TsState.reset with tags := [⟨0, 1⟩] } }) ∧
    NewBit 6 s0 (after (.bbByte 1) s0) := by
  unfold NewBit; decide +kernel

theorem witness_gain_inputs :
    busy.params.numerics = .reference ∧ s0.csr.tsDamping = 0 ∧
    (after (.csrw 0x12 0x3F000000) (after (.csrw 0x11 0x3D800000) s0)).csr.tsLoopBw = 0x3D800000 := by decide +kernel

theorem witness_after_eos :
    ({ busy with ts := { busyTs with eos := true } } : State).tsIn ≠ [] ∧
    (after .tsEos busy).ts.eos = true ∧ (after .fsEos busy).fs.eos = true ∧ (after .bbEos busy).bb.eos = true := by
  decide +kernel

/-! ### Witnesses: TS -/

/-- TS of `busyTs` before its sixth sample: the ON interpolant at t = 4 is the next. -/
def beforeOn : TsState :=
  { busyTs with
    x := busyTs.x.tail, nIn := 5, kOn := 0, ph := .on, yPrev := none, tPrev := none, held := none }

theorem beforeOn_inv : TsInv 64 beforeOn where
  count  := rfl
  mu     := by decide +kernel
  v      := by decide +kernel
  integ  := by decide +kernel
  mid    := by decide
  prev   := by decide
  held   := by rintro hd ⟨⟩
  sorted := by decide
  seen   := by decide
  width  := by decide

theorem witness_interpolant_is_held :
    CsrInv { busy with ts := beforeOn } ∧ TsInv 64 beforeOn ∧
    (after (.tsSample 0x41C80000 0) { busy with ts := beforeOn }).ts.held = some ⟨real 16, 4⟩ :=
  ⟨csrInv_of _ (.inl rfl), beforeOn_inv, by decide +kernel⟩

theorem witness_release :
    let c := tsCfg busy
    c.sps = 4 ∧ busyTs.held = some ⟨.fin ⟨16, 0⟩, 4⟩ ∧
    busyTs.nIn ≤ floorNat (4 + c.sps / 2 * (1 + busyTs.v)) ∧
    floorNat (4 + c.sps / 2 * (1 + (busyTs.push (real 36)).v)) < (busyTs.push (real 36)).nIn := by decide +kernel

theorem witness_tags :
    sKind 0x40000000000000000000012A = 1 ∧ ({ s0 with params := ⟨1, .reference⟩ } : State).params.tagW ≤ 64 ∧
    busy.params.tagW ≤ 64 := by decide

theorem witness_ends_of_stream :
    busy.ts.eos = false ∧ busy.ts.held ≠ none ∧ s0.ts.eos = false ∧ s0.ts.held = none := by decide

theorem witness_whole_times :
    (tsCfg busy).ctx.numerics = .reference ∧ (tsCfg busy).interp = 1 ∧
    (tsCfg { busy with csr := { busy.csr with tsInterp := 3 } }).interp = 3 ∧ ∀ z ∈ busyTs.x, z ≠ .nonFinite := by
  decide +kernel

/-- A downsampler by 4 at work, and one by 2 at reset. -/
theorem witness_downsampler :
    Downsampler 4 busy ∧ f32Sample 0x42100000 0 ≠ .nonFinite ∧ busy.ts.eos = false ∧ Downsampler 2 s0 where
  left := ⟨rfl, by decide +kernel, ⟨rfl, rfl⟩, ⟨rfl, rfl⟩, ⟨by decide, by decide, by decide⟩, ⟨rfl, rfl, by decide⟩,
    by rintro hd ⟨⟩; exact ⟨by decide, rfl⟩, by decide⟩
  right := ⟨by decide +kernel, rfl, rfl, by decide +kernel, ⟨rfl, rfl⟩, ⟨rfl, rfl⟩, ⟨by decide, by decide, by decide⟩,
    ⟨rfl, rfl, by decide⟩, by rintro hd ⟨⟩, by decide⟩

/-- The loop of `busy` from a state of TS. -/
def atLoop (ts : TsState) : TsRun := releaseHeld (tsCfg busy) ⟨ts, []⟩

/-- One turn of the loop: the next interpolant not in, a MID one in, and an ON one in that is the first, one with damping
0, one that updates the loop with its gains, and one with damping 1/2 and zero gains. -/
theorem witness_loop_turns :
    let c := tsCfg busy
    let isIn := fun ts : TsState => available c ts (nextTime c ts)
    let first := atLoop (beforeOn.push (real 25))
    let frozen := atLoop ({ beforeOn with yPrev := some (real 16) }.push (real 25))
    let updates := atLoop ({ beforeOn with yPrev := some (real 16), k1 := 32 / 273, k2 := 4 / 273 }.push (real 25))
    c.ctx.numerics = .reference ∧ isIn (atLoop busyTs).ts = false ∧
    (isIn (atLoop ((busyTs.push (real 36)).push (real 49))).ts = true ∧
      (atLoop ((busyTs.push (real 36)).push (real 49))).ts.ph = .mid) ∧
    (isIn first.ts = true ∧ first.ts.ph = .on ∧ first.ts.yPrev = none) ∧
    (isIn frozen.ts = true ∧ frozen.ts.ph = .on ∧ frozen.ts.k1 = 0 ∧ frozen.ts.k2 = 0) ∧
    (isIn updates.ts = true ∧ updates.ts.ph = .on ∧ updates.ts.k1 ≠ 0 ∧ updates.ts.yPrev = some (.fin ⟨16, 0⟩) ∧
      updates.ts.yMid = some (.fin ⟨4, 0⟩) ∧ interpolate c updates.ts (nextTime c updates.ts) = .fin ⟨16, 0⟩) ∧
    loopFrozen c frozen.ts ∧ ¬ loopFrozen c updates.ts ∧
    (tsCfg { busy with csr := { busy.csr with tsDamping := 0x3F000000 } }).zeta = 1 / 2 ∧
    ¬ loopFrozen { c with zeta := 1 / 2 } frozen.ts := by
  decide +kernel

/-! ### Witnesses: FS and FE -/

theorem searching_inv (b : CQ) : FsInv (searching b) where
  count    := by simp [searching, pair]
  search   := by simp [searching, FsState.reset]
  idle     := by simp [searching, FsState.reset]
  expected := by simp [searching, FsState.reset]
  unlocked := by simp [searching, FsState.reset]
  locked   := by simp [searching, FsState.reset]
  frame    := by simp [searching, FsState.reset]

theorem confirming_inv (b : CQ) : FsInv (confirming b) where
  count    := by simp [confirming, searching, pair]
  search   := by simp [confirming, searching, FsState.reset]
  idle     := by simp [confirming]
  expected := by simp [confirming, searching]
  unlocked := by simp [confirming, searching, FsState.reset]
  locked   := by simp [confirming, searching, FsState.reset]
  frame    := by simp [confirming, searching, FsState.reset]

theorem tracking_inv (b : CQ) (m : Nat) (p : Pls) : FsInv { tracking b with misses := m, ccmPls := some p } where
  count    := by simp [tracking, confirming, searching, pair]
  search   := by simp [tracking, confirming, searching, FsState.reset]
  idle     := by simp [tracking, confirming]
  expected := by simp [tracking, confirming, searching]
  unlocked := by simp [tracking]
  locked   := by simp [tracking]
  frame    := by simp [tracking, confirming, searching, FsState.reset]

/-- Expected headers in UNLOCKED and LOCKED, a hit and a miss of each, with a valid PLS and without. -/
theorem witness_headers :
    FsInv (confirming ⟨0, 1⟩) ∧ FsInv (tracking ⟨0, 1⟩) ∧ FsInv { tracking ⟨0, 0⟩ with misses := 2 } ∧
    FsInv { tracking ⟨0, 0⟩ with ccmPls := some 116 } ∧ invalidPls 116 = true ∧
    (confirming ⟨0, 1⟩).nIn = 0 + 89 ∧
    isHit ⟨.reference, 0⟩ (f32Val 0x3F333333) ((confirming ⟨0, 1⟩).push (real 0)) 0 = true ∧
    isHit ⟨.reference, 0⟩ (f32Val 0x3F333333) ((tracking ⟨0, 1⟩).push (real 0)) 0 = true ∧
    isHit ⟨.reference, 0⟩ (f32Val 0x3F333333) ((confirming ⟨0, 0⟩).push (real 0)) 0 = false :=
  ⟨confirming_inv _, tracking_inv _ 0 86, tracking_inv _ 2 86, tracking_inv _ 0 116, by decide, rfl,
    by decide +kernel, by decide +kernel, by decide +kernel⟩

theorem inPilots_inv (n : Nat) (h : 90 ≤ n) (h' : n < 4212) : FsInv (inPilots n) where
  count    := by simp [inPilots, inFrame]
  search   := by simp [inPilots, inFrame]
  idle     := by simp [inPilots]
  expected := by rintro _ ⟨⟩; exact ⟨by simp [inPilots, inFrame]; omega, by simp [inPilots, inFrame], rfl⟩
  unlocked := by simp [inPilots, inFrame]
  locked   := by simp [inPilots, inFrame]
  frame    := by
    rintro f ⟨⟩
    exact ⟨⟨rfl, rfl, by simpa [inPilots, inFrame] using h, by
      rw [show (inPilots n).nIn = n from rfl, show (plInfo 87).len = 4212 from rfl]; omega,
      fun _ => ⟨rfl, by decide⟩⟩, rfl⟩

theorem finite_inPilots (n : Nat) : ∀ z ∈ real 0 :: (inPilots n).r, z ≠ .nonFinite := by
  intro z hz
  simp only [inPilots, inFrame, List.mem_cons, List.mem_replicate] at hz
  rcases hz with rfl | ⟨-, rfl⟩ <;> simp [real]

/-- FE in FINE_TRACKING, in closed loop. -/
theorem fineFe_inv : FeInv .reference { closedFe with fstate := .fineTracking } :=
  ⟨by decide +kernel, fun h => absurd h (by decide), by decide, fun h => absurd h (by decide), fun _ => rfl⟩

theorem resetFe_inv : FeInv .reference FeState.reset :=
  ⟨by decide +kernel, fun _ => rfl, by decide, fun _ => rfl, fun h => absurd h (by decide)⟩

theorem finite_pair {b : CQ} {z : Cx} (h : z ∈ real 0 :: pair b) : z ≠ .nonFinite := by
  simp only [pair, List.mem_cons, List.mem_append, List.mem_replicate, List.not_mem_nil, or_false] at h
  rcases h with rfl | (⟨-, rfl⟩ | rfl | rfl) | ⟨-, rfl⟩ <;> simp [real]

/-- The symbol of a fine measurement, and a symbol at which FE does nothing. -/
theorem witness_fine :
    FsInv (inPilots 3041) ∧ (∀ z ∈ real 0 :: (inPilots 3041).r, z ≠ .nonFinite) ∧
    (∀ n, (inPilots n).frm = some ⟨0, 87, true, 0, true, plInfo 87⟩) ∧ (plInfo 87).pilotBlocks = 2 ∧
    3041 = 0 + pilotOffset 2 + 35 ∧ FeInv .reference { closedFe with fstate := .fineTracking } ∧
    FsInv (inPilots 91) ∧ 91 ≠ 4212 + 89 ∧ 91 ≠ 3041 :=
  ⟨inPilots_inv _ (by omega) (by omega), finite_inPilots _, fun _ => rfl, by decide, by decide, fineFe_inv,
    inPilots_inv _ (by omega) (by omega), by omega, by omega⟩

/-- The third miss in a row, a header of no valid PLS, and a RESET: each loses the lock. -/
theorem witness_loses :
    (after (.fsSample 0 0) (fsState { tracking ⟨0, 0⟩ with misses := 2 })).fs.lock = .unlocked ∧
    (after (.fsSample 0 0) (fsState { tracking ⟨0, 0⟩ with ccmPls := some 116 })).fs.lock = .unlocked ∧
    (after (.reset false true false false) busy).fs.lock = .unlocked := by decide +kernel

/-- The outbox is emptied by the rotator and by a RESET of HIF, and filled by FS. -/
theorem witness_outbox :
    busy.hif.obValid = true ∧ (after (.outRotMsg (bits32 busy.hif.obValue)) busy).hif.obValid = false ∧
    (after (.reset false false false true) busy).hif.obValid = false := by decide +kernel

theorem witness_pls :
    (0 : Pls).toNat / 4 ≤ 28 ∧ (115 : Pls).toNat / 4 ≤ 28 ∧ invalidPls 0 = false ∧ invalidPls 115 = false := by decide

/-! ### Witnesses: the output side -/

theorem witness_not_at_the_head :
    busy.rspOut.head? ≠ some 0 ∧ busy.tsOut.head? ≠ some (sampleBeat 0x41800000 0) ∧
    busy.tsOut.head? ≠ some (tagBeat 0x2B) ∧ busy.tsOut.head? ≠ some eosBeat ∧
    busy.fsOut.head? ≠ some (sampleBeat 0 0) ∧ busy.fsOut.head? ≠ some (frameTagBeat 21 false) ∧
    busy.fsOut.head? ≠ some eosBeat ∧ busy.bbOut.head? ≠ some (outByteBeat 5 false) ∧
    busy.bbOut.head? ≠ some bbEosBeat ∧ s0.hif.obValid = false ∧ bits32 busy.hif.obValue ≠ 0 := by decide +kernel

/-! ### Witnesses: BB -/

theorem witness_framing :
    s0.bb.eos = false ∧ s0.bb.isOpen = false ∧ busy.bb.eos = false ∧ busy.bb.isOpen = true ∧
    busy.bb.nbytes + 1 ≠ busy.bb.kbch / 8 := by decide

/-- Two states that agree on the frame: with the same partial packet, and with DISC at the last byte. -/
theorem witness_two_runs :
    busy.bb.fbuf = (bbState busy.bb).bb.fbuf ∧ busy ≠ bbState busy.bb ∧
    (let b := { inBbframe 80 (header 0 0) [1] with disc := true }
     b.isOpen = true ∧ b.eos = false ∧ b.disc = true ∧ b.nbytes + 1 = b.kbch / 8) := by decide +kernel

/-! ### Witnesses that take the kernel longest -/

theorem witness_rw_addresses :
    (∀ a ∈ ([0x10, 0x17, 0x20, 0x22, 0x24, 0x2B] : List (BitVec 8)), rwAddress a) ∧
    ∀ a ∈ ([0x0F, 0x18, 0x1F, 0x23, 0x2C] : List (BitVec 8)), ¬ rwAddress a := by
  unfold rwAddress; decide +kernel

theorem witness_mapped_addresses :
    (∀ a ∈ ([0x04, 0x10, 0x1A, 0x20, 0x30, 0x33, 0x40, 0x44] : List (BitVec 8)), mappedAddress a) ∧
    ∀ a ∈ ([0x05, 0x0F, 0x1B, 0x23, 0x2C, 0x34, 0x3F, 0x45, 0xFF] : List (BitVec 8)), ¬ mappedAddress a := by
  unfold mappedAddress; decide +kernel

/-- The last byte of a frame with a wrong CRC, and with each wrong header field. -/
theorem witness_bad_frames :
    (∀ b ∈ [inBbframe 80 (header 0 0) [], inBbframe 80 (header 8 0) [], inBbframe 96 (header 9 0 ++ [0x51, 0]) [],
        inBbframe 88 (header 8 16 ++ [0x46]) [], inBbframe 88 (header 8 4 ++ [0xEA]) []],
      b.isOpen = true ∧ b.nbytes + 1 = b.kbch / 8) ∧
    crc8 ((header 0 0 ++ [0x42]).take 9) ≠ (header 0 0 ++ [0x42]).getD 9 0 ∧
    (∀ F ∈ [header 8 0 ++ [0x14], header 9 0 ++ [0x51, 0, 0], header 8 16 ++ [0x46, 0], header 8 4 ++ [0xEA, 0]],
      crc8 (F.take 9) = F.getD 9 0) := by decide +kernel

/-- The last byte of valid frames: one with no data, one that completes the partial packet, and one with DISC and a
partial packet whose DATAFIELD is a whole packet. -/
theorem witness_valid_frames :
    (inBbframe 80 (header 0 0) []).nbytes + 1 = 80 / 8 ∧ crc8 ((header 0 0 ++ [0x43]).take 9) = 0x43 ∧
    (inBbframe 88 (header 8 8 ++ [0x3D]) []).nbytes + 1 = 88 / 8 ∧
    crc8 ((header 8 8 ++ [0x3D, 0xB8]).take 9) = 0x3D ∧
    (let b := { inBbframe 1584 packetFrame [0x0A] with disc := true }
     b.isOpen = true ∧ b.disc = true ∧ b.havePart = true ∧ b.nbytes + 1 = b.kbch / 8 ∧
      crc8 (packetFrame.take 9) = packetFrame.getD 9 0) := by decide +kernel

/-- In the window with the single pair 1, j every PLSC soft value is 0, so it decodes to PLS 0, a dummy frame. -/
theorem pair_decodes : decodePls ⟨.reference, 0⟩ (((searching ⟨0, 1⟩).push (real 0)).window 0 90) = 0 :=
  decodePls_flat (n := 64) (by decide +kernel)

theorem pair_is_found :
    let fs := (searching ⟨0, 1⟩).push (real 0)
    let c : NumCtx := ⟨.reference, 0⟩
    (sofMetric c fs 0).gt (.fin (f32Val 0x3F333333)) = true ∧ (sofMetric c fs 0).gt (.fin 0) = true ∧
    (sofMetric c fs 0).ge (sofMetric c fs 1) = true := by decide +kernel

/-- One symbol of a search that reports a header, and one that finds none. -/
theorem witness_search :
    FsInv (searching ⟨0, 1⟩) ∧ (searching ⟨0, 1⟩).nextHdr = none ∧ (searching ⟨0, 1⟩).nIn - 89 = 0 ∧
    (modcodOf (decodePls ⟨.reference, 0⟩ (((searching ⟨0, 1⟩).push (real 0)).window 0 90))).toNat ≤ 28 ∧
    FsInv (searching ⟨0, 0⟩) ∧
    isCandidate ⟨.reference, 0⟩ (f32Val 0x3F333333) ((searching ⟨0, 0⟩).push (real 0)) 0 = false :=
  ⟨searching_inv _, rfl, rfl, by rw [pair_decodes]; decide, searching_inv _, by decide +kernel⟩

/-- A candidate with a valid PLS, in a core whose symbols are finite. -/
theorem witness_coarse :
    isCandidate ⟨.reference, 0⟩ (f32Val 0x3F333333) ((searching ⟨0, 1⟩).push (real 0)) 0 = true ∧
    (searching ⟨0, 1⟩).nIn = 0 + 89 ∧ (searching ⟨0, 1⟩).searchFrom ≤ 0 ∧
    invalidPls (decodePls ⟨.reference, 0⟩ (((searching ⟨0, 1⟩).push (real 0)).window 0 90)) = false ∧
    (∀ z ∈ real 0 :: (searching ⟨0, 1⟩).r, z ≠ .nonFinite) ∧ f32Sample 0 0 = real 0 ∧
    FeInv .reference FeState.reset ∧ s0.csr.fsUnlockCount.toNat = 3 ∧ (tracking ⟨0, 0⟩).misses + 1 < 3 :=
  ⟨by decide +kernel, rfl, le_refl _, by rw [pair_decodes]; decide, fun _ => finite_pair, by decide +kernel, resetFe_inv,
    rfl, by decide⟩

/-- An expected header in ACM while LOCKED: a hit, with the PLS decoded (R276). -/
theorem witness_acm :
    let c : Csrs := { Csrs.reset with fsCtrl := 2 }
    let fs := (tracking ⟨0, 1⟩).push (real 0)
    FsInv (tracking ⟨0, 1⟩) ∧ (latchOf c).acm = true ∧ expectedPls ⟨⟨.reference, 0⟩, c⟩ (latchOf c) fs 0 = 0 ∧
    invalidPls 0 = false ∧ isHit ⟨.reference, 0⟩ (latchOf c).thresh fs 0 = true := by
  refine ⟨tracking_inv _ 0 86, by decide, ?_, by decide, by decide +kernel⟩
  rw [expectedPls, if_neg (by decide)]
  exact pair_decodes

/-- A candidate with an invalid PLS: a noise-free header of PLS 116 (R274). -/
theorem witness_invalid_candidate :
    let fs := (searchingClean 116).push (.fin (headerSymbol 116 89))
    isCandidate ⟨.reference, 0⟩ (f32Val 0x3F333333) fs 0 = true ∧ decodePls ⟨.reference, 0⟩ (fs.window 0 90) = 116 ∧
    invalidPls 116 = true ∧ f32Sample 0xBF800000 0x3F800000 = .fin (headerSymbol 116 89) := by
  refine ⟨by decide +kernel, ?_, by decide, by decide +kernel⟩
  rw [show ((searchingClean 116).push (.fin (headerSymbol 116 89))).window 0 90 = (cleanHeader 116).map .fin by decide +kernel]
  rw [decodePls, softValues_clean]
  refine argmaxFrom_unique (fun u hu => ?_) (fun u => ?_) _ _ (.inr (by decide))
  · rw [plscScore_clean, plscScore_clean]
    simpa [Num.gt, plscMetric_clean_self] using plscMetric_clean_lt hu
  · rw [plscScore_clean, plscScore_clean]
    by_cases hu : u = 116
    · simp [hu, Num.gt]
    · simpa [Num.gt, plscMetric_clean_self] using (plscMetric_clean_lt hu).le

/-- FE enters FINE_TRACKING at a header with a small estimate, and leaves it at one where the mode changes. -/
theorem witness_fine_tracking :
    (after (.fsSample 0 0) { fsState (tracking ⟨0, 1⟩) with
      fe := { FeState.reset with fstate := .coarseCorrected } }).fe.fstate = .fineTracking ∧
    (after (.fsSample 0 0) { fsState (tracking ⟨0, 1⟩) with
      fe := { closedFe with fstate := .fineTracking } }).fe.fstate = .coarseCorrected := by decide +kernel

/-- A core in closed loop whose outbox is full, at a hit with an offset of 1/4 cycle per symbol. -/
def commanding : State :=
  { fsState (tracking ⟨-1, 0⟩) with
    csr := { Csrs.reset with fsCtrl := 1 }
    fe := { FeState.reset with mode := true }
    hif := { status := 0, obValid := true, obValue := 0 } }

theorem witness_command :
    FsInv commanding.fs ∧ FeInv commanding.params.numerics commanding.fe ∧
    (let t := after (.fsSample 0 0) commanding
     t.fe.mode = true ∧ t.fe.fstate = .coarseCorrected ∧ t.fe.fCum = 1 / 4 ∧ commanding.fe.fCum = 0 ∧
     t.hif.status.getLsbD 4 = true ∧ commanding.hif.status.getLsbD 4 = false) :=
  ⟨tracking_inv _ 0 86, ⟨by decide +kernel, fun _ => rfl, by decide, fun _ => rfl, fun _ => rfl⟩, by decide +kernel⟩

/-- A hit that confirms locks (R282). -/
theorem evaluate_locks {c : FsCfg} {h : Nat} {r : FsRun} (hu : r.fs.lock = .unlocked)
    (hh : isHit c.ctx (latchOf c.csr).thresh r.fs h = true)
    (hv : invalidPls (decodePls c.ctx (r.fs.window h 90)) = false) (hl : (latchOf c.csr).lLock ≤ r.fs.hits + 1) :
    (evaluate c h r).fs.lock = .locked := by
  simp [evaluate, expectedPls, FsRun.withFe, hu, hh, hv, confirmHit, coarseAt, hl, expectNext, startFrame_fs]

/-- The symbol that ends an expected header, between frames, evaluates it (R280). -/
theorem after_due {s : State} {re im : Word} {h : Nat} (he : s.fs.eos = false) (hf : s.fs.frm = none)
    (hn : s.fs.nextHdr = some h) (hi : s.fs.nIn = h + 89) : after (.fsSample re im) s =
      withFsRun (evaluate ⟨s.ctx, s.csr⟩ h ⟨s.fs.push (f32Sample re im), s.fe, s.hif, []⟩) s := by
  simp [after, exec, execFsSample, he, fsSampleRun, fsRun, payloadStep, headerStep, FsState.push, hf, hn, hi]

/-- The expected header of `confirming` is the second hit: FS locks. -/
theorem witness_locks : (after (.fsSample 0 0) (fsState (confirming ⟨0, 1⟩))).fs.lock = .locked := by
  rw [after_due (h := 0) rfl rfl rfl rfl, show f32Sample 0 0 = real 0 by decide +kernel]
  rw [show ∀ r s, (withFsRun r s).fs = r.fs from fun _ _ => rfl]
  refine evaluate_locks (by rfl) ?_ ?_ (by decide)
  · have := witness_headers.2.2.2.2.2.2.1
    exact this
  · have := congrArg invalidPls pair_decodes
    exact this.trans (by decide)

theorem test_scrambling :
    (List.range 8).map (fun i => (scrambleR 0 i).val) = [0, 1, 1, 1, 1, 3, 1, 3] ∧
    (List.range 8).map (fun i => (scrambleR 5 i).val) = [1, 1, 1, 3, 1, 3, 1, 1] := by decide +kernel

theorem test_fs_payload_symbol :
    (after (.fsSample 0x3F800000 0x40000000) (fsState (inFrame 91))).fsOut =
      [0x00000000BF80000040000000] := by decide +kernel

/-- Payload symbols of each scrambling value (V-FS-3: `R_0` is 0, 1, 3, 2 at 0, 1, 5, 19). -/
theorem witness_payload :
    (∀ n, 90 ≤ n → n < 4051 → FsInv (inFrame n)) ∧
    (∀ m ∈ [0, 1, 5, 19], m < (plInfo 86).xfec ∧ (inFrame (90 + m)).nIn = 0 + payloadOffset (plInfo 86) m) ∧
    [0, 1, 5, 19].map (scrambleR 0) = [0, 1, 3, 2] ∧ f32Sample 0x3F800000 0x40000000 = .fin ⟨1, 2⟩ :=
  ⟨inFrame_inv, by decide, by decide +kernel, by decide +kernel⟩

end Sys2Proof.Tests
end

section
/-!
PROOFS. The statements of 00_scope.md: what an instruction can change, which instruction a step runs, and what the host
takes from the output ports.
-/

namespace Sys2Proof.Machine

/-! ### What an instruction can change (R4, R165, R373) -/

/-- A CSRW changes the register file, the two gains and the status word (R161). -/
theorem writeAddr_frame (a : BitVec 8) (w : Word) (s : State) : writeAddr a w s = { s with
    csr := (writeAddr a w s).csr
    ts := { s.ts with k1 := (writeAddr a w s).ts.k1, k2 := (writeAddr a w s).ts.k2 }
    hif := { s.hif with status := (writeAddr a w s).hif.status } } := by
  obtain ⟨-, h⟩ | ⟨c, -, -, h⟩ | ⟨c, -, -, h⟩ := writeAddr_cases a w s <;> rw [h]
  · rfl
  · rfl
  · unfold csrWritten
    cases c.isGainInput <;> rfl

/-- A CSRR changes the status word and `RSP_OUT` (R162). -/
theorem readAddr_frame (a : BitVec 8) (s : State) : readAddr a s = { s with
    hif := { s.hif with status := (readAddr a s).hif.status }, rspOut := (readAddr a s).rspOut } := by
  obtain ⟨-, h⟩ | ⟨c, -, h⟩ := readAddr_cases a s <;> rw [h] <;> rfl

/-- An illegal command changes the status word and `RSP_OUT` (R166). -/
theorem illegalCmd_frame (cmd : Word) (s : State) : illegalCmd cmd s = { s with
    hif := { s.hif with status := (illegalCmd cmd s).hif.status }, rspOut := (illegalCmd cmd s).rspOut } := by
  rw [illegalCmd_eq]
  rfl

/-- A reserved beat changes the status word only, and after the end of the stream nothing (R204, R305, R328). -/
theorem raise_unless_frame (eos : Bool) (e : Err) (s : State) : (if eos then s else raise e s) = { s with
    hif := { s.hif with status := (if eos then s else raise e s).hif.status } } := by
  cases eos <;> rfl

/-- The end of TS's stream empties the tags and the held interpolant and changes no other part of TS but the count
(R200). -/
theorem tsFlush_ts (c : TsCfg) (ts : TsState) : (tsFlush c ts).ts =
    { ts with tags := [], held := none, outCount := (tsFlush c ts).ts.outCount } := by
  unfold tsFlush
  cases h : ts.held with
  | none => simp [← h]
  | some hd => rfl

theorem tsEnd_ts (s : State) : (tsEnd s).ts =
    { s.ts with tags := [], held := none, outCount := (tsEnd s).ts.outCount, eos := true } := by
  have h : (tsEnd s).ts = { (tsFlush (tsCfg s) s.ts).ts with eos := true } := by
    unfold tsEnd
    cases tsDropsTags s.ts <;> rfl
  rw [h, tsFlush_ts]

/-- The end of TS's stream changes TS, `TS_OUT`, the mark of free values and the status word (R200, R203). -/
theorem tsEnd_frame (s : State) : tsEnd s = { s with
    ts := { s.ts with tags := [], held := none, outCount := (tsEnd s).ts.outCount, eos := true }
    tsOut := (tsEnd s).tsOut
    tick := (tsEnd s).tick
    hif := { s.hif with status := (tsEnd s).hif.status } } := by
  rw [← tsEnd_ts]
  unfold tsEnd
  cases tsDropsTags s.ts <;> rfl

/-- The header part never ends the stream. -/
theorem HeaderCase.fs_eos {c : FsCfg} {r q : FsRun} (h : HeaderCase c r q) : q.fs.eos = r.fs.eos := by
  cases h <;> rw [‹q.fs = _›]

/-- A symbol never ends the stream (R280). -/
theorem fsSampleRun_eos (c : FsCfg) (z : Cx) (r : FsRun) : (fsSampleRun c z r).fs.eos = r.fs.eos := by
  have hp : ∀ q : FsRun, (payloadStep c r.fs.nIn z q).fs.eos = q.fs.eos := by
    intro q
    obtain h | ⟨f, -, -, -, h⟩ := payloadStep_fs c r.fs.nIn z q <;> rw [h]
  have hh : ∀ q : FsRun, q.fs.nIn = r.fs.nIn + 1 → (headerStep c r.fs.nIn q).fs.eos = q.fs.eos := by
    intro q hq
    obtain ⟨h, -⟩ | ⟨-, h, -⟩ := headerStep_cases c r.fs.nIn q hq
    · rw [h]
    · exact h.fs_eos
  calc (fsSampleRun c z r).fs.eos
      = (payloadStep c r.fs.nIn z { r with fs := r.fs.push z }).fs.eos := hh _ (payloadStep_nIn ..)
    _ = r.fs.eos := hp _

/-- Settles O10: instruction by instruction, each by the frame of the operation it runs. -/
theorem instructionFrames : Obligations.InstructionFrames := by
  intro i s t h
  cases i with
  | csrw a w => cases h; exact writeAddr_frame a w s
  | csrr a => cases h; exact readAddr_frame a s
  | reset ts fs bb hif =>
    cases h
    dsimp only
    rw [resetUnits_eq]
  | cmdReserved cmd => cases h; exact illegalCmd_frame cmd s
  | cmdMalformed cmd _ => cases h; exact illegalCmd_frame cmd s
  | tsSample re im =>
    cases h
    dsimp only
    split
    · exact ⟨rfl, rfl, rfl, rfl⟩
    · obtain ⟨-, -, hk1, hk2, heos⟩ := tsSampleRun_frame (tsCfg s) (f32Sample re im) s.ts
      exact ⟨rfl, hk1, hk2, heos⟩
  | tsEos =>
    cases h
    dsimp only
    split
    · rfl
    · rw [tsEnd_frame]
  | fsSample re im =>
    cases h
    dsimp only
    split
    · exact ⟨rfl, rfl⟩
    · exact ⟨rfl, fsSampleRun_eos ⟨s.ctx, s.csr⟩ (f32Sample re im) (fsRun s)⟩
  | tsReserved => cases h; exact raise_unless_frame s.ts.eos .beatErr s
  | fsReserved => cases h; exact raise_unless_frame s.fs.eos .beatErr s
  | bbReserved => cases h; exact raise_unless_frame s.bb.eos .beatErr s
  | bbByte b =>
    cases h
    dsimp only
    split
    · rfl
    · split <;> rfl
  -- One guard, and in both its branches the line's own fields only.
  | tsTag _ | fsEos | bbStart _ _ | bbEos | outRotMsg _ =>
    cases h
    dsimp only
    split <;> rfl
  | outEos port => cases port <;> cases h <;> rfl
  -- No guard: the next state is written out in the instruction's meaning.
  | nop | clrerr | fsTag _ | outRsp _ | outTsSample _ _ | outTsTag _ | outFsSample _ _ | outFsTag _ _ | outBbByte _ _
  | outBbEos =>
    cases h
    rfl

/-! ### What an agent's turn finds (R14, R96, R99, R375) -/

theorem fetch_hif_command {s : State} {i : Instr} {q : List Word} (h : decodeCmd s.cmdIn = .ok (i, q)) :
    fetch .hif s = .run i { s with cmdIn := q } := by simp only [fetch, fetchHif, h]

theorem fetch_hif_empty {s : State} (h : s.cmdIn = []) : fetch .hif s = .idle := by
  simp only [fetch, fetchHif, h, decodeCmd]

theorem fetch_ts_beat {s : State} {b : Beat} {q : List Beat} (h : s.tsIn = b :: q) :
    fetch .ts s = .run (decodeTsIn b) { s with tsIn := q } := by simp only [fetch, fetchTs, h]

theorem fetch_ts_empty {s : State} (h : s.tsIn = []) : fetch .ts s = .idle := by simp only [fetch, fetchTs, h]

theorem fetch_fs_beat {s : State} {b : Beat} {q : List Beat} (h : s.fsIn = b :: q) :
    fetch .fs s = .run (decodeFsIn b) { s with fsIn := q } := by simp only [fetch, fetchFs, h]

theorem fetch_fs_empty {s : State} (h : s.fsIn = []) : fetch .fs s = .idle := by simp only [fetch, fetchFs, h]

theorem fetch_bb_beat {s : State} {w : Word} {q : List Word} (h : s.bbIn = w :: q) :
    fetch .bb s = .run (decodeBbIn w) { s with bbIn := q } := by simp only [fetch, fetchBb, h]

theorem fetch_bb_empty {s : State} (h : s.bbIn = []) : fetch .bb s = .idle := by simp only [fetch, fetchBb, h]

/-- The host's turn runs the word at the head of its port, and leaves the port to the instruction. -/
theorem fetchOut_headOf {α : Type} {p : OutPort} {s : State} {port q : List α} {b : α} {dec : α → Decoded Instr}
    {i : Instr} (h : port = b :: q) (hd : dec b = .ok i) : fetchOut p s (headOf port dec) = .run i s := by
  rw [h, headOf, hd]
  rfl

theorem fetch_rotator_full {s : State} (h : s.hif.obValid = true) :
    fetch .rotator s = .run (decodeRotOut (bits32 s.hif.obValue)) s := if_pos h

theorem fetch_rotator_empty {s : State} (h : s.hif.obValid = false) : fetch .rotator s = .idle := by
  simp only [fetch, fetchRotator, h]
  rfl

/-! ### What a step does (R22, R375) -/

theorem step_of_turn {s : State} {a : Agent} {rest : List Event} (h : s.sched = .turn a :: rest) :
    step s = turn a { s with sched := rest } := by simp only [step, h]

/-- A turn that finds an instruction runs it. -/
theorem step_of_fetch_run {s s' : State} {a : Agent} {rest : List Event} {i : Instr} (h : s.sched = .turn a :: rest)
    (hf : fetch a { s with sched := rest } = .run i s') : step s = exec i s' := by
  rw [step_of_turn h, turn, hf]

/-- A turn that finds nothing uses its event up (R375). -/
theorem step_of_fetch_idle {s : State} {a : Agent} {rest : List Event} (h : s.sched = .turn a :: rest)
    (hf : fetch a { s with sched := rest } = .idle) : step s = .next { s with sched := rest } := by
  rw [step_of_turn h, turn, hf]

/-- The core rests when nothing is scripted (R375). -/
theorem step_of_nil {s : State} (h : s.sched = []) : step s = .next s := by simp only [step, h]

/-- An event that is no turn supplies its word or beat (R22). -/
theorem step_of_supply {s : State} {e : Event} {rest : List Event} (h : s.sched = e :: rest)
    (he : ∀ a, e ≠ .turn a) : step s = .next (supply e { s with sched := rest }) := by
  cases e with
  | turn a => exact absurd rfl (he a)
  | _ => simp only [step, h]

/-- Settles O7: what the agent's turn finds is what the step runs. -/
theorem stepRunsTheDecodedInstruction : Obligations.StepRunsTheDecodedInstruction := by
  intro s rest
  refine ⟨?_, ?_, ?_, ?_, ?_, ?_, ?_, ?_, ?_⟩
  · exact fun i q hs hd => step_of_fetch_run hs (fetch_hif_command hd)
  · exact fun b q hs hp => step_of_fetch_run hs (fetch_ts_beat hp)
  · exact fun b q hs hp => step_of_fetch_run hs (fetch_fs_beat hp)
  · exact fun w q hs hp => step_of_fetch_run hs (fetch_bb_beat hp)
  · exact fun w q hs hp => step_of_fetch_run hs (fetchOut_headOf hp rfl)
  · exact fun b q i hs hp hd => step_of_fetch_run hs (fetchOut_headOf hp hd)
  · exact fun b q i hs hp hd => step_of_fetch_run hs (fetchOut_headOf hp hd)
  · exact fun w q i hs hp hd => step_of_fetch_run hs (fetchOut_headOf hp hd)
  · exact fun hs hv => step_of_fetch_run hs (fetch_rotator_full hv)

/-- Settles O8: an empty script, the four supplies, and the five turns that find nothing. -/
theorem stepsWithoutAnInstruction : Obligations.StepsWithoutAnInstruction := by
  intro s rest
  refine ⟨step_of_nil, ?_, ?_, ?_, ?_, ?_, ?_, ?_, ?_, ?_⟩
  · exact fun w hs => step_of_supply hs (by simp)
  · exact fun b hs => step_of_supply hs (by simp)
  · exact fun b hs => step_of_supply hs (by simp)
  · exact fun w hs => step_of_supply hs (by simp)
  · exact fun hs hp => step_of_fetch_idle hs (fetch_hif_empty hp)
  · exact fun hs hp => step_of_fetch_idle hs (fetch_ts_empty hp)
  · exact fun hs hp => step_of_fetch_idle hs (fetch_fs_empty hp)
  · exact fun hs hp => step_of_fetch_idle hs (fetch_bb_empty hp)
  · exact fun hs hv => step_of_fetch_idle hs (fetch_rotator_empty hv)

/-! ### What the host takes (R22, R99; assumption log 5) -/

/-- The beat named stands at the head and is taken. -/
theorem takeHead_of_eq {α : Type} [DecidableEq α] {port q : List α} {b : α} (h : port = b :: q) :
    takeHead port b = q := by rw [h, takeHead_self]

theorem exec_outRsp (v : Word) (s : State) :
    exec (.outRsp v) s = .next { s with rspOut := takeHead s.rspOut v } := rfl

theorem exec_outTsSample (re im : Word) (s : State) :
    exec (.outTsSample re im) s = .next { s with tsOut := takeHead s.tsOut (sampleBeat re im) } := rfl

theorem exec_outTsTag (p : TagPayload) (s : State) :
    exec (.outTsTag p) s = .next { s with tsOut := takeHead s.tsOut (tagBeat p) } := rfl

theorem exec_outFsSample (re im : Word) (s : State) :
    exec (.outFsSample re im) s = .next { s with fsOut := takeHead s.fsOut (sampleBeat re im) } := rfl

theorem exec_outFsTag (m : BitVec 5) (sh : Bool) (s : State) :
    exec (.outFsTag m sh) s = .next { s with fsOut := takeHead s.fsOut (frameTagBeat m sh) } := rfl

theorem exec_outEos_ts (s : State) : exec (.outEos .ts) s = .next { s with tsOut := takeHead s.tsOut eosBeat } := rfl

theorem exec_outEos_fs (s : State) : exec (.outEos .fs) s = .next { s with fsOut := takeHead s.fsOut eosBeat } := rfl

theorem exec_outBbByte (b : Byte) (sop : Bool) (s : State) :
    exec (.outBbByte b sop) s = .next { s with bbOut := takeHead s.bbOut (outByteBeat b sop) } := rfl

theorem exec_outBbEos (s : State) : exec .outBbEos s = .next { s with bbOut := takeHead s.bbOut bbEosBeat } := rfl

/-- The rotator finds no MSG, or another value than the one named. -/
theorem exec_outRotMsg_other {s : State} {v : Word} (h : s.hif.obValid = false ∨ bits32 s.hif.obValue ≠ v) :
    exec (.outRotMsg v) s = .next s := by
  have hc : (s.hif.obValid && outboxMsg s == v) = false := by
    obtain hv | hv := h
    · simp [hv]
    · simp [outboxMsg, hv]
  simp [exec, execOutRotMsg, hc]

/-- Settles O51: every output instruction takes its beat from its own port with `takeHead`. -/
theorem hostTakesFromTheHead : Obligations.HostTakesFromTheHead := by
  refine ⟨?_, ?_, ?_, ?_, ?_, ?_, ?_, ?_, ?_, fun s => ⟨?_, ?_, ?_, ?_, ?_, ?_, ?_, ?_, ?_, ?_⟩⟩
  · exact fun s v q h => by rw [exec_outRsp, takeHead_of_eq h]
  · exact fun s re im q h => by rw [exec_outTsSample, takeHead_of_eq h]
  · exact fun s p q h => by rw [exec_outTsTag, takeHead_of_eq h]
  · exact fun s re im q h => by rw [exec_outFsSample, takeHead_of_eq h]
  · exact fun s m sh q h => by rw [exec_outFsTag, takeHead_of_eq h]
  · exact fun s q h => by rw [exec_outEos_ts, takeHead_of_eq h]
  · exact fun s q h => by rw [exec_outEos_fs, takeHead_of_eq h]
  · exact fun s b sop q h => by rw [exec_outBbByte, takeHead_of_eq h]
  · exact fun s q h => by rw [exec_outBbEos, takeHead_of_eq h]
  · exact fun v h => by rw [exec_outRsp, takeHead_other h]
  · exact fun re im h => by rw [exec_outTsSample, takeHead_other h]
  · exact fun p h => by rw [exec_outTsTag, takeHead_other h]
  · exact fun re im h => by rw [exec_outFsSample, takeHead_other h]
  · exact fun m sh h => by rw [exec_outFsTag, takeHead_other h]
  · exact fun h => by rw [exec_outEos_ts, takeHead_other h]
  · exact fun h => by rw [exec_outEos_fs, takeHead_other h]
  · exact fun b sop h => by rw [exec_outBbByte, takeHead_other h]
  · exact fun h => by rw [exec_outBbEos, takeHead_other h]
  · exact fun v h => exec_outRotMsg_other h

end Sys2Proof.Machine
end

section
/-!
PROOFS. The statements of 10_state.md: the CSR space, what an instruction can do to the registers, TS, BB and
`HIF_STATUS`, and the invariants it keeps.
-/

namespace Sys2Proof.Machine

/-! ### The addresses of the CSR space (R38, R40) -/

/-- A register's address is mapped, and it is an RW address exactly when the register has a legal set. -/
theorem address_of_ofAddr {a : BitVec 8} {c : Csr} (h : Csr.ofAddr a = some c) (w : Word) :
    mappedAddress a ∧ ((c.legal? w).isSome = true ↔ rwAddress a) := by
  unfold Csr.ofAddr at h
  unfold mappedAddress rwAddress
  split at h <;> cases h
  all_goals
    simp only [Csr.legal?, Option.isSome_some, Option.isSome_none, true_iff, Bool.false_eq_true, false_iff]
    omega

/-- Every mapped address has a register. -/
theorem ofAddr_of_mapped {a : BitVec 8} (h : mappedAddress a) : ∃ c, Csr.ofAddr a = some c := by
  unfold mappedAddress at h
  rw [← Option.isSome_iff_exists]
  unfold Csr.ofAddr
  obtain h | ⟨_, _⟩ | ⟨_, _⟩ | ⟨_, _⟩ | ⟨_, _⟩ | ⟨_, _⟩ := h
  all_goals interval_cases a.toNat <;> rfl

theorem mapped_of_rw {a : BitVec 8} (h : rwAddress a) : mappedAddress a := by
  unfold mappedAddress
  unfold rwAddress at h
  omega

/-- A register without a legal set has an address that is not RW (R34). -/
theorem not_rw_of_legal_none {a : BitVec 8} {w : Word} (h : ∀ c, Csr.ofAddr a = some c → c.legal? w = none) :
    ¬ rwAddress a := by
  intro hrw
  obtain ⟨c, hc⟩ := ofAddr_of_mapped (mapped_of_rw hrw)
  have hs := (address_of_ofAddr hc w).2.mpr hrw
  rw [h c hc] at hs
  cases hs

theorem not_mapped_of_none {a : BitVec 8} (h : Csr.ofAddr a = none) : ¬ mappedAddress a := by
  intro hm
  obtain ⟨c, hc⟩ := ofAddr_of_mapped hm
  rw [h] at hc
  cases hc

/-! ### Reading (R162) -/

theorem exec_csrr (a : BitVec 8) (s : State) : exec (.csrr a) s = .next (readAddr a s) := rfl

/-- A CSRR of a mapped address answers its register. -/
theorem answers_readCsr {a : BitVec 8} {c : Csr} (h : Csr.ofAddr a = some c) (s : State) :
    Answers s a (readCsr s c) := by
  obtain ⟨hn, -⟩ | ⟨c', hc, hr⟩ := readAddr_cases a s
  · rw [h] at hn
    cases hn
  · cases h.symm.trans hc
    rw [Answers, exec_csrr, hr]
    rfl

theorem outboxStatusWord_eq (h : HifState) : outboxStatusWord h = if h.obValid then 1 else 0 := by
  unfold outboxStatusWord
  cases h.obValid <;> rfl

/-- `FS_STATUS` as a number (R69). -/
theorem toNat_fsStatusWord (fs : FsState) (fe : FeState) : (fsStatusWord fs fe).toNat =
    (if fs.lastPlsValid then 2 ^ 10 else 0) + fs.lastPls.toNat * 2 ^ 3 + fe.fstate.code.toNat * 2 +
      (if fs.lock = .locked then 1 else 0) := by
  have hl : (fs.lock == .locked) = decide (fs.lock = .locked) := by cases fs.lock <;> rfl
  unfold fsStatusWord
  erw [toNat_append_add, toNat_append_add, toNat_append_add, toNat_append_add]
  simp only [toNat_ofBool_eq, hl, decide_eq_true_eq]
  split_ifs <;> simp <;> omega

/-- The fields of `FS_STATUS` (R69). -/
theorem fsStatusWord_fields (fs : FsState) (fe : FeState) :
    (fsStatusWord fs fe).getLsbD 0 = decide (fs.lock = .locked) ∧
    (fsStatusWord fs fe).extractLsb' 1 2 = fe.fstate.code ∧
    (fsStatusWord fs fe).extractLsb' 3 7 = fs.lastPls ∧
    (fsStatusWord fs fe).getLsbD 10 = fs.lastPlsValid ∧
    (fsStatusWord fs fe).extractLsb' 11 21 = 0 := by
  have hp := fs.lastPls.isLt
  have hc := fe.fstate.code.isLt
  refine ⟨?_, BitVec.eq_of_toNat_eq ?_, BitVec.eq_of_toNat_eq ?_, ?_, BitVec.eq_of_toNat_eq ?_⟩
  all_goals
    simp only [toNat_bit, toNat_field, toNat_fsStatusWord]
    cases fs.lastPlsValid <;> cases fs.lock <;> simp <;> omega

/-- Settles O17: both are constants of `readCsr`. -/
theorem identityRegistersAreConstant : Obligations.IdentityRegistersAreConstant := fun s =>
  ⟨answers_readCsr (c := .hifId) rfl s, answers_readCsr (c := .hifVersion) rfl s⟩

/-- Settles O18: each address has its register, and `readCsr` gives what that register shows. -/
theorem csrrShowsTheState : Obligations.CsrrShowsTheState := by
  intro s
  have read (a : BitVec 8) (c : Csr) (h : Csr.ofAddr a = some c) : Answers s a (readCsr s c) := answers_readCsr h s
  exact ⟨read 0x02 .hifStatus rfl, read 0x03 .hifOutbox rfl,
    outboxStatusWord_eq s.hif ▸ read 0x04 .hifOutboxStatus rfl,
    read 0x10 .tsSps rfl, read 0x11 .tsLoopBw rfl, read 0x12 .tsDamping rfl, read 0x13 .tsRolloff rfl,
    read 0x14 .tsRrcDelay rfl, read 0x15 .tsNfilt rfl, read 0x16 .tsInterp rfl, read 0x17 .tsTedGain rfl,
    read 0x18 .tsK1 rfl, read 0x19 .tsK2 rfl, read 0x1A .tsOutCount rfl,
    read 0x20 .fsGold rfl, read 0x21 .fsFreqPeriod rfl, read 0x22 .fsCtrl rfl,
    read 0x24 .fsPlsFilter0 rfl, read 0x25 .fsPlsFilter1 rfl, read 0x26 .fsPlsFilter2 rfl,
    read 0x27 .fsPlsFilter3 rfl, read 0x28 .fsSofThresh rfl, read 0x29 .fsLockCount rfl,
    read 0x2A .fsUnlockCount rfl, read 0x2B .fsFineThresh rfl,
    ⟨_, read 0x30 .fsStatus rfl, fsStatusWord_fields s.fs s.fe⟩,
    read 0x31 .fsFreqEst rfl, read 0x32 .fsFrameCount rfl, read 0x33 .fsLastCmd rfl,
    read 0x40 .bbFramesOk rfl, read 0x41 .bbFramesCrcErr rfl, read 0x42 .bbFramesHdrErr rfl,
    read 0x43 .bbFramesMalformed rfl, read 0x44 .bbPacketsOut rfl⟩

/-! ### Writing (R161, R367) -/

theorem exec_csrw (a : BitVec 8) (w : Word) (s : State) : exec (.csrw a w) s = .next (writeAddr a w s) := rfl

/-- A CSRW outside the RW addresses only raises `CSR_ADDR_ERR` (R34). -/
theorem writeAddr_not_rw {a : BitVec 8} (h : ¬ rwAddress a) (w : Word) (s : State) :
    writeAddr a w s = WithError 2 s := by
  have hrw (c : Csr) (b : Bool) (hc : Csr.ofAddr a = some c) (hl : c.legal? w = some b) : rwAddress a :=
    (address_of_ofAddr hc w).2.mp (by rw [hl]; rfl)
  obtain ⟨-, hw⟩ | ⟨c, hc, hl, -⟩ | ⟨c, hc, hl, -⟩ := writeAddr_cases a w s
  · exact hw
  · exact absurd (hrw c _ hc hl) h
  · exact absurd (hrw c _ hc hl) h

/-- A CSRW of an illegal value only raises `CSR_VAL_ERR` (R35). -/
theorem writeAddr_illegal {a : BitVec 8} {c : Csr} {w : Word} (hc : Csr.ofAddr a = some c)
    (hl : c.legal? w = some false) (s : State) : writeAddr a w s = WithError 4 s := by
  simp only [writeAddr, hc, hl, raise_eq, mask_csrValErr]

/-- A CSRW of a legal value is done (R161). -/
theorem writeAddr_legal {a : BitVec 8} {c : Csr} {w : Word} (hc : Csr.ofAddr a = some c)
    (hl : c.legal? w = some true) (s : State) : writeAddr a w s = csrWritten c w s := by
  simp only [writeAddr, hc, hl]

theorem readAddr_not_mapped {a : BitVec 8} (h : ¬ mappedAddress a) (s : State) :
    readAddr a s = sendRsp 0 (WithError 2 s) := by
  obtain ⟨-, hr⟩ | ⟨c, hc, -⟩ := readAddr_cases a s
  · exact hr
  · exact absurd (address_of_ofAddr hc 0).1 h

/-- Settles O15: a register's legal set tells the RW addresses from the others. -/
theorem csrAccessErrors : Obligations.CsrAccessErrors := by
  intro s a w
  refine ⟨fun h => ?_, fun h => ?_, fun h => ?_, fun h => ?_⟩
  · rw [exec_csrw, writeAddr_not_rw h]
  · obtain ⟨c, hc⟩ := ofAddr_of_mapped (mapped_of_rw h)
    obtain ⟨b, hb⟩ := Option.isSome_iff_exists.mp ((address_of_ofAddr hc w).2.mpr h)
    cases b with
    | true => exact ⟨c, hc, .inl hb⟩
    | false => exact ⟨c, hc, .inr ⟨hb, by rw [exec_csrw, writeAddr_illegal hc hb]⟩⟩
  · obtain ⟨c, hc⟩ := ofAddr_of_mapped h
    exact ⟨c, hc, answers_readCsr hc s⟩
  · rw [exec_csrr, readAddr_not_mapped h]
    rfl

/-! ### The legal sets (R36, R50 to R68) -/

theorem f32Legal_iff (w : Word) (p : Rat → Bool) : f32Legal w p = true ↔ ∃ q, f32 w = .fin q ∧ p q = true := by
  unfold f32Legal
  cases f32 w <;> simp

theorem u32Legal_iff (w : Word) (lo hi : Nat) : u32Legal w lo hi = true ↔ lo ≤ w.toNat ∧ w.toNat ≤ hi := by
  simp [u32Legal]

/-- With no error pending, a CSRW to an RW register leaves none exactly when the value is legal. -/
theorem accepted_iff {a : BitVec 8} {c : Csr} {w : Word} {b : Bool} {s : State} (h0 : s.hif.status = 0)
    (hc : Csr.ofAddr a = some c) (hb : c.legal? w = some b) :
    (∃ t, exec (.csrw a w) s = .next t ∧ t.hif.status = 0) ↔ b = true := by
  cases b with
  | true =>
    refine iff_of_true ⟨csrWritten c w s, ?_, h0⟩ rfl
    rw [exec_csrw, writeAddr_legal hc hb]
  | false =>
    refine iff_of_false ?_ (by simp)
    rintro ⟨t, ht, h⟩
    rw [exec_csrw, writeAddr_illegal hc hb] at ht
    cases ht
    simp [WithError, h0] at h

/-- Settles O16: each address has its register, and the register its legal set. -/
theorem csrwLegalSets : Obligations.CsrwLegalSets := by
  intro s w h0 accepted
  have legal (a : BitVec 8) (c : Csr) (b : Bool) (hc : Csr.ofAddr a = some c) (hb : c.legal? w = some b) :
      accepted a ↔ b = true := accepted_iff h0 hc hb
  have real (a : BitVec 8) (c : Csr) (p : Rat → Bool) (hc : Csr.ofAddr a = some c)
      (hb : c.legal? w = some (f32Legal w p)) : accepted a ↔ ∃ q, f32 w = .fin q ∧ p q = true :=
    (legal a c _ hc hb).trans (f32Legal_iff w p)
  have unsigned (a : BitVec 8) (c : Csr) (lo hi : Nat) (hc : Csr.ofAddr a = some c)
      (hb : c.legal? w = some (u32Legal w lo hi)) : accepted a ↔ lo ≤ w.toNat ∧ w.toNat ≤ hi :=
    (legal a c _ hc hb).trans (u32Legal_iff w lo hi)
  refine ⟨?_, ?_, ?_, ?_, ?_, ?_, ?_, ?_, ?_, ?_, ?_, ?_, ?_, ?_, ?_, ?_, ?_, ?_, ?_⟩
  · simpa using real 0x10 .tsSps _ rfl rfl
  · simpa using real 0x11 .tsLoopBw _ rfl rfl
  · simpa using real 0x12 .tsDamping _ rfl rfl
  · simpa using real 0x13 .tsRolloff _ rfl rfl
  · simpa using unsigned 0x14 .tsRrcDelay _ _ rfl rfl
  · exact unsigned 0x15 .tsNfilt _ _ rfl rfl
  · rw [unsigned 0x16 .tsInterp _ _ rfl rfl]
    bv_omega
  · simpa using real 0x17 .tsTedGain _ rfl rfl
  · simpa using unsigned 0x20 .fsGold _ _ rfl rfl
  · exact unsigned 0x21 .fsFreqPeriod _ _ rfl rfl
  · exact (legal 0x22 .fsCtrl true rfl rfl).mpr rfl
  · exact (legal 0x24 .fsPlsFilter0 true rfl rfl).mpr rfl
  · exact (legal 0x25 .fsPlsFilter1 true rfl rfl).mpr rfl
  · exact (legal 0x26 .fsPlsFilter2 true rfl rfl).mpr rfl
  · exact (legal 0x27 .fsPlsFilter3 true rfl rfl).mpr rfl
  · simpa using real 0x28 .fsSofThresh _ rfl rfl
  · exact unsigned 0x29 .fsLockCount _ _ rfl rfl
  · exact unsigned 0x2A .fsUnlockCount _ _ rfl rfl
  · simpa using real 0x2B .fsFineThresh _ rfl rfl

/-! ### The registers (R35, R36, R63) -/

/-- No instruction changes the build parameters (R9). -/
theorem exec_params {i : Instr} {s t : State} (h : exec i s = .next t) : t.params = s.params := by
  have hf := instructionFrames i s t h
  cases i with
  | tsSample _ _ | fsSample _ _ => exact (congrArg State.params hf.1).trans rfl
  | outEos port => cases port <;> exact (congrArg State.params hf).trans rfl
  | _ => exact (congrArg State.params hf).trans rfl

/-- Only a CSRW of a legal value changes the register file (R161). -/
theorem exec_csr_cases {i : Instr} {s t : State} (h : exec i s = .next t) :
    t.csr = s.csr ∨ ∃ c w, c.legal? w = some true ∧ t = csrWritten c w s := by
  have hf := instructionFrames i s t h
  cases i with
  | csrw a w =>
    cases h
    obtain ⟨-, h⟩ | ⟨c, -, -, h⟩ | ⟨c, -, hl, h⟩ := writeAddr_cases a w s <;> rw [h]
    · exact .inl rfl
    · exact .inl rfl
    · exact .inr ⟨c, w, hl, rfl⟩
  | tsSample _ _ | fsSample _ _ => exact .inl ((congrArg State.csr hf.1).trans rfl)
  | outEos port => cases port <;> exact .inl ((congrArg State.csr hf).trans rfl)
  | _ => exact .inl ((congrArg State.csr hf).trans rfl)

/-- The legality of the registers is a matter of the register file alone: an RO register has no legal set. -/
theorem CsrInv.of_csr_eq {s t : State} (h : CsrInv s) (he : t.csr = s.csr) : CsrInv t where
  legal c := by
    have hc : c.legal? (readCsr t c) = c.legal? (readCsr s c) := by
      cases c <;> simp only [readCsr, he, Csr.legal?]
    rw [hc]
    exact h.legal c
  reserved := by
    rw [he]
    exact h.reserved

/-- A legal write keeps every register legal, and clears the reserved bits of `FS_CTRL` (R63). -/
theorem CsrInv.csrWritten {s : State} {c : Csr} {w : Word} (h : CsrInv s) (hl : c.legal? w = some true) :
    CsrInv (csrWritten c w s) where
  legal c' := by
    rw [readCsr_csrWritten c w s c' hl]
    split
    next hc =>
      subst hc
      split
      next hctrl => simp [hctrl, Csr.legal?]
      next => simp [hl]
    next =>
      split
      next hk => obtain ⟨-, rfl | rfl⟩ := hk <;> simp [Csr.legal?]
      next => exact h.legal c'
  reserved := by
    have hr : (Machine.csrWritten c w s).csr.fsCtrl = _ := readCsr_csrWritten c w s .fsCtrl hl
    rw [hr]
    by_cases hc : c = .fsCtrl
    · subst hc
      simp only [if_true, BitVec.and_assoc]
      exact BitVec.and_zero
    · simp only [Ne.symm hc, if_false, reduceCtorEq, or_self, and_false]
      exact h.reserved

/-- Every instruction keeps the registers legal. -/
theorem CsrInv.exec {i : Instr} {s t : State} (h : CsrInv s) (he : exec i s = .next t) : CsrInv t := by
  obtain hcsr | ⟨c, w, hl, rfl⟩ := exec_csr_cases he
  · exact h.of_csr_eq hcsr
  · exact h.csrWritten hl

/-- Settles O53: only a CSRW of a legal value writes a register. -/
theorem csrsStayLegal : Obligations.CsrsStayLegal := by
  intro s t h hst
  refine step_keeps (P := CsrInv) (fun s s' hc hs => ?_) (fun i s t hs he => hs.exec he) h hst
  exact hs.of_csr_eq ((congrArg State.csr hc).trans rfl)

/-! ### TS (R78, R202) -/

/-- A legal `TS_SPS` is a positive number of samples (R50). -/
theorem CsrInv.sps_nonneg {s : State} (h : CsrInv s) : 0 ≤ (tsCfg s).sps := by
  have hl : f32Legal s.csr.tsSps (fun q => decide (1 < q) && decide (q ≤ 256)) = true := by
    simpa [Csr.legal?, readCsr] using h.legal .tsSps
  obtain ⟨q, hq, hp⟩ := (f32Legal_iff _ _).mp hl
  simp only [Bool.and_eq_true, decide_eq_true_eq] at hp
  simp only [tsCfg, f32Val, hq, Num.val]
  linarith

/-- What an instruction can do to TS. -/
inductive TsCase (i : Instr) (s t : State) : Prop where
  | same (h : t.ts = s.ts)
  /-- R161 -/
  | gains (a : BitVec 8) (w : Word) (hi : i = .csrw a w) (h : t.ts = { s.ts with k1 := t.ts.k1, k2 := t.ts.k2 })
  /-- R391 -/
  | reset (fs bb hif : Bool) (hi : i = .reset true fs bb hif)
      (h : t.ts = setGains s.params.numerics s.csr TsState.reset)
  /-- R190 -/
  | sample (re im : Word) (hi : i = .tsSample re im) (he : s.ts.eos = false)
      (h : t.ts = (tsSampleRun (tsCfg s) (f32Sample re im) s.ts).ts)
  /-- R193 -/
  | tag (p : TagPayload) (hi : i = .tsTag p) (he : s.ts.eos = false)
      (h : t.ts = { s.ts with tags := s.ts.tags ++ [⟨s.ts.nIn, maskTag s.params.tagW p⟩] })
  /-- R200 -/
  | eos (hi : i = .tsEos) (he : s.ts.eos = false)
      (h : t.ts = { s.ts with tags := [], held := none, outCount := t.ts.outCount, eos := true })

theorem exec_ts_cases {i : Instr} {s t : State} (h : exec i s = .next t) : TsCase i s t := by
  have hf := instructionFrames i s t h
  cases i with
  | csrw a w => exact .gains a w rfl ((congrArg State.ts hf).trans rfl)
  | reset ts fs bb hif =>
    cases h
    rw [resetUnits_eq]
    cases ts
    · exact .same rfl
    · exact .reset fs bb hif rfl rfl
  | tsSample re im =>
    cases h
    split
    · exact .same rfl
    next he => exact .sample re im rfl (Bool.eq_false_of_not_eq_true he) rfl
  | tsTag p =>
    cases h
    split
    · exact .same rfl
    next he => exact .tag p rfl (Bool.eq_false_of_not_eq_true he) rfl
  | tsEos =>
    cases h
    split
    · exact .same rfl
    next he => exact .eos rfl (Bool.eq_false_of_not_eq_true he) (tsEnd_ts s)
  | fsSample _ _ => exact .same ((congrArg State.ts hf.1).trans rfl)
  | outEos port => cases port <;> exact .same ((congrArg State.ts hf).trans rfl)
  | _ => exact .same ((congrArg State.ts hf).trans rfl)

theorem tsReset_inv (w : Nat) (n : Numerics) (c : Csrs) : TsInv w (setGains n c TsState.reset) := by
  constructor <;> simp [TsState.reset]

/-- A tag's payload is kept to its low `w` bits (R193). -/
theorem toNat_maskTag_lt (w : Nat) (p : TagPayload) : (maskTag w p).toNat < 2 ^ w := by
  rw [maskTag, BitVec.toNat_ofNat]
  exact (Nat.mod_le _ _).trans_lt (Nat.mod_lt _ (by positivity))

/-- A tag at the index of the next sample stands behind the tags there are (R193, R196). -/
theorem TsInv.addTag {w : Nat} {ts : TsState} (h : TsInv w ts) (p : TagPayload) :
    TsInv w { ts with tags := ts.tags ++ [⟨ts.nIn, maskTag w p⟩] } := by
  refine { h with sorted := ?_, seen := ?_, width := ?_ }
  · exact List.pairwise_append.mpr ⟨h.sorted, List.pairwise_singleton _ _, by simpa using h.seen⟩
  · intro g hg
    obtain hg | rfl := List.mem_append.mp hg |>.imp id List.mem_singleton.mp
    · exact h.seen g hg
    · exact le_refl _
  · intro g hg
    obtain hg | rfl := List.mem_append.mp hg |>.imp id List.mem_singleton.mp
    · exact h.width g hg
    · exact toNat_maskTag_lt w p

/-- Every instruction keeps TS's invariant. -/
theorem TsInv.exec {i : Instr} {s t : State} (hc : CsrInv s) (h : TsInv s.params.tagW s.ts)
    (he : exec i s = .next t) : TsInv s.params.tagW t.ts := by
  cases exec_ts_cases he with
  | same ht => rwa [ht]
  | gains a w hi ht =>
    rw [ht]
    exact { h with }
  | reset fs bb hif hi ht =>
    rw [ht]
    exact tsReset_inv ..
  | sample re im hi heos ht =>
    rw [ht]
    exact tsSampleRun_inv hc.sps_nonneg h _
  | tag p hi heos ht =>
    rw [ht]
    exact h.addTag p
  | eos hi heos ht =>
    rw [ht]
    exact { h with held := by simp, sorted := .nil, seen := by simp, width := by simp }

/-- Settles O54: case by case of what an instruction can do to TS; the registers stay legal beside it. -/
theorem tsInvariantIsKept : Obligations.TsInvariantIsKept := by
  intro s t hc h hst
  refine (step_keeps (P := fun s => CsrInv s ∧ TsInv s.params.tagW s.ts) (fun s s' hcore hs => ?_)
    (fun i s t hs he => ?_) ⟨hc, h⟩ hst).2
  · rw [hcore]
    exact ⟨hs.1.of_csr_eq rfl, hs.2⟩
  · rw [exec_params he]
    exact ⟨hs.1.exec he, hs.2.exec hs.1 he⟩

/-! ### BB (R81, R326, R333, R341) -/

/-- What an instruction can do to BB. -/
inductive BbCase (i : Instr) (s t : State) : Prop where
  | same (h : t.bb = s.bb)
  /-- R326 -/
  | byte (x : Byte) (hi : i = .bbByte x) (he : s.bb.eos = false) (ho : s.bb.isOpen = true)
      (h : t.bb = (appendByte x s.bb).bb)
  /-- R325 -/
  | start (k : BitVec 16) (d : Bool) (hi : i = .bbStart k d) (he : s.bb.eos = false)
      (h : t.bb = startBb k.toNat d s.bb)
  /-- R327 -/
  | eos (hi : i = .bbEos) (he : s.bb.eos = false) (h : t.bb = endBb s.bb)
  /-- R391 -/
  | reset (ts fs hif : Bool) (hi : i = .reset ts fs true hif) (h : t.bb = BbState.reset)

theorem exec_bb_cases {i : Instr} {s t : State} (h : exec i s = .next t) : BbCase i s t := by
  have hf := instructionFrames i s t h
  cases i with
  | reset ts fs bb hif =>
    cases h
    rw [resetUnits_eq]
    cases bb
    · exact .same rfl
    · exact .reset ts fs hif rfl rfl
  | bbByte x =>
    cases h
    split
    · exact .same rfl
    next he =>
      split
      next ho => exact .byte x rfl (Bool.eq_false_of_not_eq_true he) ho rfl
      next => exact .same rfl
  | bbStart k d =>
    cases h
    split
    · exact .same rfl
    next he => exact .start k d rfl (Bool.eq_false_of_not_eq_true he) rfl
  | bbEos =>
    cases h
    split
    · exact .same rfl
    next he => exact .eos rfl (Bool.eq_false_of_not_eq_true he) rfl
  | tsSample _ _ | fsSample _ _ => exact .same ((congrArg State.bb hf.1).trans rfl)
  | outEos port => cases port <;> exact .same ((congrArg State.bb hf).trans rfl)
  | _ => exact .same ((congrArg State.bb hf).trans rfl)

theorem bbReset_inv : BbInv BbState.reset := by
  constructor <;> simp [BbState.reset]

/-- Every instruction keeps BB's invariant. -/
theorem BbInv.exec {i : Instr} {s t : State} (h : BbInv s.bb) (he : exec i s = .next t) : BbInv t.bb := by
  cases exec_bb_cases he with
  | same ht => rwa [ht]
  | byte x hi heos ho ht =>
    rw [ht]
    exact h.appendByte ho x
  | start k d hi heos ht =>
    rw [ht]
    exact h.startBb k.toNat d
  | eos hi heos ht =>
    rw [ht]
    exact h.endBb
  | reset ts fs hif hi ht =>
    rw [ht]
    exact bbReset_inv

/-- Settles O57: case by case of what an instruction can do to BB. -/
theorem bbInvariantIsKept : Obligations.BbInvariantIsKept := by
  intro s t h hst
  refine step_keeps (P := fun s => BbInv s.bb) (fun s s' hc hs => ?_) (fun i s t hs he => hs.exec he) h hst
  rw [hc]
  exact hs

/-! ### `HIF_STATUS` (R43, R362, R364) -/

/-- The event that raises an error (R43). -/
def ErrCause (i : Instr) (s : State) : Err → Prop
  | .cmdErr => (∃ c, i = .cmdReserved c) ∨ ∃ c d, i = .cmdMalformed c d
  | .csrAddrErr => (∃ a w, i = .csrw a w ∧ ¬ rwAddress a) ∨ ∃ a, i = .csrr a ∧ ¬ mappedAddress a
  | .csrValErr => ∃ a w c, i = .csrw a w ∧ Csr.ofAddr a = some c ∧ c.legal? w = some false
  | .beatErr => i = .tsReserved ∨ i = .fsReserved ∨ i = .bbReserved
  | .outboxOverwrite => (∃ re im, i = .fsSample re im) ∧ s.hif.obValid = true
  | .tsTagDrop => i = .tsEos ∧ s.ts.held = none ∧ s.ts.tags ≠ []
  | .bbStray => (∃ b, i = .bbByte b) ∧ s.bb.isOpen = false

/-- What an instruction can do to `HIF_STATUS`: nothing, clear it, or raise one error for its cause. -/
inductive StatusCase (i : Instr) (s t : State) : Prop where
  | same (h : t.hif.status = s.hif.status)
  | cleared (hi : i = .clrerr ∨ ∃ ts fs bb, i = .reset ts fs bb true) (h : t.hif.status = 0)
  | raised (e : Err) (hc : ErrCause i s e) (h : t.hif.status = s.hif.status ||| e.mask)

/-- A reserved beat raises `BEAT_ERR`, or nothing after the end of the stream. -/
theorem StatusCase.reserved {i : Instr} {s : State} (hi : ErrCause i s .beatErr) (eos : Bool) :
    StatusCase i s (if eos then s else raise .beatErr s) := by
  cases eos
  · exact .raised .beatErr hi rfl
  · exact .same rfl

/-- At the end of its stream TS raises `TS_TAG_DROP` for tags with no interpolant held (R203). -/
theorem StatusCase.tsEnd (s : State) : StatusCase .tsEos s (tsEnd s) := by
  unfold Machine.tsEnd
  dsimp only
  split
  next hd =>
    refine .raised .tsTagDrop ⟨rfl, ?_⟩ rfl
    simpa [tsDropsTags] using hd
  next => exact .same rfl

/-- One write of the outbox raises `OUTBOX_OVERWRITE` if the outbox was full (R245, R368). -/
theorem StatusCase.oneWrite {re im : Word} {s t : State} (h : OneWrite s.hif t.hif) :
    StatusCase (.fsSample re im) s t := by
  obtain h | ⟨c, h⟩ := h
  · exact .same (by rw [h])
  · have hs := outboxWrite_status c s.hif
    rw [← h] at hs
    split at hs
    next hv => exact .raised .outboxOverwrite ⟨⟨re, im, rfl⟩, hv⟩ hs
    next => exact .same hs

theorem exec_status_cases {i : Instr} {s t : State} (hfs : FsInv s.fs) (h : exec i s = .next t) :
    StatusCase i s t := by
  have hf := instructionFrames i s t h
  cases i with
  | csrw a w =>
    cases h
    obtain ⟨hn, h⟩ | ⟨c, hc, hl, h⟩ | ⟨c, -, -, h⟩ := writeAddr_cases a w s <;> rw [h]
    · exact .raised .csrAddrErr (.inl ⟨a, w, rfl, not_rw_of_legal_none hn⟩) (by simp [WithError])
    · exact .raised .csrValErr ⟨a, w, c, rfl, hc, hl⟩ (by simp [WithError])
    · exact .same rfl
  | csrr a =>
    cases h
    obtain ⟨hn, h⟩ | ⟨c, -, h⟩ := readAddr_cases a s <;> rw [h]
    · exact .raised .csrAddrErr (.inr ⟨a, rfl, not_mapped_of_none hn⟩) (by simp [WithError])
    · exact .same rfl
  | reset ts fs bb hif =>
    cases h
    rw [resetUnits_eq]
    cases hif
    · exact .same rfl
    · exact .cleared (.inr ⟨ts, fs, bb, rfl⟩) rfl
  | clrerr =>
    cases h
    exact .cleared (.inl rfl) rfl
  | cmdReserved c =>
    cases h
    exact .raised .cmdErr (.inl ⟨c, rfl⟩) (by rw [illegalCmd_eq]; simp [WithError])
  | cmdMalformed c d =>
    cases h
    exact .raised .cmdErr (.inr ⟨c, d, rfl⟩) (by rw [illegalCmd_eq]; simp [WithError])
  | tsEos =>
    cases h
    split
    · exact .same rfl
    · exact .tsEnd s
  | fsSample re im =>
    cases h
    split
    · exact .same rfl
    · exact .oneWrite (fsSampleRun_oneWrite (c := ⟨s.ctx, s.csr⟩) (r := fsRun s) hfs)
  | bbByte b =>
    cases h
    split
    · exact .same rfl
    · split
      · exact .same rfl
      next ho => exact .raised .bbStray ⟨⟨b, rfl⟩, Bool.eq_false_of_not_eq_true ho⟩ rfl
  | tsReserved => cases h; exact .reserved (.inl rfl) s.ts.eos
  | fsReserved => cases h; exact .reserved (.inr (.inl rfl)) s.fs.eos
  | bbReserved => cases h; exact .reserved (.inr (.inr rfl)) s.bb.eos
  | tsSample _ _ => exact .same ((congrArg (State.hif · |>.status) hf.1).trans rfl)
  | outEos port => cases port <;> exact .same ((congrArg (State.hif · |>.status) hf).trans rfl)
  | _ => exact .same ((congrArg (State.hif · |>.status) hf).trans rfl)

theorem Err.bit_injective : Function.Injective Err.bit := by
  intro a b h
  cases a <;> cases b <;> simp_all [Err.bit]

theorem Err.bit_lt (e : Err) : e.bit < 7 := by
  cases e <;> simp [Err.bit]

/-- A bit newly set is the bit of an error raised. -/
theorem StatusCase.newBit {i : Instr} {s t : State} (h : StatusCase i s t) {b : Nat} (hb : NewBit b s t) :
    ∃ e, b = Err.bit e ∧ ErrCause i s e := by
  obtain ⟨h0, h1⟩ := hb
  cases h with
  | same ht =>
    rw [ht, h0] at h1
    cases h1
  | cleared hi ht =>
    rw [ht] at h1
    simp at h1
  | raised e hc ht =>
    refine ⟨e, ?_, hc⟩
    rw [ht, Err.mask, BitVec.getLsbD_or, h0, BitVec.getLsbD_twoPow] at h1
    have hbit : e.bit < 32 ∧ e.bit = b := by simpa using h1
    exact hbit.2.symm

/-- An error's bit newly set has that error's cause. -/
theorem StatusCase.cause {i : Instr} {s t : State} (h : StatusCase i s t) {e : Err} (hb : NewBit e.bit s t) :
    ErrCause i s e := by
  obtain ⟨e', he, hc⟩ := h.newBit hb
  rwa [Err.bit_injective he]

/-- Settles O19: the status word stays, is cleared, or takes one error's bit for that error's cause. -/
theorem errorBitsHaveTheirCauses : Obligations.ErrorBitsHaveTheirCauses := by
  intro i s t hfs h
  have hcase := exec_status_cases hfs h
  refine ⟨fun ⟨hclr, hreset⟩ => ?_, hcase.cause (e := .cmdErr), hcase.cause (e := .csrAddrErr),
    hcase.cause (e := .csrValErr), hcase.cause (e := .beatErr), hcase.cause (e := .outboxOverwrite),
    hcase.cause (e := .tsTagDrop), hcase.cause (e := .bbStray), fun b hb hnew => ?_⟩
  · cases hcase with
    | same ht => exact .inl ht
    | cleared hi ht =>
      obtain hi | ⟨ts, fs, bb, hi⟩ := hi
      · exact absurd hi hclr
      · exact absurd hi (hreset ts fs bb)
    | raised e hc ht => exact .inr ⟨e, ht⟩
  · obtain ⟨e, rfl, -⟩ := hcase.newBit hnew
    have := e.bit_lt
    omega

end Sys2Proof.Machine
end

section
/-!
PROOFS. The statements of 20_memory.md: the output ports are FIFOs (R96, R100), and what fills, overwrites and empties
the outbox (R99).
-/

namespace Sys2Proof.Machine

/-! ### One output port (R96) -/

/-- A FIFO after a step: extended at its end, or without its head. -/
def FifoStep {α : Type} (p q : List α) : Prop := (∃ l, q = p ++ l) ∨ ∃ b, p = b :: q

theorem FifoStep.refl {α : Type} (p : List α) : FifoStep p p := .inl ⟨[], (List.append_nil p).symm⟩

theorem FifoStep.append {α : Type} (p l : List α) : FifoStep p (p ++ l) := .inl ⟨l, rfl⟩

theorem FifoStep.takeHead {α : Type} [DecidableEq α] (p : List α) (b : α) : FifoStep p (takeHead p b) := by
  obtain h | h := takeHead_cases p b
  · rw [h]
    exact .refl p
  · exact .inr ⟨b, h⟩

/-- After the end of its stream a unit leaves its output port alone (R104). -/
theorem FifoStep.unlessEnded {α : Type} {port : State → List α} {s t : State} (eos : Bool)
    (h : FifoStep (port s) (port t)) : FifoStep (port s) (port (if eos then s else t)) := by
  cases eos
  · exact h
  · exact .refl _

/-! ### The output ports together -/

/-- The output ports, and the list of what `ROT_OUT` delivered. -/
structure OutPorts where
  rsp : List Word
  ts  : List Beat
  fs  : List Beat
  bb  : List Word
  rot : List Word

def State.outPorts (s : State) : OutPorts := ⟨s.rspOut, s.tsOut, s.fsOut, s.bbOut, s.rotOut⟩

/-- At most one output port makes a step, and the others are as before. -/
inductive PortStep (s t : State) : Prop where
  | none (h : t.outPorts = s.outPorts)
  | rsp (h : t.outPorts = { s.outPorts with rsp := t.rspOut }) (hp : FifoStep s.rspOut t.rspOut)
  | ts (h : t.outPorts = { s.outPorts with ts := t.tsOut }) (hp : FifoStep s.tsOut t.tsOut)
  | fs (h : t.outPorts = { s.outPorts with fs := t.fsOut }) (hp : FifoStep s.fsOut t.fsOut)
  | bb (h : t.outPorts = { s.outPorts with bb := t.bbOut }) (hp : FifoStep s.bbOut t.bbOut)
  | rot (l : List Word) (h : t.outPorts = { s.outPorts with rot := s.rotOut ++ l })

/-- The whole step is then a FIFO's at every port, and `ROT_OUT`'s list is only extended. -/
theorem PortStep.fifo {s t : State} (h : PortStep s t) :
    FifoStep s.rspOut t.outPorts.rsp ∧ FifoStep s.tsOut t.outPorts.ts ∧ FifoStep s.fsOut t.outPorts.fs ∧
    FifoStep s.bbOut t.outPorts.bb ∧ ∃ l, t.outPorts.rot = s.rotOut ++ l := by
  have hrot : ∃ l, s.rotOut = s.rotOut ++ l := ⟨[], (List.append_nil _).symm⟩
  cases h with
  | none h => rw [h]; exact ⟨.refl _, .refl _, .refl _, .refl _, hrot⟩
  | rsp h hp => rw [h]; exact ⟨hp, .refl _, .refl _, .refl _, hrot⟩
  | ts h hp => rw [h]; exact ⟨.refl _, hp, .refl _, .refl _, hrot⟩
  | fs h hp => rw [h]; exact ⟨.refl _, .refl _, hp, .refl _, hrot⟩
  | bb h hp => rw [h]; exact ⟨.refl _, .refl _, .refl _, hp, hrot⟩
  | rot l h => rw [h]; exact ⟨.refl _, .refl _, .refl _, .refl _, l, rfl⟩

/-! ### What the instructions send (R100) -/

/-- A CSRR answers once (R162). -/
theorem readAddr_rspOut (a : BitVec 8) (s : State) : FifoStep s.rspOut (readAddr a s).rspOut := by
  obtain ⟨-, h⟩ | ⟨c, -, h⟩ := readAddr_cases a s <;> rw [h] <;> exact .append _ _

/-- An illegal command answers once or not at all (R166). -/
theorem illegalCmd_rspOut (cmd : Word) (s : State) : FifoStep s.rspOut (illegalCmd cmd s).rspOut := by
  rw [illegalCmd_eq]
  dsimp only [WithError]
  split
  · exact .append _ _
  · exact .refl _

/-- The end of TS's stream sends what was held and the EOS beat, whether or not it drops tags (R200, R203). -/
theorem tsEnd_tsOut (s : State) : FifoStep s.tsOut (tsEnd s).tsOut := by
  unfold tsEnd
  cases tsDropsTags s.ts <;> exact .append _ _

/-- A byte sends beats only where it belongs to an open frame (R326, R331). -/
theorem bbByte_bbOut (x : Byte) (s : State) : FifoStep s.bbOut
    (if s.bb.isOpen then withBbRun (appendByte x s.bb) s else raise .bbStray s).bbOut := by
  split
  · exact .append _ _
  · exact .refl _

/-- An instruction touches one output port at most, the one its frame leaves free, and that one as a FIFO. -/
theorem exec_portStep {i : Instr} {s t : State} (h : exec i s = .next t) : PortStep s t := by
  have hf := instructionFrames i s t h
  cases i with
  -- HIF answers
  | csrr a => cases h; exact .rsp (congrArg State.outPorts hf) (readAddr_rspOut a s)
  | cmdReserved cmd | cmdMalformed cmd _ =>
    cases h
    exact .rsp (congrArg State.outPorts hf) (illegalCmd_rspOut cmd s)
  -- A unit sends
  | tsSample _ _ => cases h; exact .ts (congrArg State.outPorts hf.1) (.unlessEnded _ (.append _ _))
  | tsEos => cases h; exact .ts (congrArg State.outPorts hf) (.unlessEnded _ (tsEnd_tsOut s))
  | fsSample _ _ => cases h; exact .fs (congrArg State.outPorts hf.1) (.unlessEnded _ (.append _ _))
  | fsEos => cases h; exact .fs (congrArg State.outPorts hf) (.unlessEnded _ (.append _ _))
  | bbByte x => cases h; exact .bb (congrArg State.outPorts hf) (.unlessEnded _ (bbByte_bbOut x s))
  | bbEos => cases h; exact .bb (congrArg State.outPorts hf) (.unlessEnded _ (.append _ _))
  -- The host takes a head
  | outRsp _ => cases h; exact .rsp rfl (.takeHead _ _)
  | outTsSample _ _ | outTsTag _ => cases h; exact .ts rfl (.takeHead _ _)
  | outFsSample _ _ | outFsTag _ _ => cases h; exact .fs rfl (.takeHead _ _)
  | outEos port =>
    cases port <;> cases h
    · exact .ts rfl (.takeHead _ _)
    · exact .fs rfl (.takeHead _ _)
  | outBbByte _ _ | outBbEos => cases h; exact .bb rfl (.takeHead _ _)
  -- The rotator takes the outbox
  | outRotMsg v =>
    cases h
    split
    · exact .rot [v] rfl
    · exact .none rfl
  -- No output port is in the frame
  | _ => exact .none ((congrArg State.outPorts hf).trans rfl)

/-- Settles O9: an instruction makes one step of at most one output port. -/
theorem outputPortsAreFifos : Obligations.OutputPortsAreFifos :=
  fun _ _ _ h => (exec_portStep h).fifo

/-! ### The outbox (R99, R245) -/

/-- The rotator's consumption of a full outbox (R99, R368). -/
theorem exec_outRotMsg_full {s : State} (h : s.hif.obValid = true) : exec (.outRotMsg (bits32 s.hif.obValue)) s =
    .next { s with hif := { s.hif with obValid := false }, rotOut := s.rotOut ++ [bits32 s.hif.obValue] } := by
  simp [exec, execOutRotMsg, outboxMsg, h]

theorem outboxWrite_eq (h : HifState) (c : Rat) : outboxWrite c h =
    { status := if h.obValid then h.status ||| 16 else h.status, obValid := true, obValue := c } := by
  rw [← mask_outboxOverwrite, ← outboxWrite_status c h]
  rfl

/-- A full outbox stays full over one write. -/
theorem OneWrite.full {h h' : HifState} (hw : OneWrite h h') (hv : h.obValid = true) : h'.obValid = true := by
  obtain rfl | ⟨c, rfl⟩ := hw
  · exact hv
  · exact outboxWrite_obValid c h

theorem payloadStep_oneWrite (c : FsCfg) (i : Nat) (z : Cx) (r : FsRun) : OneWrite r.hif (payloadStep c i z r).hif := by
  obtain ⟨-, h⟩ | ⟨f, -, -, -, -, -, -, -, -, h⟩ := (payloadStep_out c i z r).2 <;> rw [h]
  · exact .refl _
  · exact (feFine_hif c.ctx f.gold (pilotSymbols r.fs f) r.feRun).1

theorem headerStep_oneWrite {c : FsCfg} {i : Nat} {r : FsRun} (hi : r.fs.nIn = i + 1) :
    OneWrite r.hif (headerStep c i r).hif := by
  obtain ⟨h, -⟩ | ⟨-, -, h⟩ := headerStep_cases c i r hi
  · rw [h]
    exact .refl _
  · exact h.oneWrite

/-- A symbol leaves a full outbox full, in any state.  (That it writes once, `fsSampleRun_oneWrite`, needs FS's
invariant.) -/
theorem fsSampleRun_full (c : FsCfg) (z : Cx) {r : FsRun} (hv : r.hif.obValid = true) :
    (fsSampleRun c z r).hif.obValid = true :=
  (headerStep_oneWrite (payloadStep_nIn ..)).full
    ((payloadStep_oneWrite c r.fs.nIn z { r with fs := r.fs.push z }).full hv)

/-- The outbox: its valid bit and its value. -/
def State.outbox (s : State) : Bool × Rat := (s.hif.obValid, s.hif.obValue)

/-- What an instruction can do to the outbox. -/
inductive OutboxCase (i : Instr) (s t : State) : Prop where
  | same (h : t.outbox = s.outbox)
  /-- R99 -/
  | consumed (hi : i = .outRotMsg (bits32 s.hif.obValue)) (hv : t.hif.obValid = false)
      (hc : t.hif.obValue = s.hif.obValue)
  /-- R245 -/
  | written (re im : Word) (hi : i = .fsSample re im) (hv : s.hif.obValid = true → t.hif.obValid = true)
  /-- R391 -/
  | reset (ts fs bb : Bool) (hi : i = .reset ts fs bb true) (h : t.hif = HifState.reset)

theorem exec_outbox_cases {i : Instr} {s t : State} (h : exec i s = .next t) : OutboxCase i s t := by
  have hf := instructionFrames i s t h
  cases i with
  | reset ts fs bb hif =>
    cases h
    rw [resetUnits_eq]
    cases hif
    · exact .same rfl
    · exact .reset ts fs bb rfl rfl
  | fsSample re im =>
    cases h
    split
    · exact .same rfl
    · exact .written re im rfl (fsSampleRun_full _ _ (r := fsRun s))
  | outRotMsg v =>
    cases h
    split
    next hm =>
      simp only [Bool.and_eq_true, beq_iff_eq] at hm
      exact .consumed (by rw [← hm.2, outboxMsg]) rfl rfl
    next => exact .same rfl
  | tsSample _ _ => exact .same ((congrArg State.outbox hf.1).trans rfl)
  | outEos port => cases port <;> exact .same ((congrArg State.outbox hf).trans rfl)
  | _ => exact .same ((congrArg State.outbox hf).trans rfl)

/-- Settles O43: case by case of what an instruction can do to the outbox. -/
theorem outboxIsEmptiedByTheRotator : Obligations.OutboxIsEmptiedByTheRotator := by
  refine ⟨fun s h => exec_outRotMsg_full h, outboxWrite_eq, fun i s t h => ?_⟩
  cases exec_outbox_cases h with
  | same h =>
    obtain ⟨hv, hc⟩ := Prod.mk.inj h
    exact ⟨fun hs ht => by simp [hv, hs] at ht, fun hs ht => by simp [hv, hs] at ht, fun hne => absurd hc hne⟩
  | consumed hi hv hc => exact ⟨fun _ _ => .inl hi, by simp [hv], by simp [hc]⟩
  | written re im hi hv =>
    exact ⟨fun hs ht => by simp [hv hs] at ht, fun _ _ => ⟨re, im, hi⟩, fun _ => .inl ⟨re, im, hi⟩⟩
  | reset ts fs bb hi ht =>
    exact ⟨fun _ _ => .inr ⟨ts, fs, bb, hi⟩, by simp [ht, HifState.reset], fun _ => .inr ⟨ts, fs, bb, hi⟩⟩

end Sys2Proof.Machine
end

section
/-!
PROOFS. The statements of 30_encoding.md: the encoder and the decoder undo each other, how many words a command takes,
and what illegal commands, reserved beats and ignored bits do.
-/

namespace Sys2Proof.Machine

/-! ### The fields of a command word (R121, R122, R124, R133) -/

/-- A field has a value exactly when its bits as a number do. -/
theorem field_eq_iff {w s n : Nat} {x : BitVec w} {c : BitVec n} :
    x.extractLsb' s n = c ↔ x.toNat / 2 ^ s % 2 ^ n = c.toNat := by rw [← BitVec.toNat_inj, toNat_field]

theorem toNat_opField (cmd : Word) : (opField cmd).toNat = cmd.toNat / 2 ^ 24 := by
  rw [opField, toNat_field]
  have := cmd.isLt
  omega

theorem opField_eq_iff {cmd : Word} {op : BitVec 8} : opField cmd = op ↔ cmd.toNat / 2 ^ 24 = op.toNat := by
  rw [← BitVec.toNat_inj, toNat_opField]

/-- A word with Z = 0 is the command word of its OP and ADDR (R121). -/
theorem cmdWord_fields {cmd : Word} (hz : zField cmd = 0) : cmdWord (opField cmd) (addrField cmd) = cmd := by
  apply BitVec.eq_of_toNat_eq
  have hz : cmd.toNat / 2 ^ 0 % 2 ^ 16 = 0 := field_eq_iff.mp hz
  rw [toNat_cmdWord, toNat_opField, addrField, toNat_field]
  omega

/-- An ADDR field with a zero upper half is the mask of its four unit bits (R124). -/
theorem resetMask_bits {cmd : Word} (hu : cmd.extractLsb' 20 4 = 0) :
    resetMask (cmd.getLsbD 16) (cmd.getLsbD 17) (cmd.getLsbD 18) (cmd.getLsbD 19) = addrField cmd := by
  apply BitVec.eq_of_toNat_eq
  have hu : cmd.toNat / 2 ^ 20 % 2 ^ 4 = 0 := field_eq_iff.mp hu
  rw [toNat_resetMask, addrField, toNat_field]
  simp only [toNat_bit, decide_eq_true_eq]
  split_ifs <;> omega

theorem malformedWord_iff {cmd : Word} : malformedWord cmd = true ↔
    zField cmd ≠ 0 ∨ ((opField cmd = 0 ∨ opField cmd = 4) ∧ addrField cmd ≠ 0) ∨
      (opField cmd = 3 ∧ cmd.extractLsb' 20 4 ≠ 0) := by
  simp [malformedWord, or_assoc]

/-- R133 in the words of the decoder: a reserved OP, or a violation of the command's format. -/
theorem illegalWord_iff {cmd : Word} : illegalWord cmd ↔ 5 ≤ (opField cmd).toNat ∨ malformedWord cmd = true := by
  rw [malformedWord_iff, toNat_opField, opField_eq_iff, opField_eq_iff, opField_eq_iff]
  simp [illegalWord, zField, addrField, field_eq_iff]

/-! ### What a command decodes to (R121 to R123, R133) -/

theorem decodeCmd_long {cmd : Word} (ho : opField cmd = 1) (data : Word) (rest : List Word) :
    decodeCmd (cmd :: data :: rest) = .ok (decodeLong cmd data, rest) := if_pos ho

theorem decodeCmd_missingData {cmd : Word} (ho : opField cmd = 1) : decodeCmd [cmd] = .error .missingData := if_pos ho

theorem decodeCmd_short {cmd : Word} (ho : opField cmd ≠ 1) (rest : List Word) :
    decodeCmd (cmd :: rest) = .ok (decodeShort cmd, rest) := if_neg ho

theorem decode_long {cmd : Word} (ho : opField cmd = 1) (data : Word) :
    decode (.cmdIn [cmd, data]) = .ok (decodeLong cmd data) := by simp only [decode, decodeCmd_long ho]

theorem decode_short {cmd : Word} (ho : opField cmd ≠ 1) : decode (.cmdIn [cmd]) = .ok (decodeShort cmd) := by
  simp only [decode, decodeCmd_short ho]

/-- Only one word, or two under OP = 0x01, are a command (R123). -/
theorem decode_cmdIn_cases {ws : List Word} {i : Instr} (h : decode (.cmdIn ws) = .ok i) :
    (∃ cmd data, ws = [cmd, data] ∧ opField cmd = 1 ∧ i = decodeLong cmd data) ∨
    ∃ cmd, ws = [cmd] ∧ opField cmd ≠ 1 ∧ i = decodeShort cmd := by
  match ws with
  | [] => cases h
  | cmd :: rest =>
    by_cases ho : opField cmd = 1
    · match rest with
      | [] => simp [decode, decodeCmd_missingData ho] at h
      | [data] => exact .inl ⟨cmd, data, rfl, ho, by simpa [decode_long ho] using h.symm⟩
      | data :: _ :: _ => simp [decode, decodeCmd_long ho] at h
    · match rest with
      | [] => exact .inr ⟨cmd, rfl, ho, by simpa [decode_short ho] using h.symm⟩
      | _ :: _ => simp [decode, decodeCmd_short ho] at h

theorem decodeLong_malformed {cmd : Word} (hm : malformedWord cmd = true) (data : Word) :
    decodeLong cmd data = .cmdMalformed cmd (some data) := if_pos hm

theorem decodeLong_legal {cmd : Word} (hm : ¬ malformedWord cmd = true) (data : Word) :
    decodeLong cmd data = .csrw (addrField cmd) data := if_neg hm

theorem decodeShort_malformed {cmd : Word} (hop : (opField cmd).toNat ≤ 4) (hm : malformedWord cmd = true) :
    decodeShort cmd = .cmdMalformed cmd none := by simp [decodeShort, hop, hm]

theorem decodeShort_reserved {cmd : Word} (hop : 5 ≤ (opField cmd).toNat) : decodeShort cmd = .cmdReserved cmd := by
  obtain ⟨n, hn⟩ := Nat.exists_eq_add_of_le' hop
  simp [decodeShort, hn]

theorem decodeLong_csrw (a : BitVec 8) (w : Word) : decodeLong (cmdWord 1 a) w = .csrw a w := by
  simp [decodeLong, malformedWord]

theorem decodeShort_nop : decodeShort (cmdWord 0 0) = .nop := by decide

theorem decodeShort_csrr (a : BitVec 8) : decodeShort (cmdWord 2 a) = .csrr a := by simp [decodeShort, malformedWord]

theorem decodeShort_reset (ts fs bb hif : Bool) :
    decodeShort (cmdWord 3 (resetMask ts fs bb hif)) = .reset ts fs bb hif := by
  revert ts fs bb hif
  decide

theorem decodeShort_clrerr : decodeShort (cmdWord 4 0) = .clrerr := by decide

/-- An illegal one-word command is reserved or malformed (R133). -/
theorem decodeShort_illegal {cmd : Word} (hl : illegalWord cmd) :
    (5 ≤ (opField cmd).toNat ∧ decodeShort cmd = .cmdReserved cmd) ∨
    ((opField cmd).toNat ≤ 4 ∧ malformedWord cmd = true ∧ decodeShort cmd = .cmdMalformed cmd none) := by
  obtain hop | hop := Nat.lt_or_ge 4 (opField cmd).toNat
  · exact .inl ⟨hop, decodeShort_reserved hop⟩
  · have hm := (illegalWord_iff.mp hl).resolve_left (by omega)
    exact .inr ⟨hop, hm, decodeShort_malformed hop hm⟩

/-- A one-word command that no rule makes illegal is NOP, CSRR, RESET or CLRERR, written as its format says. -/
theorem legalShort_cases {cmd : Word} (ho : opField cmd ≠ 1) (hl : ¬ illegalWord cmd) :
    cmd = cmdWord 0 0 ∨ (∃ a, cmd = cmdWord 2 a) ∨ (∃ ts fs bb hif, cmd = cmdWord 3 (resetMask ts fs bb hif)) ∨
      cmd = cmdWord 4 0 := by
  simp only [illegalWord_iff, malformedWord_iff, not_or, not_and, not_not] at hl
  obtain ⟨hop, hz, ha, hu⟩ := hl
  have hw := cmdWord_fields hz
  have hops : opField cmd = 0 ∨ opField cmd = 2 ∨ opField cmd = 3 ∨ opField cmd = 4 := by bv_omega
  obtain h | h | h | h := hops
  · exact .inl (by rw [← hw, h, ha (.inl h)])
  · exact .inr (.inl ⟨addrField cmd, by rw [← h, hw]⟩)
  · exact .inr (.inr (.inl ⟨_, _, _, _, by rw [resetMask_bits (hu h), ← h, hw]⟩))
  · exact .inr (.inr (.inr (by rw [← hw, h, ha (.inr h)])))

/-! ### What an input beat decodes to (R126, R128, R129) -/

theorem decodeTsIn_eq (b : Beat) : decodeTsIn b =
    if sKind b = 0 then .tsSample (sRe b) (sIm b) else if sKind b = 1 then .tsTag (sPayload b)
    else if sKind b = 2 then .tsEos else .tsReserved := by
  unfold decodeTsIn
  generalize sKind b = k
  fin_cases k <;> rfl

theorem decodeFsIn_eq (b : Beat) : decodeFsIn b =
    if sKind b = 0 then .fsSample (sRe b) (sIm b) else if sKind b = 1 then .fsTag (sPayload b)
    else if sKind b = 2 then .fsEos else .fsReserved := by
  unfold decodeFsIn
  generalize sKind b = k
  fin_cases k <;> rfl

theorem decodeBbIn_eq (w : Word) : decodeBbIn w =
    if bKind w = 0 then .bbByte (w.extractLsb' 0 8)
    else if bKind w = 1 then .bbStart (w.extractLsb' 0 16) (w.getLsbD 16)
    else if bKind w = 2 then .bbEos else .bbReserved := by
  unfold decodeBbIn
  generalize bKind w = k
  fin_cases k <;> rfl

theorem decodeBbIn_startBeat (k : BitVec 16) (d : Bool) : decodeBbIn (startBeat k d) = .bbStart k d := by
  rw [decodeBbIn_eq, bKind_startBeat, kbch_startBeat, disc_startBeat]
  rfl

/-! ### What a word of an output port decodes to (R126, R127, R130) -/

/-- Beats of two KINDs are two beats. -/
theorem ne_of_sKind {b b' : Beat} (h : sKind b ≠ sKind b') : b ≠ b' := mt (congrArg sKind) h

theorem bbEosBeat_ne_outByteBeat (b : Byte) (sop : Bool) : bbEosBeat ≠ outByteBeat b sop :=
  mt (congrArg bKind) (by simp)

theorem decodeTsOut_sampleBeat (re im : Word) : decodeTsOut (sampleBeat re im) = .ok (.outTsSample re im) := by
  simp [decodeTsOut]

theorem decodeTsOut_tagBeat (p : TagPayload) : decodeTsOut (tagBeat p) = .ok (.outTsTag p) := by
  simp [decodeTsOut, ne_of_sKind]

theorem decodeTsOut_eosBeat : decodeTsOut eosBeat = .ok (.outEos .ts) := by simp [decodeTsOut, ne_of_sKind]

theorem decodeFsOut_sampleBeat (re im : Word) : decodeFsOut (sampleBeat re im) = .ok (.outFsSample re im) := by
  simp [decodeFsOut]

theorem decodeFsOut_frameTagBeat {m : BitVec 5} (sh : Bool) (hlo : 1 ≤ m.toNat) (hhi : m.toNat ≤ 28) :
    decodeFsOut (frameTagBeat m sh) = .ok (.outFsTag m sh) := by
  have hs : frameTagBeat m sh ≠ sampleBeat (sRe (frameTagBeat m sh)) (sIm (frameTagBeat m sh)) :=
    ne_of_sKind (by simp)
  simp only [decodeFsOut, modcod_frameTagBeat, short_frameTagBeat]
  rw [if_neg hs, if_pos ⟨trivial, hlo, hhi⟩]

theorem decodeFsOut_eosBeat : decodeFsOut eosBeat = .ok (.outEos .fs) := by simp [decodeFsOut, ne_of_sKind]

theorem decodeBbOut_outByteBeat {b : Byte} {sop : Bool} (h : sop = true → b = 0x47) :
    decodeBbOut (outByteBeat b sop) = .ok (.outBbByte b sop) := by
  simp only [decodeBbOut, byte_outByteBeat, sop_outByteBeat]
  rw [if_pos ⟨trivial, h⟩]

theorem decodeBbOut_bbEosBeat : decodeBbOut bbEosBeat = .ok .outBbEos := by
  simp [decodeBbOut, bbEosBeat_ne_outByteBeat]

/-- Settles O2: format by format, each field read back from the word its encoding puts it in. -/
theorem decodeOfEncode : Obligations.DecodeOfEncode := by
  intro i hwf
  cases i with
  -- Commands: OP decides which decoder reads the word (R123).
  | nop => exact (decode_short (by simp)).trans (congrArg _ decodeShort_nop)
  | csrw a w => exact (decode_long (by simp) w).trans (congrArg _ (decodeLong_csrw a w))
  | csrr a => exact (decode_short (by simp)).trans (congrArg _ (decodeShort_csrr a))
  | reset ts fs bb hif => exact (decode_short (by simp)).trans (congrArg _ (decodeShort_reset ts fs bb hif))
  | clrerr => exact (decode_short (by simp)).trans (congrArg _ decodeShort_clrerr)
  | cmdReserved cmd =>
    have hop : 5 ≤ (opField cmd).toNat := of_decide_eq_true hwf
    exact (decode_short (by bv_omega)).trans (congrArg _ (decodeShort_reserved hop))
  | cmdMalformed cmd data =>
    simp only [Instr.wellFormed, Bool.and_eq_true, decide_eq_true_eq, beq_iff_eq] at hwf
    obtain ⟨⟨hop, hm⟩, hdata⟩ := hwf
    cases data with
    | none =>
      have ho : opField cmd ≠ 1 := by simpa using hdata
      exact (decode_short ho).trans (congrArg _ (decodeShort_malformed hop hm))
    | some d =>
      have ho : opField cmd = 1 := by simpa using hdata
      exact (decode_long ho d).trans (congrArg _ (decodeLong_malformed hm d))
  -- Input beats: KIND decides the instruction (R126, R129).
  | tsSample re im => simp [encode, decode, decodeTsIn_eq]
  | tsTag p => simp [encode, decode, decodeTsIn_eq]
  | tsEos => simp [encode, decode, decodeTsIn_eq]
  | tsReserved => simp [encode, decode, decodeTsIn_eq]
  | fsSample re im => simp [encode, decode, decodeFsIn_eq]
  | fsTag p => simp [encode, decode, decodeFsIn_eq]
  | fsEos => simp [encode, decode, decodeFsIn_eq]
  | fsReserved => simp [encode, decode, decodeFsIn_eq]
  | bbByte b => simp [encode, decode, decodeBbIn_eq, byte_byteBeat]
  | bbStart k d => exact congrArg _ (decodeBbIn_startBeat k d)
  | bbEos => simp [encode, decode, decodeBbIn_eq]
  | bbReserved => simp [encode, decode, decodeBbIn_eq]
  -- Output words.
  | outRsp v => rfl
  | outTsSample re im => exact decodeTsOut_sampleBeat re im
  | outTsTag p => exact decodeTsOut_tagBeat p
  | outFsSample re im => exact decodeFsOut_sampleBeat re im
  | outFsTag m sh =>
    simp only [Instr.wellFormed, Bool.and_eq_true, decide_eq_true_eq] at hwf
    exact decodeFsOut_frameTagBeat sh hwf.1 hwf.2
  | outEos port =>
    cases port
    · exact decodeTsOut_eosBeat
    · exact decodeFsOut_eosBeat
  | outBbByte b sop => exact decodeBbOut_outByteBeat (by rintro rfl; simpa [Instr.wellFormed] using hwf)
  | outBbEos => exact decodeBbOut_bbEosBeat
  | outRotMsg v => rfl

/-! ### What is decoded is well formed and keeps its words -/

theorem decodeLong_spec {cmd : Word} (ho : opField cmd = 1) (data : Word) :
    (decodeLong cmd data).wellFormed = true ∧ encode (decodeLong cmd data) = .cmdIn [cmd, data] := by
  by_cases hm : malformedWord cmd = true
  · rw [decodeLong_malformed hm]
    exact ⟨by simp [Instr.wellFormed, ho, hm], rfl⟩
  · have hz : zField cmd = 0 := of_not_not fun hz => hm (malformedWord_iff.mpr (.inl hz))
    rw [decodeLong_legal hm]
    exact ⟨rfl, by rw [encode, ← ho, cmdWord_fields hz]⟩

theorem decodeShort_spec {cmd : Word} (ho : opField cmd ≠ 1) :
    (decodeShort cmd).wellFormed = true ∧ encode (decodeShort cmd) = .cmdIn [cmd] := by
  by_cases hl : illegalWord cmd
  · obtain ⟨hop, h⟩ | ⟨hop, hm, h⟩ := decodeShort_illegal hl <;> rw [h]
    · exact ⟨decide_eq_true hop, rfl⟩
    · exact ⟨by simpa [Instr.wellFormed, hop, hm] using ho, rfl⟩
  · obtain rfl | ⟨a, rfl⟩ | ⟨ts, fs, bb, hif, rfl⟩ | rfl := legalShort_cases ho hl
    · rw [decodeShort_nop]; exact ⟨rfl, rfl⟩
    · rw [decodeShort_csrr]; exact ⟨rfl, rfl⟩
    · rw [decodeShort_reset]; exact ⟨rfl, rfl⟩
    · rw [decodeShort_clrerr]; exact ⟨rfl, rfl⟩

theorem decodeTsIn_wellFormed (b : Beat) : (decodeTsIn b).wellFormed = true := by
  rw [decodeTsIn_eq]
  split_ifs <;> rfl

theorem decodeFsIn_wellFormed (b : Beat) : (decodeFsIn b).wellFormed = true := by
  rw [decodeFsIn_eq]
  split_ifs <;> rfl

theorem decodeBbIn_wellFormed (w : Word) : (decodeBbIn w).wellFormed = true := by
  rw [decodeBbIn_eq]
  split_ifs <;> rfl

theorem decodeTsOut_spec {b : Beat} {i : Instr} (h : decodeTsOut b = .ok i) :
    i.wellFormed = true ∧ encode i = .tsOut b := by
  unfold decodeTsOut at h
  split_ifs at h with hs ht he <;> cases h
  · exact ⟨rfl, congrArg _ hs.symm⟩
  · exact ⟨rfl, congrArg _ ht.symm⟩
  · exact ⟨rfl, congrArg _ he.symm⟩

theorem decodeFsOut_spec {b : Beat} {i : Instr} (h : decodeFsOut b = .ok i) :
    i.wellFormed = true ∧ encode i = .fsOut b := by
  unfold decodeFsOut at h
  dsimp only at h
  split_ifs at h with hs ht he <;> cases h
  · exact ⟨rfl, congrArg _ hs.symm⟩
  · obtain ⟨ht, hlo, hhi⟩ := ht
    exact ⟨Bool.and_eq_true_iff.mpr ⟨decide_eq_true hlo, decide_eq_true hhi⟩, congrArg _ ht.symm⟩
  · exact ⟨rfl, congrArg _ he.symm⟩

theorem decodeBbOut_spec {w : Word} {i : Instr} (h : decodeBbOut w = .ok i) :
    i.wellFormed = true ∧ encode i = .bbOut w := by
  unfold decodeBbOut at h
  dsimp only at h
  split_ifs at h with hb he <;> cases h
  · obtain ⟨hb, hsop⟩ := hb
    exact ⟨by simpa [Instr.wellFormed, imp_iff_not_or] using hsop, congrArg _ hb.symm⟩
  · exact ⟨rfl, congrArg _ he.symm⟩

/-- Settles O3: port by port, from what that port's decoder reads. -/
theorem encodeOfDecode : Obligations.EncodeOfDecode := by
  intro e i h
  cases e with
  | cmdIn ws =>
    obtain ⟨cmd, data, rfl, ho, rfl⟩ | ⟨cmd, rfl, ho, rfl⟩ := decode_cmdIn_cases h
    · exact decodeLong_spec ho data
    · exact decodeShort_spec ho
  | tsIn b => cases h; exact ⟨decodeTsIn_wellFormed b, trivial⟩
  | fsIn b => cases h; exact ⟨decodeFsIn_wellFormed b, trivial⟩
  | bbIn w => cases h; exact ⟨decodeBbIn_wellFormed w, trivial⟩
  | rspOut w => cases h; exact ⟨rfl, rfl⟩
  | tsOut b => exact decodeTsOut_spec h
  | fsOut b => exact decodeFsOut_spec h
  | bbOut w => exact decodeBbOut_spec h
  | rotOut w => cases h; exact ⟨rfl, rfl⟩

/-! ### How many words a command takes (R123) -/

/-- No instruction touches `CMD_IN`: HIF takes a command's words before it runs it (R123). -/
theorem exec_cmdIn {i : Instr} {s t : State} (h : exec i s = .next t) : t.cmdIn = s.cmdIn := by
  have hf := instructionFrames i s t h
  cases i with
  | tsSample _ _ | fsSample _ _ => exact (congrArg State.cmdIn hf.1).trans rfl
  | outEos port => cases port <;> exact (congrArg State.cmdIn hf).trans rfl
  | _ => exact (congrArg State.cmdIn hf).trans rfl

/-- Settles O4: HIF takes the words OP tells, and the instruction they are leaves `CMD_IN` alone. -/
theorem opDecidesCommandLength : Obligations.OpDecidesCommandLength := by
  constructor
  · intro s cmd data rest hin ho
    obtain ⟨t, ht⟩ := exec_next (decodeLong cmd data) { s with cmdIn := rest }
    exact ⟨t, (turn_hif_long hin ho).trans ht, exec_cmdIn ht⟩
  · intro s cmd rest hin ho
    obtain ⟨t, ht⟩ := exec_next (decodeShort cmd) { s with cmdIn := rest }
    exact ⟨t, (turn_hif_short hin ho).trans ht, exec_cmdIn ht⟩

/-! ### Illegal commands (R133, R166) -/

theorem exec_cmdReserved (cmd : Word) (s : State) : exec (.cmdReserved cmd) s = .next (WithError 1
    { s with rspOut := if opField cmd = 2 then s.rspOut ++ [0] else s.rspOut }) :=
  congrArg _ (illegalCmd_eq cmd s)

theorem exec_cmdMalformed (cmd : Word) (data : Option Word) (s : State) : exec (.cmdMalformed cmd data) s =
    .next (WithError 1 { s with rspOut := if opField cmd = 2 then s.rspOut ++ [0] else s.rspOut }) :=
  congrArg _ (illegalCmd_eq cmd s)

/-- Settles O5: an illegal word is read as a reserved or a malformed command, and both are the same step. -/
theorem illegalCommandsOnlyRaiseCmdErr : Obligations.IllegalCommandsOnlyRaiseCmdErr := by
  refine ⟨fun s cmd data rest hl hin => ?_, fun s cmd => exec_cmdReserved cmd s,
    fun s cmd data => exec_cmdMalformed cmd data s⟩
  by_cases ho : opField cmd = 1
  · have hm := (illegalWord_iff.mp hl).resolve_left (by simp [ho])
    rw [if_pos ho] at hin
    rw [turn_hif_long hin ho, decodeLong_malformed hm, exec_cmdMalformed]
  · rw [if_neg ho] at hin
    rw [turn_hif_short hin ho]
    obtain ⟨-, h⟩ | ⟨-, -, h⟩ := decodeShort_illegal hl <;> rw [h]
    · rw [exec_cmdReserved]
    · rw [exec_cmdMalformed]

/-! ### Ignored bits (R126, R128, R129) -/

/-- A TAG of `TS_IN` has the effect of its low `TAG_W` bits (R193). -/
theorem exec_tsTag_congr {s : State} {p p' : TagPayload} (h : maskTag s.params.tagW p = maskTag s.params.tagW p') :
    exec (.tsTag p) s = exec (.tsTag p') s := by simp only [exec, execTsTag, h]

/-- The payload field holds the low `TAG_W` bits of a TAG beat. -/
theorem maskTag_sPayload {w : Nat} (hw : w ≤ 64) (b : Beat) :
    maskTag w (sPayload b) = BitVec.ofNat 64 (b.toNat % 2 ^ w) := by
  rw [maskTag, sPayload, toNat_field, Nat.pow_zero, Nat.div_one, Nat.mod_mod_of_dvd _ (Nat.pow_dvd_pow 2 hw)]

theorem exec_fsTag (p : TagPayload) (s : State) : exec (.fsTag p) s = .next s := rfl

/-- The byte of a BYTE beat is its low 8 bits. -/
theorem byte_congr {w w' : Word} (h : w.toNat % 2 ^ 8 = w'.toNat % 2 ^ 8) :
    w.extractLsb' 0 8 = w'.extractLsb' 0 8 := by
  rw [field_eq_iff, toNat_field, Nat.pow_zero, Nat.div_one, Nat.div_one, h]

/-- kbch and DISC of a FRAME_START beat are its low 17 bits. -/
theorem kbch_disc_congr {w w' : Word} (h : w.toNat % 2 ^ 17 = w'.toNat % 2 ^ 17) :
    w.extractLsb' 0 16 = w'.extractLsb' 0 16 ∧ w.getLsbD 16 = w'.getLsbD 16 := by
  rw [field_eq_iff, toNat_field, toNat_bit, toNat_bit, decide_eq_decide]
  omega

/-- Settles O6: a beat's instruction is a function of its KIND and the fields of that KIND. -/
theorem ignoredBitsHaveNoEffect : Obligations.IgnoredBitsHaveNoEffect := by
  refine ⟨fun s b b' hk hs ht hw => ?_, fun s b b' hk hs => ?_, fun s w w' hk hb hf => ?_⟩
  · rw [decodeTsIn_eq, decodeTsIn_eq b', ← hk]
    split_ifs with h0 h1
    · obtain ⟨hre, him⟩ := hs h0
      rw [hre, him]
    · exact exec_tsTag_congr (by rw [maskTag_sPayload hw, maskTag_sPayload hw, ht h1])
    · rfl
    · rfl
  · rw [decodeFsIn_eq, decodeFsIn_eq b', ← hk]
    split_ifs with h0
    · obtain ⟨hre, him⟩ := hs h0
      rw [hre, him]
    · rw [exec_fsTag, exec_fsTag]
    · rfl
    · rfl
  · rw [decodeBbIn_eq, decodeBbIn_eq w', ← hk]
    split_ifs with h0 h1
    · rw [byte_congr (hb h0)]
    · obtain ⟨hkbch, hdisc⟩ := kbch_disc_congr (hf h1)
      rw [hkbch, hdisc]
    · rfl
    · rfl

/-! ### Words written out, and reserved beats -/

/-- Settles O1: the decoder evaluated on each word. -/
theorem wordsDecodeAsWritten : Obligations.WordsDecodeAsWritten := by
  unfold Obligations.WordsDecodeAsWritten
  decide

/-- Settles O22: each unit raises the one error before the end of its stream (R128), and nothing after it. -/
theorem reservedBeatsOnlyRaiseBeatErr : Obligations.ReservedBeatsOnlyRaiseBeatErr := by
  intro s
  have hr : raise .beatErr s = WithError 8 s := by rw [raise_eq, mask_beatErr]
  rw [← hr]
  exact ⟨rfl, rfl, rfl⟩

end Sys2Proof.Machine
end

section
/-!
PROOFS. The statements of 40_host_commands.md: what a CSRW of a legal value writes, and the commands NOP and CLRERR.
-/

namespace Sys2Proof.Machine

/-! ### CSRW of a legal value (R161) -/

theorem isGainInput_iff (c : Csr) : c.isGainInput = true ↔ c = .tsLoopBw ∨ c = .tsDamping ∨ c = .tsTedGain := by
  cases c <;> simp [Csr.isGainInput]

/-- A write reaches the register file and the two gains only. -/
theorem csrWritten_onlyCsr (c : Csr) (w : Word) (s : State) : OnlyCsr s (csrWritten c w s) := by
  unfold OnlyCsr csrWritten
  cases c.isGainInput <;> rfl

/-- The gains after a write: those of the new register file where one of their inputs was written. -/
theorem csrWritten_gains (c : Csr) (w : Word) (s : State) :
    ((csrWritten c w s).ts.k1, (csrWritten c w s).ts.k2) =
      if c.isGainInput then gains s.params.numerics (csrWritten c w s).csr else (s.ts.k1, s.ts.k2) := by
  rw [csrWritten_ts, csrWritten_csr]
  split <;> rfl

/-- The register written reads the value, the reserved bits of `FS_CTRL` as 0 (R35, R63). -/
theorem readCsr_csrWritten_self {c : Csr} {w : Word} (hl : c.legal? w = some true) (s : State) :
    readCsr (csrWritten c w s) c = if c = .fsCtrl then w &&& 0xF else w := by
  rw [readCsr_csrWritten c w s c hl, if_pos rfl]

/-- Another register reads as before, unless it shows a gain and a gain input was written. -/
theorem readCsr_csrWritten_other {c c' : Csr} {w : Word} (hl : c.legal? w = some true) (hne : c' ≠ c)
    (hk : c.isGainInput = true → c' ≠ .tsK1 ∧ c' ≠ .tsK2) (s : State) :
    readCsr (csrWritten c w s) c' = readCsr s c' := by
  have hgain : ¬ (c.isGainInput = true ∧ (c' = .tsK1 ∨ c' = .tsK2)) := by
    rintro ⟨hg, h⟩
    exact h.elim (hk hg).1 (hk hg).2
  rw [readCsr_csrWritten c w s c' hl, if_neg hne, if_neg hgain]

/-- Settles O14: the next state is `csrWritten`'s, clause by clause. -/
theorem csrwOfALegalValue : Obligations.CsrwOfALegalValue := by
  intro s a w c hc hl
  refine ⟨csrWritten c w s, ?_, csrWritten_onlyCsr c w s, readCsr_csrWritten_self hl s, fun c' hne hk => ?_, ?_⟩
  · rw [exec_csrw, writeAddr_legal hc hl]
  · exact readCsr_csrWritten_other hl hne (fun hg => hk ((isGainInput_iff c).mp hg)) s
  · simp only [csrWritten_gains, isGainInput_iff]

/-! ### NOP and CLRERR (R160, R164) -/

theorem exec_nop (s : State) : exec .nop s = .next s := rfl

theorem exec_clrerr (s : State) : exec .clrerr s = .next { s with hif := { s.hif with status := 0 } } := rfl

/-- Settles O13: each command's one effect. -/
theorem nopAndClrerr : Obligations.NopAndClrerr := fun s => ⟨exec_nop s, exec_clrerr s⟩

end Sys2Proof.Machine
end

section
/-!
PROOFS. The statements of 41_timing_sync.md: the loop gains, the end of the streams, TS's tags and outputs, and the loop
of one sample, up to the fixed downsampler it is with zero gains.
-/

namespace Sys2Proof.Machine

/-! ### The loop gains (R183) -/

/-- The real value of a register whose legal set is one of reals (R36). -/
theorem CsrInv.f32_fin {s : State} (h : CsrInv s) {c : Csr} {p : Rat → Bool}
    (hp : c.legal? (readCsr s c) = some (f32Legal (readCsr s c) p)) :
    ∃ q, f32 (readCsr s c) = .fin q ∧ p q = true := by
  refine (f32Legal_iff _ _).mp (Bool.eq_true_of_not_eq_false fun hf => h.legal c ?_)
  rw [hp, hf]

/-- The gains of three real numbers under the reference arithmetic. -/
theorem gains_reference {csr : Csrs} {B ζ Kp : Rat} (hB : f32 csr.tsLoopBw = .fin B) (hζ : f32 csr.tsDamping = .fin ζ)
    (hK : f32 csr.tsTedGain = .fin Kp) : gains .reference csr = if ζ = 0 ∨ B = 0 then (0, 0) else
      (4 * ζ * loopTheta B ζ / (loopDenom B ζ * Kp), 4 * loopTheta B ζ * loopTheta B ζ / (loopDenom B ζ * Kp)) := by
  simp [gains, hB, hζ, hK, numReal, NumCtx.exact, Num.isFin, Num.val]

/-- Settles O20: a legal register holds a real number, and the gains follow the new register file. -/
theorem gainsFollowTheFormula : Obligations.GainsFollowTheFormula := by
  intro s a w c href hc hgain hl hs
  have ht := hs.csrWritten hl
  obtain ⟨B, hB, -⟩ := ht.f32_fin (c := .tsLoopBw) rfl
  obtain ⟨ζ, hζ, -⟩ := ht.f32_fin (c := .tsDamping) rfl
  obtain ⟨Kp, hK, -⟩ := ht.f32_fin (c := .tsTedGain) rfl
  refine ⟨csrWritten c w s, B, ζ, Kp, by rw [exec_csrw, writeAddr_legal hc hl], hB, hζ, hK, ?_⟩
  have hg := csrWritten_gains c w s
  rw [if_pos ((isGainInput_iff c).mpr hgain), href, gains_reference hB hζ hK] at hg
  dsimp only
  split_ifs at hg ⊢
  · exact Prod.mk.inj hg
  · rw [← mul_assoc 4]
    exact Prod.mk.inj hg

/-! ### After the end of the stream (R205, R306, R342) -/

theorem exec_decodeTsIn_ended {s : State} (h : s.ts.eos = true) (b : Beat) : exec (decodeTsIn b) s = .next s := by
  rw [decodeTsIn_eq]
  split_ifs <;> simp only [exec, execTsSample, execTsTag, execTsEos, execTsReserved, h, if_true]

theorem exec_decodeFsIn_ended {s : State} (h : s.fs.eos = true) (b : Beat) : exec (decodeFsIn b) s = .next s := by
  rw [decodeFsIn_eq]
  split_ifs <;> simp only [exec, execFsSample, execFsTag, execFsEos, execFsReserved, h, if_true]

theorem exec_decodeBbIn_ended {s : State} (h : s.bb.eos = true) (w : Word) : exec (decodeBbIn w) s = .next s := by
  rw [decodeBbIn_eq]
  split_ifs <;> simp only [exec, execBbByte, execBbStart, execBbEos, execBbReserved, h, if_true]

/-- Only a RESET of TS reopens its stream (R391). -/
theorem exec_ts_eos {i : Instr} {s t : State} (h : exec i s = .next t) (he : s.ts.eos = true) :
    t.ts.eos = true ∨ ∃ fs bb hif, i = .reset true fs bb hif := by
  cases exec_ts_cases h with
  | same ht => exact .inl (by rw [ht, he])
  | gains a w _ ht => exact .inl (by rw [ht, he])
  | reset fs bb hif hi _ => exact .inr ⟨fs, bb, hif, hi⟩
  | sample re im _ hn _ => simp [he] at hn
  | tag p _ hn _ => simp [he] at hn
  | eos _ hn _ => simp [he] at hn

/-- Only a RESET of FS reopens its stream (R391). -/
theorem exec_fs_eos {i : Instr} {s t : State} (h : exec i s = .next t) (he : s.fs.eos = true) :
    t.fs.eos = true ∨ ∃ ts bb hif, i = .reset ts true bb hif := by
  have hf := instructionFrames i s t h
  cases i with
  | reset ts fs bb hif =>
    cases fs with
    | true => exact .inr ⟨ts, bb, hif, rfl⟩
    | false =>
      cases h
      rw [resetUnits_eq]
      exact .inl he
  | fsSample re im => exact .inl (hf.2.trans he)
  | fsEos =>
    cases h
    rw [if_pos he]
    exact .inl he
  | tsSample _ _ => exact .inl ((congrArg (fun u => u.fs.eos) hf.1).trans he)
  | outEos port => cases port <;> exact .inl ((congrArg (fun u => u.fs.eos) hf).trans he)
  | _ => exact .inl ((congrArg (fun u => u.fs.eos) hf).trans he)

/-- Only a RESET of BB reopens its stream (R391). -/
theorem exec_bb_eos {i : Instr} {s t : State} (h : exec i s = .next t) (he : s.bb.eos = true) :
    t.bb.eos = true ∨ ∃ ts fs hif, i = .reset ts fs true hif := by
  cases exec_bb_cases h with
  | same ht => exact .inl (by rw [ht, he])
  | byte x _ hn _ _ => simp [he] at hn
  | start k d _ hn _ => simp [he] at hn
  | eos _ hn _ => simp [he] at hn
  | reset ts fs hif hi _ => exact .inr ⟨ts, fs, hif, hi⟩

/-- Settles O23: a unit's turn runs the beat at the head of its port, and every meaning is guarded by `eos`. -/
theorem nothingHappensAfterEos : Obligations.NothingHappensAfterEos := by
  refine ⟨fun s b q hq he => ?_, fun s b q hq he => ?_, fun s w q hq he => ?_,
    fun i s t h => ⟨exec_ts_eos h, exec_fs_eos h, exec_bb_eos h⟩⟩
  · simp only [turn, fetch_ts_beat hq]
    exact exec_decodeTsIn_ended (s := { s with tsIn := q }) he b
  · simp only [turn, fetch_fs_beat hq]
    exact exec_decodeFsIn_ended (s := { s with fsIn := q }) he b
  · simp only [turn, fetch_bb_beat hq]
    exact exec_decodeBbIn_ended (s := { s with bbIn := q }) he w

/-! ### The beats of TS before the end of its stream (R190, R193, R200) -/

theorem exec_tsSample_open {s : State} (h : s.ts.eos = false) (re im : Word) : exec (.tsSample re im) s =
    .next (withTsRun (tsSampleRun (tsCfg s) (f32Sample re im) s.ts) s) := by
  simp only [exec, execTsSample, h, Bool.false_eq_true, if_false]

theorem exec_tsTag (p : TagPayload) (s : State) : exec (.tsTag p) s = .next (if s.ts.eos then s else
    { s with ts := { s.ts with tags := s.ts.tags ++ [⟨s.ts.nIn, maskTag s.params.tagW p⟩] } }) := rfl

theorem exec_tsEos_open {s : State} (h : s.ts.eos = false) : exec .tsEos s = .next (tsEnd s) := by
  simp only [exec, execTsEos, h, Bool.false_eq_true, if_false]

/-- Settles O27: a TAG beat's payload field holds its low `TAG_W` bits. -/
theorem tsTagIsRecorded : Obligations.TsTagIsRecorded := by
  intro s b hk hw
  refine ⟨sPayload b, by simp [decodeTsIn_eq, hk], ?_⟩
  rw [exec_tsTag, maskTag_sPayload hw]

theorem tsEnd_tick (s : State) : (tsEnd s).tick = s.tick + 1 := by
  unfold tsEnd
  cases tsDropsTags s.ts <;> rfl

/-- The end of the stream with an interpolant held: it carries every pending tag (R200). -/
theorem tsEnd_held {s : State} {hd : Held} (h : s.ts.held = some hd) :
    tsEnd s = { s with
      ts := { s.ts with tags := [], held := none, outCount := s.ts.outCount + 1, eos := true }
      tsOut := s.tsOut ++ (tagBeats s.ts.tags ++ [sampleBeat (cxBits s.tick s.ts.tags.length hd.y).1
        (cxBits s.tick s.ts.tags.length hd.y).2, eosBeat])
      tick := s.tick + 1 } := by
  simp [tsEnd, tsFlush, tsDropsTags, h, sendInterpolant, withTsRun, tagBeats, tsCfg, State.ctx]

/-- The end of the stream with none held: the tags are dropped (R197, R203). -/
theorem tsEnd_none {s : State} (h : s.ts.held = none) :
    tsEnd s = { (if s.ts.tags = [] then s else WithError 0x20 s) with
      ts := { s.ts with tags := [], eos := true }
      tsOut := s.tsOut ++ [eosBeat]
      tick := s.tick + 1 } := by
  by_cases ht : s.ts.tags = []
  · simp [tsEnd, tsFlush, tsDropsTags, h, ht, withTsRun]
  · simp [tsEnd, tsFlush, tsDropsTags, h, ht, withTsRun, raise_eq, WithError]

/-- Settles O28: the two ends of the stream, with an interpolant held and with none. -/
theorem tsEosFlushesTheStream : Obligations.TsEosFlushesTheStream := by
  intro s he
  refine ⟨tsEnd s, exec_tsEos_open he, ?_⟩
  rw [tsEnd_tick]
  refine ⟨fun hd hh => ?_, fun hh => ?_⟩
  · refine ⟨_, _, fun z hz => ?_, tsEnd_held hh⟩
    rw [hz]
    exact ⟨rfl, rfl⟩
  · exact tsEnd_none hh

/-! ### What a sample sends (R191, R195, R196, R198) -/

/-- Settles O24: the run of one sample, put back into the state. -/
theorem tsSampleCompletes : Obligations.TsSampleCompletes := by
  intro s re im hc hts he
  obtain ⟨hx, hn, hk1, hk2, heos⟩ := tsSampleRun_frame (tsCfg s) (f32Sample re im) s.ts
  have hsent := tsSampleRun_sent hc.sps_nonneg hts (f32Sample re im)
  refine ⟨_, _, exec_tsSample_open he re im, rfl, hx, hn, hk1, hk2, heos.trans he, rfl, fun b hb => ?_, hsent.count,
    hsent.tags⟩
  obtain ⟨_, _, rfl⟩ | ⟨_, rfl⟩ := hsent.kinds b hb
  · exact .inl (sKind_sampleBeat ..)
  · exact .inr (sKind_tagBeat _)

/-- Settles O26: the midpoint by its formula, and the tags split at it. -/
theorem heldInterpolantIsReleased : Obligations.HeldInterpolantIsReleased := by
  intro c r href
  refine ⟨fun hn => by simp only [releaseHeld, hn], fun hd y hh hy => ?_⟩
  have hm := midTime_reference href r.ts.v hd.t
  refine ⟨fun hle => ?_, fun hlt => ?_⟩
  · simp only [releaseHeld, hh, hm, if_neg (Nat.not_lt.mpr hle)]
  · have hlater : (fun g : Tag => !decide ((g.index : Rat) ≤ hd.t + c.sps / 2 * (1 + r.ts.v))) =
        fun g => decide (hd.t + c.sps / 2 * (1 + r.ts.v) < (g.index : Rat)) := by
      funext g
      rw [← decide_not, decide_eq_decide, not_le]
    simp only [releaseHeld, hh, hm, if_pos hlt, hlater, sendInterpolant, hy, cxBits]
    rfl

/-! ### The loop's end (R187, R190; assumption log 13) -/

/-- A legal `TS_SPS` is more than one sample per symbol (R50). -/
theorem CsrInv.one_lt_sps {s : State} (h : CsrInv s) : 1 < (tsCfg s).sps := by
  obtain ⟨q, hq, hp⟩ := h.f32_fin (c := .tsSps) rfl
  simp only [readCsr] at hq
  simp only [Bool.and_eq_true, decide_eq_true_eq] at hp
  simpa only [tsCfg, f32Val, hq, Num.val] using hp.1

/-- An interpolant takes no sample. -/
theorem takeInterpolant_nIn (c : TsCfg) (t : Rat) (ts : TsState) : (takeInterpolant c t ts).nIn = ts.nIn := by
  unfold takeInterpolant
  split
  · rfl
  · obtain ⟨v, i, h, -⟩ := takeOn_spec c (interpolate c ts t) t ts
    rw [h]

/-- How far the schedule has come, in quarter samples: the time of the latest ON interpolant, and one more when the MID
interpolant after it is taken. -/
def tsProgress (ts : TsState) : Rat := 4 * ts.tOn + if ts.ph = .on then 1 else 0

theorem tsProgress_releaseHeld (c : TsCfg) (r : TsRun) :
    tsProgress (releaseHeld c r).ts = tsProgress r.ts ∧ (releaseHeld c r).ts.nIn = r.ts.nIn := by
  obtain ⟨h, -⟩ | ⟨hd, -, -, h⟩ := releaseHeld_cases c r <;> rw [h] <;> exact ⟨rfl, rfl⟩

theorem tOn_takeOn (c : TsCfg) (y : Cx) (t : Rat) (ts : TsState) : (takeOn c y t ts).tOn = t := by
  simp [takeOn, TsState.tOn]

/-- Every interpolant taken is progress: an ON one lies more than half a sample after the one before it (R202). -/
theorem tsProgress_takeInterpolant {w : Nat} {c : TsCfg} {ts : TsState} (hs : 1 < c.sps) (h : TsInv w ts) :
    tsProgress ts + 1 ≤ tsProgress (takeInterpolant c (nextTime c ts) ts) := by
  unfold takeInterpolant
  split
  next hp => simp [tsProgress, hp, TsState.tOn]
  next hp =>
    have hon := (onTime_bounds c ts.tOn (by linarith) h.v).1
    rw [nextTime_on hp, tsProgress, tsProgress, tOn_takeOn, if_pos hp, if_neg (by simp [takeOn])]
    linarith

/-- Progress stays behind the samples received while interpolants are available (R187). -/
theorem tsProgress_lt_of_available {w : Nat} {c : TsCfg} {ts : TsState} (hs : 1 < c.sps) (h : TsInv w ts)
    (ha : available c ts (nextTime c ts) = true) : tsProgress ts < 4 * (ts.nIn : Rat) := by
  have hle : ts.tOn ≤ nextTime c ts := by
    cases hp : ts.ph with
    | mid =>
      rw [nextTime_mid hp]
      linarith [(midTime_bounds c ts.tOn (by linarith) h.v).1]
    | on =>
      rw [nextTime_on hp]
      linarith [(onTime_bounds c ts.tOn (by linarith) h.v).1]
  have hfloor := (floorNat_bounds (h.tOn_nonneg.trans hle)).2
  have hin : (floorNat (nextTime c ts) : Rat) + 2 ≤ ts.nIn := by exact_mod_cast available_lt ha
  unfold tsProgress
  split <;> linarith

/-- With fuel for the progress that is left, the loop ends at an interpolant whose support is not in. -/
theorem tsLoop_not_available {w : Nat} {c : TsCfg} (hs : 1 < c.sps) : ∀ (n : Nat) (r : TsRun), TsInv w r.ts →
    4 * (r.ts.nIn : Rat) ≤ tsProgress r.ts + n →
    available c (tsLoop c n r).ts (nextTime c (tsLoop c n r).ts) = false := by
  intro n
  induction n with
  | zero =>
    intro r hr hn
    refine Bool.eq_false_of_not_eq_true fun ha => ?_
    have hlt := tsProgress_lt_of_available hs hr.releaseHeld ha
    obtain ⟨hp, hi⟩ := tsProgress_releaseHeld c r
    rw [hp, hi] at hlt
    push_cast at hn
    linarith
  | succ n ih =>
    intro r hr hn
    simp only [tsLoop]
    split
    next ha =>
      have hq := hr.releaseHeld (c := c)
      refine ih _ (hq.takeInterpolant (by linarith) (releaseHeld_idem c r) ha) ?_
      obtain ⟨hp, hi⟩ := tsProgress_releaseHeld c r
      have hstep := tsProgress_takeInterpolant hs hq
      simp only [takeInterpolant_nIn, hi]
      push_cast at hn
      linarith
    next ha => exact Bool.eq_false_of_not_eq_true ha

/-- Where a release does nothing, a held interpolant's midpoint has not been received. -/
theorem not_due_of_releaseHeld {c : TsCfg} {r : TsRun} (h : releaseHeld c r = r) :
    ∀ hd, r.ts.held = some hd → r.ts.nIn ≤ floorNat (midTime c r.ts.v hd.t) := by
  obtain ⟨-, hn⟩ | ⟨hd, hh, -, hr⟩ := releaseHeld_cases c r
  · exact hn
  · rw [← h, hr] at hh
    cases hh

/-- The loop ends with a release that leaves nothing to release (R199). -/
theorem releaseHeld_tsLoop (c : TsCfg) (n : Nat) (r : TsRun) : releaseHeld c (tsLoop c n r) = tsLoop c n r := by
  induction n generalizing r with
  | zero => exact releaseHeld_idem c r
  | succ n ih =>
    simp only [tsLoop]
    split
    · exact ih _
    · exact releaseHeld_idem c r

/-- The loop of one sample ends only at an interpolant whose support is not in. -/
theorem tsSampleRun_not_available {w : Nat} {c : TsCfg} {ts : TsState} (hs : 1 < c.sps) (h : TsInv w ts) (z : Cx) :
    available c (tsSampleRun c z ts).ts (nextTime c (tsSampleRun c z ts).ts) = false := by
  refine tsLoop_not_available hs _ _ (h.push z) ?_
  have h0 : 0 ≤ tsProgress (ts.push z) := by
    have := (h.push z).tOn_nonneg
    unfold tsProgress
    split <;> linarith
  simp only [tsFuel, TsState.push_nIn]
  push_cast
  linarith

/-- Settles O25: the loop's fuel covers the progress that the samples received allow. -/
theorem tsLoopRunsToTheEnd : Obligations.TsLoopRunsToTheEnd := by
  intro s t re im hc hts he h
  rw [exec_tsSample_open he] at h
  cases h
  refine ⟨tsSampleRun_not_available hc.one_lt_sps hts _, fun hd hh => ?_⟩
  have hrel := releaseHeld_tsLoop (tsCfg s) (tsFuel (s.ts.nIn + 1)) { ts := s.ts.push (f32Sample re im), out := [] }
  exact not_due_of_releaseHeld hrel hd hh

/-! ### The interpolators (R186) -/

/-- The formula of R186 for an interpolator, of the samples around the time's whole part. -/
def interpFormula (interp : Nat) (mu : Rat) (xm1 x0 x1 x2 : CQ) : CQ :=
  if interp = 1 then interpLinear mu x0 x1
  else if interp = 2 then interpFarrow mu xm1 x0 x1 x2
  else interpCubic mu xm1 x0 x1 x2

/-- With finite samples under the reference arithmetic the interpolant is its formula. -/
theorem interpolate_reference {c : TsCfg} {ts : TsState} (hc : c.ctx.numerics = .reference)
    (hx : ∀ z ∈ ts.x, z ≠ .nonFinite) (t : Rat) :
    interpolate c ts t = .fin (interpFormula c.interp (t - (floorNat t : Rat)) (ts.sample ((floorNat t : Int) - 1)).val
      (ts.sample (floorNat t)).val (ts.sample ((floorNat t : Int) + 1)).val (ts.sample ((floorNat t : Int) + 2)).val) := by
  obtain ⟨xm1, hm1⟩ := TsState.sample_fin hx ((floorNat t : Int) - 1)
  obtain ⟨x0, h0⟩ := TsState.sample_fin hx (floorNat t)
  obtain ⟨x1, h1⟩ := TsState.sample_fin hx ((floorNat t : Int) + 1)
  obtain ⟨x2, h2⟩ := TsState.sample_fin hx ((floorNat t : Int) + 2)
  simp only [interpolate, interpFormula, hm1, h0, h1, h2]
  split_ifs <;> simp [numCx, NumCtx.exact, hc, Cx.operands, Num.isFin, Cx.val]

/-- With nothing of a period past the sample every formula gives the sample. -/
theorem interpFormula_zero (interp : Nat) (xm1 x0 x1 x2 : CQ) : interpFormula interp 0 xm1 x0 x1 x2 = x0 := by
  unfold interpFormula
  split_ifs
  · simp [interpLinear, combine, CQ.sum, CQ.zero, CQ.add, CQ.scale]
  · simp [interpFarrow, CQ.add, CQ.scale]
  · simp [interpCubic, combine, CQ.sum, CQ.zero, CQ.add, CQ.scale]

theorem floorNat_natCast (k : Nat) : floorNat (k : Rat) = k := by
  have h : (k : Rat).floor = k := Int.floor_natCast (R := Rat) k
  rw [floorNat, h, Int.toNat_natCast]

/-- At a whole time the interpolant is the sample. -/
theorem interpolate_natCast {c : TsCfg} {ts : TsState} (hc : c.ctx.numerics = .reference)
    (hx : ∀ z ∈ ts.x, z ≠ .nonFinite) (k : Nat) : interpolate c ts (k : Rat) = ts.sample k := by
  obtain ⟨z, hz⟩ := TsState.sample_fin hx k
  rw [interpolate_reference hc hx, floorNat_natCast, sub_self, interpFormula_zero, hz]
  rfl

/-- Settles O29: at a whole time nothing of a period is past the sample. -/
theorem interpolantAtASampleIsTheSample : Obligations.InterpolantAtASampleIsTheSample :=
  fun _ _ k hc _ _ hx => interpolate_natCast hc hx k

/-! ### One turn of the loop (R184, R185, R187 to R190) -/

theorem tsLoop_succ (c : TsCfg) (n : Nat) (r : TsRun) : tsLoop c (n + 1) r =
    if available c (releaseHeld c r).ts (nextTime c (releaseHeld c r).ts) then
      tsLoop c n { releaseHeld c r with
        ts := takeInterpolant c (nextTime c (releaseHeld c r).ts) (releaseHeld c r).ts }
    else releaseHeld c r := rfl

theorem available_iff (c : TsCfg) (ts : TsState) (t : Rat) :
    available c ts t = true ↔ floorNat t + (if c.interp = 1 then 2 else 3) ≤ ts.nIn := decide_eq_true_iff

theorem tedError_reference {c : TsCfg} (hc : c.ctx.numerics = .reference) (yp ym y : CQ) :
    tedError c (.fin yp) (.fin ym) (.fin y) = .fin ((yp.re - y.re) * ym.re + (yp.im - y.im) * ym.im) := by
  simp [tedError, numNum, NumCtx.exact, hc, Cx.operands, Num.isFin, Cx.val, gardner, CQ.sub, CQ.mul, CQ.conj]

/-- `fmod(x, 1)` is congruent to `x` and has its sign (R17). -/
theorem fmod1_spec (x : Rat) :
    (∃ m : Int, fmod1 x = x - m) ∧ (0 ≤ x → 0 ≤ fmod1 x) ∧ (x ≤ 0 → fmod1 x ≤ 0) := by
  unfold fmod1
  split
  next h =>
    have hle : ((x.floor : Int) : Rat) ≤ x := Int.floor_le x
    have hge : (0 : Rat) ≤ ((x.floor : Int) : Rat) := Int.cast_nonneg (Int.floor_nonneg.mpr h)
    exact ⟨⟨_, rfl⟩, fun _ => by linarith, fun hx => by linarith⟩
  next h =>
    have hle : x ≤ ((x.ceil : Int) : Rat) := Rat.le_ceil
    exact ⟨⟨_, rfl⟩, fun hx => absurd hx h, fun _ => by linarith⟩

/-- An ON interpolant that is the first, or with the damping 0, leaves the loop alone (R184). -/
theorem updateFrom_still {c : TsCfg} {ts : TsState} (h : ts.yPrev = none ∨ loopFrozen c ts) (y : Cx) :
    updateFrom c y ts = ts := by
  unfold updateFrom
  split
  next yp ym hp _ =>
    obtain h | h := h
    · rw [hp] at h
      cases h
    · exact loopUpdate_frozen h _
  next => rfl

/-- The three formulas of R186, in either part of the samples. -/
theorem interpFormula_part {part : CQ → Rat} (hp : part = CQ.re ∨ part = CQ.im) (interp : Nat) (μ : Rat)
    (xm1 x0 x1 x2 : CQ) :
    (interp = 1 → part (interpFormula interp μ xm1 x0 x1 x2) = (1 - μ) * part x0 + μ * part x1) ∧
    (interp = 2 → part (interpFormula interp μ xm1 x0 x1 x2) =
      ((part x2 / 2 - part x1 / 2 - part x0 / 2 + part xm1 / 2) * μ +
        (-(part x2) / 2 + 3 / 2 * part x1 - part x0 / 2 - part xm1 / 2)) * μ + part x0) ∧
    (interp = 3 → part (interpFormula interp μ xm1 x0 x1 x2) =
      -(μ * (μ - 1) * (μ - 2) / 6) * part xm1 + (μ + 1) * (μ - 1) * (μ - 2) / 2 * part x0 -
        (μ + 1) * μ * (μ - 2) / 2 * part x1 + (μ + 1) * μ * (μ - 1) / 6 * part x2) := by
  refine ⟨?_, ?_, ?_⟩
  · rintro rfl
    obtain rfl | rfl := hp <;> simp [interpFormula, interpLinear, combine, CQ.sum, CQ.zero, CQ.add, CQ.scale]
  · rintro rfl
    obtain rfl | rfl := hp <;>
      simp only [interpFormula, interpFarrow, combine, CQ.sum, CQ.zero, CQ.add, CQ.scale, List.map, List.foldl] <;>
      norm_num <;> ring
  · rintro rfl
    obtain rfl | rfl := hp <;>
      simp only [interpFormula, interpCubic, combine, CQ.sum, CQ.zero, CQ.add, CQ.scale, List.map, List.foldl] <;>
      norm_num <;> ring

/-- An ON interpolant after another updates the loop with the Gardner error (R188, R189). -/
theorem updateFrom_reference {c : TsCfg} {ts : TsState} (hc : c.ctx.numerics = .reference) (hg : ¬ loopFrozen c ts)
    {yp ym : CQ} (hp : ts.yPrev = some (.fin yp)) (hm : ts.yMid = some (.fin ym)) (y : CQ) :
    let e := (yp.re - y.re) * ym.re + (yp.im - y.im) * ym.im
    updateFrom c (.fin y) ts = { ts with
      v := clampRat (ts.k1 * e + fmod1 (ts.k2 * e + ts.integ)) (-(1 / 2)) (1 / 2)
      integ := fmod1 (ts.k2 * e + ts.integ) } := by
  simp only [updateFrom, hp, hm, tedError_reference hc, loopUpdate_reference hc _ hg]

/-- Settles O59: the loop of R190 turn by turn; each formula is the model's under the reference arithmetic. -/
theorem tsLoopFollowsTheErrors : Obligations.TsLoopFollowsTheErrors := by
  refine ⟨fun s re im he => exec_tsSample_open he re im, fun c ts time hc hx => ?_, ?_⟩
  · refine ⟨_, interpolate_reference hc hx time, fun part hp => ?_⟩
    dsimp only
    rw [add_zero, ← sub_eq_add_neg]
    exact interpFormula_part hp c.interp _ _ _ _ _
  · intro c n r hc q last time y isIn onTaken frozen
    have hnext : nextTime c q.ts = time := by
      simp only [time]
      cases hp : q.ts.ph with
      | mid => exact (nextTime_mid hp).trans (midTime_reference hc ..)
      | on => exact (nextTime_on hp).trans (onTime_reference hc ..)
    have havail : available c q.ts (nextTime c q.ts) = true ↔ isIn := by
      rw [hnext]
      exact available_iff ..
    have hturn (hin : isIn) : tsLoop c (n + 1) r = tsLoop c n { q with ts := takeInterpolant c time q.ts } := by
      rw [tsLoop_succ, if_pos (havail.mpr hin), ← hnext]
    have htake (hin : isIn) (hp : q.ts.ph = .on) {v i : Rat}
        (hu : updateFrom c y q.ts = { q.ts with v := v, integ := i }) : onTaken v i := by
      simp only [onTaken]
      rw [hturn hin]
      simp only [takeInterpolant, hp, takeOn]
      rw [hu]
    refine ⟨fun hout => ?_, fun hin hp => ?_, fun hin hp hs => htake hin hp (updateFrom_still hs y),
      fun hin hp hg a b z ha hb hz => ?_⟩
    · rw [tsLoop_succ, if_neg fun ha => hout (havail.mp ha)]
    · rw [hturn hin]
      simp only [takeInterpolant, hp]
      rfl
    · have hu := updateFrom_reference hc hg ha hb z
      rw [← hz] at hu
      dsimp only at hu ⊢
      rw [add_comm (q.ts.k2 * _)] at hu
      obtain ⟨hcongr, hpos, hneg⟩ := fmod1_spec (q.ts.integ + q.ts.k2 * ((a.re - z.re) * b.re + (a.im - z.im) * b.im))
      exact ⟨_, htake hin hp hu, (fmod1_bounds _).1, (fmod1_bounds _).2, hcongr, hpos, hneg⟩

/-! ### The fixed downsampler (R184, R201) -/

/-- A sample received keeps its index when another arrives. -/
theorem TsState.sample_push {ts : TsState} {k : Nat} (h : k < ts.nIn) (z : Cx) :
    (ts.push z).sample k = ts.sample k := by
  have hi : ts.nIn - k = ts.nIn - 1 - k + 1 := by omega
  simp [TsState.sample, hi]

/-- With zero gains and nothing in the loop an ON interpolant leaves the loop alone (R184). -/
theorem updateFrom_zero {c : TsCfg} {ts : TsState} (hc : c.ctx.numerics = .reference) (hg : ts.k1 = 0 ∧ ts.k2 = 0)
    (hv : ts.v = 0 ∧ ts.integ = 0) (hp : ts.yPrev ≠ some .nonFinite) (hm : ts.yMid ≠ some .nonFinite) (y : CQ) :
    updateFrom c (.fin y) ts = ts := by
  by_cases hf : loopFrozen c ts
  · exact updateFrom_still (.inr hf) _
  match hyp : ts.yPrev, hym : ts.yMid with
  | none, _ => exact updateFrom_still (.inl hyp) _
  | some _, none => simp only [updateFrom, hyp, hym]
  | some .nonFinite, _ => exact absurd hyp hp
  | _, some .nonFinite => exact absurd hym hm
  | some (.fin a), some (.fin b) =>
    have hi (e : Rat) : fmod1 (ts.k2 * e + ts.integ) = ts.integ := by
      rw [hg.2, zero_mul, zero_add, fmod1_self (by rw [hv.2]; norm_num)]
    have hv' (e : Rat) : clampRat (ts.k1 * e + ts.integ) (-(1 / 2)) (1 / 2) = ts.v := by
      rw [hg.1, hv.1, hv.2]
      norm_num [clampRat]
    rw [updateFrom_reference hc hf hyp hym]
    simp only [hi, hv']

section
variable {p : Nat} {s t : State}

/-- The downsampler is a matter of the build parameters, the registers and TS alone. -/
theorem Downsampler.of_eq (h : Downsampler p s) (hp : t.params = s.params) (hc : t.csr = s.csr) (ht : t.ts = s.ts) :
    Downsampler p t where
  exact := by rw [hp, h.exact]
  sps := by rw [hc, h.sps]
  gains := by rw [ht]; exact h.gains
  loop := by rw [ht]; exact h.loop
  finite := ⟨by rw [ht]; exact h.finite.x, by rw [ht]; exact h.finite.yMid, by rw [ht]; exact h.finite.yPrev⟩
  time := by rw [ht]; exact h.time
  held := by rw [ht]; exact h.held
  sent := by rw [ht]; exact h.sent

theorem Downsampler.cfg_sps (h : Downsampler p s) : (tsCfg s).sps = p := by
  simp only [tsCfg, f32Val, h.sps, Num.val]

theorem Downsampler.tOn_eq (h : Downsampler p s) : s.ts.tOn = s.ts.kOn := by
  rw [TsState.tOn, h.time.1, add_zero]

/-- The next ON time is one symbol period on. -/
theorem Downsampler.nextTime_on (h : Downsampler p s) (hp : s.ts.ph = .on) :
    nextTime (tsCfg s) s.ts = ((s.ts.kOn + p : Nat) : Rat) := by
  rw [Machine.nextTime_on hp, onTime_reference h.exact, h.tOn_eq, h.cfg_sps, h.loop.1]
  push_cast
  ring

/-- The next interpolant lies at most one symbol period on. -/
theorem Downsampler.floorNat_nextTime_le (h : Downsampler p s) :
    floorNat (nextTime (tsCfg s) s.ts) ≤ s.ts.kOn + p := by
  cases hp : s.ts.ph with
  | on => rw [h.nextTime_on hp, floorNat_natCast]
  | mid =>
    have ht : nextTime (tsCfg s) s.ts = s.ts.kOn + (p : Rat) / 2 := by
      rw [nextTime_mid hp, midTime_reference h.exact, h.tOn_eq, h.cfg_sps, h.loop.1]
      ring
    have hle : (floorNat (nextTime (tsCfg s) s.ts) : Rat) ≤ s.ts.kOn + (p : Rat) / 2 := by
      rw [ht]
      exact (floorNat_bounds (by positivity)).1
    have hp0 : (0 : Rat) ≤ p := Nat.cast_nonneg p
    have hcast : (floorNat (nextTime (tsCfg s) s.ts) : Rat) ≤ ((s.ts.kOn + p : Nat) : Rat) := by
      push_cast
      linarith
    exact_mod_cast hcast

/-- With an interpolant held, it is the next output. -/
theorem Downsampler.kOn_of_held (h : Downsampler p s) {hd : Held} (hh : s.ts.held = some hd) :
    s.ts.kOn = (outputsSent p s.ts + 1) * p := by
  have hk := Nat.div_mul_cancel (Nat.dvd_of_mod_eq_zero h.time.2.1)
  have hpos := (h.held hd hh).1
  have hq : s.ts.kOn / p ≠ 0 := by
    intro h0
    rw [h0, Nat.zero_mul] at hk
    omega
  have ho : outputsSent p s.ts + 1 = s.ts.kOn / p := by
    simp only [outputsSent, hh, Option.isSome_some, if_true]
    exact Nat.sub_add_cancel (Nat.pos_of_ne_zero hq)
  rw [ho, hk]

/-- With none held, the latest one has been sent. -/
theorem outputsSent_of_none {ts : TsState} (hn : ts.held = none) : outputsSent p ts = ts.kOn / p := by
  simp [outputsSent, hn]

/-- A finite sample more leaves the downsampler at work. -/
theorem Downsampler.push (h : Downsampler p s) {z : Cx} (hz : z ≠ .nonFinite) :
    Downsampler p { s with ts := s.ts.push z } where
  exact := h.exact
  sps := h.sps
  gains := h.gains
  loop := h.loop
  finite := ⟨List.forall_mem_cons.mpr ⟨hz, h.finite.x⟩, h.finite.yMid, h.finite.yPrev⟩
  time := ⟨h.time.1, h.time.2.1, h.time.2.2.imp_right Nat.lt_succ_of_lt⟩
  held hd hh := by
    obtain ⟨hpos, hy⟩ := h.held hd hh
    exact ⟨hpos, hy.trans (TsState.sample_push (h.time.2.2.resolve_left hpos.ne') z).symm⟩
  sent := h.sent

/-- A MID interpolant leaves it at work. -/
theorem Downsampler.takeMid (h : Downsampler p s) (y : CQ) :
    Downsampler p { s with ts := takeMid (.fin y) s.ts } :=
  { h with finite := ⟨h.finite.x, by simp, h.finite.yPrev⟩ }

/-- TS after the downsampler's next ON interpolant, the sample a symbol period after the latest one. -/
def nextOn (p : Nat) (ts : TsState) : TsState :=
  { ts with
    yPrev := some (ts.sample (ts.kOn + p : Nat))
    tPrev := some ((ts.kOn + p : Nat) : Rat)
    kOn := ts.kOn + p
    muOn := 0
    held := some ⟨ts.sample (ts.kOn + p : Nat), ((ts.kOn + p : Nat) : Rat)⟩
    ph := .mid }

theorem Downsampler.takeInterpolant_on (h : Downsampler p s) (hp : s.ts.ph = .on) :
    takeInterpolant (tsCfg s) (nextTime (tsCfg s) s.ts) s.ts = nextOn p s.ts := by
  obtain ⟨z, hz⟩ := TsState.sample_fin h.finite.x (s.ts.kOn + p : Nat)
  simp only [takeInterpolant, hp, h.nextTime_on hp]
  rw [interpolate_natCast h.exact h.finite.x, takeOn, hz,
    updateFrom_zero h.exact h.gains h.loop h.finite.yPrev h.finite.yMid, floorNat_natCast, sub_self, nextOn, hz]

/-- Holding the next ON interpolant sends nothing. -/
theorem outputsSent_nextOn (hp0 : 0 < p) {ts : TsState} (hn : ts.held = none) :
    outputsSent p (nextOn p ts) = outputsSent p ts := by
  simp [outputsSent, nextOn, hn, Nat.add_div_right _ hp0]

/-- An ON interpolant leaves it at work. -/
theorem Downsampler.nextOn (h : Downsampler p s) (hp0 : 0 < p) (hn : s.ts.held = none)
    (hin : s.ts.kOn + p < s.ts.nIn) : Downsampler p { s with ts := nextOn p s.ts } where
  exact := h.exact
  sps := h.sps
  gains := h.gains
  loop := h.loop
  finite := by
    obtain ⟨z, hz⟩ := TsState.sample_fin h.finite.x (s.ts.kOn + p : Nat)
    exact ⟨h.finite.x, h.finite.yMid, fun hnf => by cases hz.symm.trans (Option.some.inj hnf)⟩
  time := ⟨rfl, (Nat.add_mod_right ..).trans h.time.2.1, .inr hin⟩
  held := by
    rintro _ ⟨⟩
    exact ⟨Nat.add_pos_right _ hp0, rfl⟩
  sent := h.sent.trans (congrArg _ (outputsSent_nextOn hp0 hn).symm)

/-- The release of the held interpolant is one output more. -/
theorem Downsampler.outputsSent_released {r : TsRun} (h : Downsampler p { s with ts := r.ts }) {hd : Held}
    (hh : r.ts.held = some hd) (hp0 : 0 < p) (c : TsCfg) (m : Rat) :
    outputsSent p (released c hd m r).ts = outputsSent p r.ts + 1 := by
  have hk : r.ts.kOn = _ := h.kOn_of_held hh
  rw [outputsSent_of_none (released_held c hd m r)]
  exact Nat.div_eq_of_eq_mul_left hp0 hk

/-- A release leaves it at work. -/
theorem Downsampler.released {r : TsRun} (h : Downsampler p { s with ts := r.ts }) {hd : Held}
    (hh : r.ts.held = some hd) (hp0 : 0 < p) (c : TsCfg) (m : Rat) :
    Downsampler p { s with ts := (released c hd m r).ts } where
  exact := h.exact
  sps := h.sps
  gains := h.gains
  loop := h.loop
  finite := ⟨h.finite.x, h.finite.yMid, h.finite.yPrev⟩
  time := h.time
  held := by rintro _ ⟨⟩
  sent := by
    have hs : r.ts.outCount = _ := h.sent
    show r.ts.outCount + 1 = _
    rw [hs, h.outputsSent_released hh hp0, BitVec.ofNat_add]
    rfl

end

/-! ### Its outputs -/

/-- The SAMPLE beat of the sample `x[k]`. -/
def beatOfSample (ts : TsState) (k : Nat) : Beat :=
  sampleBeat (bits32 (ts.sample k).val.re) (bits32 (ts.sample k).val.im)

theorem beatOfSample_fin {ts : TsState} {k : Nat} {z : CQ} (h : ts.sample k = .fin z) :
    beatOfSample ts k = sampleBeat (bits32 z.re) (bits32 z.im) := by rw [beatOfSample, h, Cx.val]

/-- The SAMPLE beats of `x[(n+1)·p]`, `x[(n+2)·p]`, …, up to `x[n'·p]`. -/
def downsampled (p n n' : Nat) (ts : TsState) : List Beat :=
  (List.range (n' - n)).map fun j => beatOfSample ts ((n + 1 + j) * p)

theorem downsampled_self (p n : Nat) (ts : TsState) : downsampled p n n ts = [] := by simp [downsampled]

/-- One output more. -/
theorem downsampled_succ {p n n' : Nat} (h : n ≤ n') (ts : TsState) :
    downsampled p n (n' + 1) ts = downsampled p n n' ts ++ [beatOfSample ts ((n' + 1) * p)] := by
  have hj : n + 1 + (n' - n) = n' + 1 := by omega
  rw [downsampled, Nat.succ_sub h, List.range_succ, List.map_append, List.map_singleton, hj, downsampled]

/-- Tags are no SAMPLE beats. -/
theorem filter_sample_tagBeats (tags : List Tag) : ((tagBeats tags).filter fun b => sKind b == 0) = [] := by
  rw [List.filter_eq_nil_iff]
  intro b hb
  obtain ⟨g, rfl⟩ := tagBeats_kinds hb
  simp

theorem filter_sample_sampleBeat (re im : Word) :
    ([sampleBeat re im].filter fun b => sKind b == 0) = [sampleBeat re im] := by simp

/-- In the middle of a step of the downsampler: `n` outputs stood before the step, and the beats sent since are the
outputs after them. -/
structure DownsamplerRun (p n : Nat) (s : State) (r : TsRun) : Prop where
  inv   : TsInv s.params.tagW r.ts
  down  : Downsampler p { s with ts := r.ts }
  start : n ≤ outputsSent p r.ts
  sent  : (r.out.filter fun b => sKind b == 0) = downsampled p n (outputsSent p r.ts) r.ts

section
variable {p n : Nat} {s : State} {r : TsRun}

/-- A release sends the sample at the latest ON time, the output after those counted (R199). -/
theorem DownsamplerRun.released (h : DownsamplerRun p n s r) (hp0 : 0 < p) {hd : Held} (hh : r.ts.held = some hd)
    (m : Rat) : DownsamplerRun p n s (released (tsCfg s) hd m r) where
  inv := h.inv.released
  down := h.down.released hh hp0 _ m
  start := by
    rw [h.down.outputsSent_released hh hp0]
    exact Nat.le_succ_of_le h.start
  sent := by
    obtain ⟨z, hz⟩ : ∃ z, r.ts.sample r.ts.kOn = .fin z := TsState.sample_fin h.down.finite.x _
    have hk : r.ts.kOn = (outputsSent p r.ts + 1) * p := h.down.kOn_of_held hh
    have hy : hd.y = .fin z := (h.down.held hd hh).2.trans hz
    have hout : ((Machine.released (tsCfg s) hd m r).out.filter fun b => sKind b == 0) =
        downsampled p n (outputsSent p r.ts) r.ts ++ [beatOfSample r.ts r.ts.kOn] := by
      simp only [Machine.released, sendInterpolant, List.filter_append, filter_sample_tagBeats, filter_sample_sampleBeat,
        h.sent, hy, cxBits, beatOfSample_fin hz, List.append_nil]
    rw [hout, h.down.outputsSent_released hh hp0, downsampled_succ h.start, ← hk]
    rfl

theorem DownsamplerRun.releaseHeld (h : DownsamplerRun p n s r) (hp0 : 0 < p) :
    DownsamplerRun p n s (releaseHeld (tsCfg s) r) := by
  obtain ⟨hr, -⟩ | ⟨hd, hh, -, hr⟩ := releaseHeld_cases (tsCfg s) r <;> rw [hr]
  · exact h
  · exact h.released hp0 hh _

/-- An interpolant sends nothing. -/
theorem DownsamplerRun.takeInterpolant (h : DownsamplerRun p n s r) (hp0 : 0 < p)
    (hr : Machine.releaseHeld (tsCfg s) r = r) (ha : available (tsCfg s) r.ts (nextTime (tsCfg s) r.ts) = true) :
    DownsamplerRun p n s { r with ts := takeInterpolant (tsCfg s) (nextTime (tsCfg s) r.ts) r.ts } := by
  have hs : 0 ≤ (tsCfg s).sps := by
    have hsps : (tsCfg s).sps = p := h.down.cfg_sps
    rw [hsps]
    exact Nat.cast_nonneg p
  have hinv := h.inv.takeInterpolant hs hr ha
  cases hp : r.ts.ph with
  | mid =>
    have he := interpolate_reference (c := tsCfg s) h.down.exact h.down.finite.x (nextTime (tsCfg s) r.ts)
    simp only [Machine.takeInterpolant, hp, he] at hinv ⊢
    exact ⟨hinv, h.down.takeMid _, h.start, h.sent⟩
  | on =>
    have hn : r.ts.held = none := by
      refine Option.eq_none_iff_forall_ne_some.mpr fun hd hh => ?_
      rw [(h.inv.held hd hh).2] at hp
      cases hp
    have ht : nextTime (tsCfg s) r.ts = ((r.ts.kOn + p : Nat) : Rat) := h.down.nextTime_on hp
    have hin : r.ts.kOn + p < r.ts.nIn := by
      have hlt := available_lt ha
      rw [ht, floorNat_natCast] at hlt
      omega
    have he : Machine.takeInterpolant (tsCfg s) (nextTime (tsCfg s) r.ts) r.ts = nextOn p r.ts :=
      h.down.takeInterpolant_on hp
    rw [he] at hinv ⊢
    have ho := outputsSent_nextOn hp0 hn
    refine ⟨hinv, h.down.nextOn hp0 hn hin, ?_, ?_⟩
    · rw [ho]
      exact h.start
    · rw [ho]
      exact h.sent

end

/-- One sample of the downsampler. -/
theorem Downsampler.sampleRun {p : Nat} {s : State} (h : Downsampler p s) (hp0 : 0 < p)
    (hts : TsInv s.params.tagW s.ts) {z : Cx} (hz : z ≠ .nonFinite) :
    DownsamplerRun p (outputsSent p s.ts) s (tsSampleRun (tsCfg s) z s.ts) :=
  tsLoop_keeps (fun _ hr => hr.releaseHeld hp0) (fun _ hr hi ha => hr.takeInterpolant hp0 hi ha) _ _
    ⟨hts.push z, h.push hz, le_rfl, (downsampled_self ..).symm⟩

/-- Settles O30: the loop keeps the downsampler and its outputs, and ends a symbol period and the interpolator's support
behind the newest sample. -/
theorem zeroGainsDownsample : Obligations.ZeroGainsDownsample := by
  intro p s t re im hp2 hc hts hdown hz he h
  rw [exec_tsSample_open he] at h
  cases h
  have hrun := hdown.sampleRun (by omega) hts hz
  have hend := tsSampleRun_not_available hc.one_lt_sps hts (f32Sample re im)
  have hcount := (tsSampleRun_frame (tsCfg s) (f32Sample re im) s.ts).2.1
  generalize tsSampleRun (tsCfg s) (f32Sample re im) s.ts = r at hrun hend hcount ⊢
  have hlt : r.ts.kOn < r.ts.nIn := by
    obtain h0 | hlt : r.ts.kOn = 0 ∨ r.ts.kOn < r.ts.nIn := hrun.down.time.2.2
    · omega
    · exact hlt
  refine ⟨hrun.down.of_eq rfl rfl rfl, hrun.start, ?_, ⟨r.out, rfl, hrun.sent⟩, hlt, ?_⟩
  · calc outputsSent p r.ts * p ≤ r.ts.kOn / p * p := Nat.mul_le_mul_right p (Nat.sub_le _ _)
      _ ≤ r.ts.kOn := Nat.div_mul_le_self ..
      _ < r.ts.nIn := hlt
  · have hfloor : floorNat (nextTime (tsCfg s) r.ts) ≤ r.ts.kOn + p := hrun.down.floorNat_nextTime_le
    have hout := mt (available_iff (tsCfg s) r.ts _).mpr (Bool.eq_false_iff.mp hend)
    have hinterp : (tsCfg s).interp = 1 ↔ s.csr.tsInterp = 1 := BitVec.toNat_inj (y := 1)
    simp only [hinterp] at hout
    show r.ts.nIn < r.ts.kOn + p + _
    omega

end Sys2Proof.Machine
end

section
/-!
PROOFS. The statements of 42_freq_estimator.md: FE's invariant, its transitions, what is commanded, and FE's part of
FS.SAMPLE.
-/

namespace Sys2Proof.Machine

/-! ### What an instruction can do to FE (R235, R237, R238, R241) -/

/-- What an instruction can do to FE. -/
inductive FeCase (i : Instr) (s t : State) : Prop where
  | same (h : t.fe = s.fe)
  /-- R391 -/
  | reset (ts bb hif : Bool) (hi : i = .reset ts true bb hif) (h : t.fe = FeState.reset)
  /-- R244 -/
  | sample (re im : Word) (hi : i = .fsSample re im) (he : s.fs.eos = false)
      (h : t = withFsRun (fsSampleRun ⟨s.ctx, s.csr⟩ (f32Sample re im) (fsRun s)) s)

theorem exec_fe_cases {i : Instr} {s t : State} (h : exec i s = .next t) : FeCase i s t := by
  have hf := instructionFrames i s t h
  cases i with
  | reset ts fs bb hif =>
    cases h
    rw [resetUnits_eq]
    cases fs
    · exact .same rfl
    · exact .reset ts bb hif rfl rfl
  | fsSample re im =>
    cases h
    split
    · exact .same rfl
    next he => exact .sample re im rfl (Bool.eq_false_of_not_eq_true he) rfl
  | tsSample _ _ => exact .same ((congrArg State.fe hf.1).trans rfl)
  | outEos port => cases port <;> exact .same ((congrArg State.fe hf).trans rfl)
  | _ => exact .same ((congrArg State.fe hf).trans rfl)

theorem exec_fsSample_open {s : State} (h : s.fs.eos = false) (re im : Word) : exec (.fsSample re im) s =
    .next (withFsRun (fsSampleRun ⟨s.ctx, s.csr⟩ (f32Sample re im) (fsRun s)) s) := by
  simp only [exec, execFsSample, h, Bool.false_eq_true, if_false]

/-! ### The invariant -/

theorem feReset_inv (n : Numerics) : FeInv n FeState.reset := by
  constructor <;> simp [FeState.reset]

/-- A legal `FS_FREQ_PERIOD` is at most 65535 headers (R62). -/
theorem CsrInv.freqPeriod_le {s : State} (h : CsrInv s) : s.csr.fsFreqPeriod.toNat ≤ 65535 := by
  have hl : u32Legal s.csr.fsFreqPeriod 1 65535 = true := by
    simpa [Csr.legal?, readCsr] using h.legal .fsFreqPeriod
  exact ((u32Legal_iff _ _ _).mp hl).2

/-- Every instruction keeps FE's invariant. -/
theorem FeInv.exec {i : Instr} {s t : State} (hc : CsrInv s) (hfs : FsInv s.fs) (h : FeInv s.params.numerics s.fe)
    (he : exec i s = .next t) : FeInv t.params.numerics t.fe := by
  rw [exec_params he]
  cases exec_fe_cases he with
  | same ht => rwa [ht]
  | reset ts bb hif hi ht =>
    rw [ht]
    exact feReset_inv _
  | sample re im hi heos ht =>
    rw [ht]
    exact fsSampleRun_feInv (c := ⟨s.ctx, s.csr⟩) (r := fsRun s) hfs hc.freqPeriod_le h

/-- Settles O56: the step's instruction, if it runs one, starts from a state with the same registers, FS and FE. -/
theorem feInvariantIsKept : Obligations.FeInvariantIsKept := by
  intro s t hc hfs h hst
  obtain ⟨s', hcore, ht⟩ := step_cases hst
  have hs' : CsrInv s' ∧ FsInv s'.fs ∧ FeInv s'.params.numerics s'.fe := by
    rw [hcore]
    exact ⟨hc.of_csr_eq rfl, hfs, h⟩
  obtain ⟨hc', hfs', h'⟩ := hs'
  obtain rfl | ⟨i, hi⟩ := ht
  · exact h'
  · exact h'.exec hc' hfs' hi

/-! ### The states of FE (R235, R236) -/

/-- How FE's state and mode may change in one step, with `tFine` the threshold latched: the rows of R235. -/
inductive FeMove (tFine : Rat) (f g : FeState) : Prop where
  | stays (h : g.fstate = f.fstate)
  | lost (h : g.fstate = .uncorrected)
  | corrected (hf : f.fstate = .uncorrected) (hg : g.fstate = .coarseCorrected)
  | refined (hf : f.fstate = .coarseCorrected) (ht : 0 < tFine)
  /-- A reset for a new mode and the end of the coarse period, in one header evaluation. -/
  | restarted (hm : g.mode ≠ f.mode) (hg : g.fstate = .coarseCorrected)

/-- An estimate below the threshold makes the threshold positive (R236). -/
theorem belowFine_pos {eps : Num} {tFine : Rat} (h : belowFine eps tFine = true) : 0 < tFine := by
  cases eps with
  | fin q => exact (abs_nonneg q).trans_lt (by simpa [belowFine] using h)
  | nonFinite => cases h

/-- A coarse measurement's moves, which never skip COARSE_CORRECTED. -/
theorem feCoarse_fstate (c : NumCtx) (l : Latch) (p : Pls) (w : List Cx) (r : FeRun) :
    (feCoarse c l p w r).fe.fstate = r.fe.fstate ∨
    (r.fe.fstate = .uncorrected ∧ (feCoarse c l p w r).fe.fstate = .coarseCorrected) ∨
    (r.fe.fstate = .coarseCorrected ∧ 0 < l.tFine) := by
  obtain ⟨-, a, he⟩ | ⟨-, eps, he⟩ := feCoarse_cases c l p w r <;> rw [he]
  · exact .inl rfl
  · rw [applyCoarse_fstate]
    cases hr : r.fe.fstate with
    | uncorrected => exact .inr (.inl ⟨rfl, rfl⟩)
    | fineTracking => exact .inl rfl
    | coarseCorrected =>
      by_cases hb : belowFine eps l.tFine = true
      · exact .inr (.inr ⟨rfl, belowFine_pos hb⟩)
      · exact .inl (by simp [hb])

/-- FE after a header evaluation has the mode latched there (R221). -/
theorem FeStep.mode_eq {c : NumCtx} {l : Latch} {f g : FeRun} (h : FeStep c l f g) : g.fe.mode = l.mode := by
  rcases h with rfl | ⟨p, w, rfl⟩ | rfl <;> simp

/-- The moves of a header evaluation. -/
theorem FeStep.move {c : NumCtx} {l : Latch} {f g : FeRun} (h : FeStep c l f g) : FeMove l.tFine f.fe g.fe := by
  have hg := h.mode_eq
  obtain ⟨-, hc⟩ | ⟨hm, hc⟩ := feModeCheck_cases l.mode f
  · rcases h with h | ⟨p, w, h⟩ | h <;> rw [hc] at h
    · exact .stays (by rw [h])
    · rw [h]
      obtain hs | ⟨hu, hs⟩ | ⟨hr, ht⟩ := feCoarse_fstate c l p w f
      · exact .stays hs
      · exact .corrected hu hs
      · exact .refined hr ht
    · exact .lost (by rw [h]; rfl)
  · have hnew : (feModeCheck l.mode f).fe.fstate = .uncorrected := by
      rw [hc]
      rfl
    rcases h with h | ⟨p, w, h⟩ | h
    · exact .lost (by rw [h, hnew])
    · obtain hs | ⟨-, hs⟩ | ⟨hr, -⟩ := feCoarse_fstate c l p w (feModeCheck l.mode f)
      · exact .lost (by rw [h, hs, hnew])
      · exact .restarted (by rw [hg, hm]; cases l.mode <;> decide) (by rw [h, hs])
      · simp [hnew] at hr
    · exact .lost (by rw [h]; rfl)

/-- The moves of one symbol. -/
theorem fsSampleRun_move {c : FsCfg} {z : Cx} {r : FsRun} (h : FsInv r.fs) :
    FeMove (f32Val c.csr.fsFineThresh) r.fe (fsSampleRun c z r).fe := by
  obtain ⟨h, -⟩ | ⟨f, g, b, -, -, -, -, -, h⟩ | ⟨-, h⟩ := fsSampleRun_fe (c := c) (z := z) h
  · exact .stays (by rw [h])
  · exact .stays ((congrArg (·.fe.fstate) h).trans (feFine_fe c.ctx g b r.feRun).2)
  · exact h.move

/-- Settles O41: the moves of one symbol; no other instruction moves FE but by its reset. -/
theorem feStateTransitions : Obligations.FeStateTransitions := by
  intro i s t hfs h
  cases exec_fe_cases h with
  | same ht =>
    rw [ht]
    exact ⟨fun hu => by simp [hu], fun hn hf => absurd hf hn, fun hf hc => by simp [hf] at hc⟩
  | reset ts bb hif hi ht => simp [ht, FeState.reset]
  | sample re im hi heos ht =>
    have hmove : FeMove (f32Val s.csr.fsFineThresh) s.fe t.fe := by
      rw [ht]
      exact fsSampleRun_move (c := ⟨s.ctx, s.csr⟩) (r := fsRun s) hfs
    cases hmove with
    | stays hs =>
      rw [hs]
      exact ⟨fun hu => by simp [hu], fun hn hf => absurd hf hn, fun hf hc => by simp [hf] at hc⟩
    | lost hs => simp [hs]
    | corrected hf hg => simp [hf, hg]
    | refined hf hp => simp [hf, hp, hi]
    | restarted hm hg => simp [hg, hm]

/-! ### What is commanded (R238) -/

/-- The outbox holds FE's last command, which is that of `f_cum`. -/
def Commanded (c : NumCtx) (g : FeRun) : Prop :=
  g.hif.obValid = true ∧ g.hif.obValue = g.fe.lastCmd ∧ g.fe.lastCmd = commandValue c g.fe.fCum

theorem feCommand_commanded {c : NumCtx} {r : FeRun} (h : (feCommand c r).fe.mode = true) :
    Commanded c (feCommand c r) := by
  rw [feCommand_mode] at h
  obtain ⟨hm, -⟩ | ⟨-, he⟩ := feCommand_cases c r
  · simp [hm] at h
  · rw [he]
    exact ⟨rfl, rfl, rfl⟩

/-- In closed loop a coarse measurement is commanded or leaves `f_cum` and the state as they are. -/
theorem feCoarse_commanded {c : NumCtx} {l : Latch} {p : Pls} {w : List Cx} {r : FeRun}
    (h : (feCoarse c l p w r).fe.mode = true) : Commanded c (feCoarse c l p w r) ∨
      ((feCoarse c l p w r).fe.fCum = r.fe.fCum ∧ (feCoarse c l p w r).fe.fstate = r.fe.fstate) := by
  obtain ⟨-, a, he⟩ | ⟨-, eps, he⟩ := feCoarse_cases c l p w r
  · rw [he]
    exact .inr ⟨rfl, rfl⟩
  · rw [he] at h ⊢
    unfold applyCoarse at h ⊢
    split at h
    · exact .inl (feCommand_commanded h)
    · exact .inl (feCommand_commanded h)
    · exact .inr ⟨rfl, rfl⟩

/-- In closed loop a fine measurement is commanded or leaves `f_cum` as it is. -/
theorem feFine_commanded {c : NumCtx} {g : Nat} {b : List (List Cx)} {r : FeRun}
    (h : (feFine c g b r).fe.mode = true) :
    Commanded c (feFine c g b r) ∨ (feFine c g b r).fe.fCum = r.fe.fCum := by
  obtain ⟨eps, heps⟩ : ∃ eps, feFine c g b r = applyFine c eps r := ⟨_, rfl⟩
  rw [heps] at h ⊢
  obtain ⟨-, he⟩ | ⟨-, he⟩ := applyFine_cases c eps r
  · rw [he]
    exact .inr rfl
  · rw [he] at h ⊢
    exact .inl (feCommand_commanded h)

/-- After a header evaluation in closed loop: commanded, or UNCORRECTED, or `f_cum` as before. -/
theorem FeStep.commanded {c : NumCtx} {l : Latch} {f g : FeRun} (h : FeStep c l f g) (hm : g.fe.mode = true) :
    Commanded c g ∨ g.fe.fstate = .uncorrected ∨ g.fe.fCum = f.fe.fCum := by
  have hcheck : (feModeCheck l.mode f).fe.fstate = .uncorrected ∨ (feModeCheck l.mode f).fe.fCum = f.fe.fCum := by
    obtain ⟨-, hc⟩ | ⟨-, hc⟩ := feModeCheck_cases l.mode f <;> rw [hc]
    · exact .inr rfl
    · exact .inl rfl
  rcases h with rfl | ⟨p, w, rfl⟩ | rfl
  · exact .inr hcheck
  · obtain h | ⟨hf, hs⟩ := feCoarse_commanded hm
    · exact .inl h
    · rw [hf, hs]
      exact .inr hcheck
  · exact .inr (.inl rfl)

/-- A header evaluation that begins and ends in open loop leaves the outbox alone. -/
theorem FeStep.open_hif {c : NumCtx} {l : Latch} {f g : FeRun} (h : FeStep c l f g) (hf : f.fe.mode = false)
    (hg : g.fe.mode = false) : g.hif = f.hif := by
  have hl : l.mode = false := h.mode_eq.symm.trans hg
  have hc : feModeCheck l.mode f = f := if_pos (hf.trans hl.symm)
  rcases h with h | ⟨p, w, h⟩ | h <;> rw [h, hc]
  · exact (feCoarse_hif c l p w f).2 hf
  · exact (feReset_hif f).2 hf

/-- One symbol in closed loop. -/
theorem fsSampleRun_commanded {c : FsCfg} {z : Cx} {r : FsRun} (h : FsInv r.fs)
    (hm : (fsSampleRun c z r).fe.mode = true) : Commanded c.ctx (fsSampleRun c z r).feRun ∨
      (fsSampleRun c z r).fe.fstate = .uncorrected ∨ (fsSampleRun c z r).fe.fCum = r.fe.fCum := by
  obtain ⟨h, -⟩ | ⟨f, g, b, -, -, -, -, -, h⟩ | ⟨-, h⟩ := fsSampleRun_fe (c := c) (z := z) h
  · exact .inr (.inr (by rw [h]))
  · have hfe := congrArg FeRun.fe h
    simp only [FsRun.feRun_fe] at hfe
    rw [hfe] at hm ⊢
    rw [h]
    exact (feFine_commanded hm).imp_right .inr
  · exact h.commanded hm

/-- One symbol in open loop. -/
theorem fsSampleRun_open_hif {c : FsCfg} {z : Cx} {r : FsRun} (h : FsInv r.fs) (hr : r.fe.mode = false)
    (hm : (fsSampleRun c z r).fe.mode = false) : (fsSampleRun c z r).hif = r.hif := by
  obtain ⟨-, h⟩ | ⟨f, g, b, -, -, -, -, -, h⟩ | ⟨-, h⟩ := fsSampleRun_fe (c := c) (z := z) h
  · exact h
  · exact (congrArg FeRun.hif h).trans ((feFine_hif c.ctx g b r.feRun).2 hr)
  · exact h.open_hif hr hm

/-- Settles O42: one symbol in closed loop and in open loop, and after the end of the stream nothing. -/
theorem closedLoopUpdatesAreCommanded : Obligations.ClosedLoopUpdatesAreCommanded := by
  intro s t re im hfs _ h
  cases heos : s.fs.eos with
  | true =>
    simp only [exec, execFsSample, heos, if_true] at h
    cases h
    exact ⟨fun _ _ hne => absurd rfl hne, fun _ _ => rfl⟩
  | false =>
    rw [exec_fsSample_open heos] at h
    cases h
    refine ⟨fun hm hu hne => ?_, fun hs hm => fsSampleRun_open_hif (r := fsRun s) hfs hs hm⟩
    obtain hc | hunc | hsame := fsSampleRun_commanded (r := fsRun s) hfs hm
    · exact hc
    · exact absurd hunc hu
    · exact absurd hsame hne

/-! ### Wrapping and the regression (R225, R227 to R229) -/

/-- A frequency is wrapped by a whole number of cycles. -/
theorem wrapf_congruent (q : Rat) : ∃ n : Int, wrapf q = q + n :=
  ⟨-(q - 1 / 2).ceil, by rw [wrapf, Int.cast_neg, sub_eq_add_neg]⟩

theorem sumRat_range (g : Nat → Rat) (n : Nat) : sumRat ((List.range n).map g) = ∑ b ∈ Finset.range n, g b := by
  rw [sumRat, ← List.sum_eq_foldl]
  induction n with
  | zero => rfl
  | succ n ih => simp [List.range_succ, Finset.sum_range_succ, ih]

/-- A list is the list of its entries. -/
theorem mapIdx_eq_range_map {α β : Type} (l : List α) (d : α) (g : Nat → α → β) :
    l.mapIdx g = (List.range l.length).map fun k => g k (l.getD k d) := by
  refine List.ext_getElem (by simp) fun k h1 h2 => ?_
  have hk : k < l.length := by simpa using h1
  simp [hk]

/-- The unwrapped phases of the phases `φ` (R228). -/
def unwrapped (φ : Nat → Rat) : Nat → Rat
  | 0 => φ 0
  | b + 1 => unwrapped φ b + wrapf (φ (b + 1) - φ b)

theorem unwrapFrom_range' (φ : Nat → Rat) (n k : Nat) :
    unwrapFrom (φ k) (unwrapped φ k) ((List.range' (k + 1) n).map φ) = (List.range' (k + 1) n).map (unwrapped φ) := by
  induction n generalizing k with
  | zero => rfl
  | succ n ih => simpa [List.range'_succ, unwrapFrom, unwrapped] using ih (k + 1)

theorem unwrap_range (φ : Nat → Rat) (n : Nat) : unwrap ((List.range n).map φ) = (List.range n).map (unwrapped φ) := by
  cases n with
  | zero => rfl
  | succ n =>
    simp only [List.range_eq_range', List.range'_succ, List.map_cons, unwrap]
    exact congrArg _ (unwrapFrom_range' φ n 0)

/-- The mean of the first `n` values. -/
def meanOf (n : Nat) (g : Nat → Rat) : Rat := (∑ b ∈ Finset.range n, g b) / (n : Rat)

theorem regression_range (τ ψ : Nat → Rat) (n : Nat) : regression ((List.range n).map τ) ((List.range n).map ψ) =
    (∑ b ∈ Finset.range n, (τ b - meanOf n τ) * (ψ b - meanOf n ψ)) /
      ∑ b ∈ Finset.range n, (τ b - meanOf n τ) * (τ b - meanOf n τ) := by
  simp only [regression, List.length_map, List.length_range, List.zipWith_map, List.zipWith_self, List.map_map,
    sumRat_range, meanOf, Function.comp_def]

/-- The fine estimate is the regression of the unwrapped pilot phases (R227 to R229). -/
theorem fineFormula_eq (f : Rat) (gold : Nat) (blocks : List (List CQ)) : fineFormula f gold blocks =
    regression ((List.range blocks.length).map fun b => (pilotOffset (b + 1) : Rat) + 35 / 2)
      ((List.range blocks.length).map
        (unwrapped fun b => pilotPhase f gold (pilotOffset (b + 1)) (blocks.getD b []))) := by
  simp only [fineFormula, mapIdx_eq_range_map blocks [], unwrap_range]

/-! ### The product sum of a header (R223) -/

/-- `u_k` of R223 for a window of received symbols. -/
def windowU (f : Rat) (p : Pls) (w : List Cx) (k : Nat) : CQ :=
  ((w.getD k .nonFinite).val.mul (headerSymbol p k).conj).mul (cisTurns (-(f * (k : Rat))))

/-- Neighbours in a list of `n + 1` values. -/
theorem zipWith_tail_range {α β : Type} (g : α → α → β) (u : Nat → α) (n : Nat) :
    List.zipWith g ((List.range (n + 1)).map u) ((List.range (n + 1)).map u).tail =
      (List.range n).map fun k => g (u k) (u (k + 1)) :=
  List.ext_getElem (by simp) fun k _ _ => by simp

/-- `R_h` of R223 for a window of received symbols. -/
def headerSum (f : Rat) (p : Pls) (w : List Cx) : CQ :=
  (CQ.sum ((List.range 89).map fun k => (windowU f p w (k + 1)).mul (windowU f p w k).conj)).scale (1 / 2)

theorem coarseProduct_eq (f : Rat) (p : Pls) {w : List Cx} (hw : w.length = 90) :
    coarseProduct f p (w.map Cx.val) = headerSum f p w := by
  have hu : ((w.map Cx.val).mapIdx fun k r => coarseU f p k r) = (List.range (89 + 1)).map (windowU f p w) := by
    rw [mapIdx_eq_range_map _ (Cx.val .nonFinite), List.length_map, hw]
    simp only [List.getD_map]
    rfl
  simp only [coarseProduct, hu, zipWith_tail_range, headerSum]

/-! ### FE's operations under the reference arithmetic (00_scope.md rule R18) -/

/-- FE's record after `fe_reset()` with the last command 0 (R241). -/
def clearedFe (mode : Bool) : FeState where
  fstate  := .uncorrected
  fCum    := 0
  acc     := .fin ⟨0, 0⟩
  cnt     := 0
  lastCmd := 0
  mode    := mode

/-- HIF's record after `fe_reset()`: a zero command if the last one was not zero (R241). -/
def zeroCommand (r : FeRun) : HifState := if r.fe.lastCmd = 0 then r.hif else outboxWrite 0 r.hif

/-- `fe_reset()` from a state of FE's invariant: in open loop the last command is 0. -/
theorem feReset_eq {n : Numerics} {r : FeRun} (h : FeInv n r.fe) :
    feReset r = ⟨clearedFe r.fe.mode, zeroCommand r⟩ := by
  by_cases hl : r.fe.lastCmd = 0
  · simp [feReset, clearedFe, zeroCommand, hl, CQ.zero]
  · have hm : r.fe.mode = true := Bool.eq_true_of_not_eq_false fun hf => hl (h.opened hf)
    simp [feReset, clearedFe, zeroCommand, hl, hm, CQ.zero]

/-- The mode check of R221. -/
theorem feModeCheck_eq {n : Numerics} {r : FeRun} (h : FeInv n r.fe) (m : Bool) :
    feModeCheck m r = if r.fe.mode = m then r else ⟨clearedFe m, zeroCommand r⟩ := by
  rw [feModeCheck, feReset_eq h]
  rfl

/-- A reset after the mode check leaves FE cleared in the new mode, with one zero command at most. -/
theorem feReset_feModeCheck {n : Numerics} {r : FeRun} (h : FeInv n r.fe) (m : Bool) :
    feReset (feModeCheck m r) = ⟨clearedFe m, zeroCommand r⟩ := by
  rw [feReset_eq h.feModeCheck, feModeCheck_mode, feModeCheck_eq h]
  split
  · rfl
  · simp [zeroCommand, clearedFe]

/-- FE's record and HIF's in a run. -/
def FeRun.records (r : FeRun) : FeState × HifState := (r.fe, r.hif)

/-- The records after the mode check of R221 (R241). -/
theorem feModeCheck_records {n : Numerics} {r : FeRun} (h : FeInv n r.fe) (m : Bool) :
    (feModeCheck m r).records =
      (if r.fe.mode = m then r.fe else clearedFe m, if r.fe.mode = m then r.hif else zeroCommand r) := by
  rw [feModeCheck_eq h]
  split <;> rfl

theorem feModeCheck_acc {n : Numerics} {r : FeRun} (h : FeInv n r.fe) (m : Bool) (ha : r.fe.acc ≠ .nonFinite) :
    (feModeCheck m r).fe.acc ≠ .nonFinite := by
  rw [feModeCheck_eq h]
  split
  · exact ha
  · simp [clearedFe]

/-- The sum of the measurements with that of a header of finite symbols (R222, R223). -/
theorem accumulate_coarseMeasure {c : NumCtx} {p : Pls} {w : List Cx} {acc : Cx} (hc : c.numerics = .reference)
    (hlen : w.length = 90) (hw : ∀ z ∈ w, z ≠ .nonFinite) (hacc : acc ≠ .nonFinite) (f : Rat) :
    accumulate c acc (coarseMeasure c f p w) = .fin (acc.val.add (headerSum f p w)) := by
  rw [coarseMeasure_reference hc _ _ hw, coarseProduct_eq _ _ hlen]
  cases acc with
  | fin a => exact accumulate_reference hc _ _
  | nonFinite => exact absurd rfl hacc

/-- FE's record and HIF's after `command()` from the records `g` and `o` (R238). -/
def afterCommand (g : FeState) (o : HifState) : FeState × HifState :=
  if g.mode then ({ g with lastCmd := -2 * piRef * g.fCum }, outboxWrite (-2 * piRef * g.fCum) o) else (g, o)

theorem feCommand_records {c : NumCtx} (hc : c.numerics = .reference) (r : FeRun) :
    (feCommand c r).records = afterCommand r.fe r.hif := by
  simp only [feCommand, commandValue_reference hc, afterCommand]
  split <;> rfl

/-- FE's record and HIF's after the end of a coarse period with the estimate `ε` (R225, R235). -/
def afterPeriod (tFine ε : Rat) (g : FeState) (o : HifState) : FeState × HifState :=
  match g.fstate with
  | .uncorrected => afterCommand { g with fCum := wrapf (g.fCum + ε), fstate := .coarseCorrected } o
  | .coarseCorrected => afterCommand { g with
      fCum := wrapf (g.fCum + ε)
      fstate := if |ε| < tFine then .fineTracking else .coarseCorrected } o
  | .fineTracking => (g, o)

theorem applyCoarse_records {c : NumCtx} (hc : c.numerics = .reference) (tFine ε : Rat) (r : FeRun) :
    (applyCoarse c tFine (.fin ε) r).records = afterPeriod tFine ε r.fe r.hif := by
  unfold applyCoarse afterPeriod
  cases r.fe.fstate with
  | uncorrected => simp only [feCommand_records hc, addEstimate_reference hc]
  | coarseCorrected => simp only [feCommand_records hc, addEstimate_reference hc, belowFine, decide_eq_true_eq]
  | fineTracking => rfl

/-- FE's record and HIF's after a hit header's measurement on symbols derotated by `f`, from the records `g` and `o`
after the mode check (R223, R224). -/
def afterHeader (f : Rat) (l : Latch) (p : Pls) (w : List Cx) (g : FeState) (o : HifState) : FeState × HifState :=
  let acc := g.acc.val.add (headerSum f p w)
  if g.cnt + 1 < l.period then ({ g with acc := .fin acc, cnt := g.cnt + 1 }, o)
  else afterPeriod l.tFine (wrapf (argTurns acc)) { g with acc := .fin ⟨0, 0⟩, cnt := 0 } o

theorem feCoarse_records {c : NumCtx} {l : Latch} {p : Pls} {w : List Cx} {r : FeRun}
    (hc : c.numerics = .reference) (hlen : w.length = 90) (hw : ∀ z ∈ w, z ≠ .nonFinite)
    (hacc : r.fe.acc ≠ .nonFinite) :
    (feCoarse c l p w r).records = afterHeader (internalFreq r.fe) l p w r.fe r.hif := by
  simp only [feCoarse, accumulate_coarseMeasure hc hlen hw hacc, coarseEps_reference hc, ← Nat.not_lt, ite_not,
    afterHeader]
  split
  · rfl
  · exact applyCoarse_records hc _ _ _

/-- A fine measurement on finite symbols (R222, R227 to R229, R233, R234). -/
theorem feFine_records {c : NumCtx} {gold : Nat} {blocks : List (List Cx)} {r : FeRun}
    (hc : c.numerics = .reference) (hb : ∀ w ∈ blocks, ∀ z ∈ w, z ≠ .nonFinite) :
    (feFine c gold blocks r).records =
      if r.fe.fstate = .fineTracking then
        afterCommand { r.fe with
          fCum := wrapf (r.fe.fCum + fineFormula (internalFreq r.fe) gold (blocks.map (List.map Cx.val))) } r.hif
      else (r.fe, r.hif) := by
  have hops : (blocks.flatMap windowOperands).all Num.isFin = true := by
    rw [List.all_flatMap, List.all_eq_true]
    exact fun w hw => windowOperands_fin (hb w hw)
  have he : feFine c gold blocks r =
      applyFine c (.fin (fineFormula (internalFreq r.fe) gold (blocks.map (List.map Cx.val)))) r := by
    simp [feFine, numNum, NumCtx.exact, hc, hops, Num.isFin]
  rw [he]
  obtain ⟨hs, he⟩ | ⟨hs, he⟩ := applyFine_cases c
    (.fin (fineFormula (internalFreq r.fe) gold (blocks.map (List.map Cx.val)))) r
  · rw [he, if_neg hs]
    rfl
  · rw [he, if_pos hs, feCommand_records hc, addEstimate_reference hc]
    simp only [← hs]

theorem pilotSymbols_fin {fs : FsState} {f : Frame} (h : ∀ z ∈ fs.r, z ≠ .nonFinite) :
    ∀ w ∈ pilotSymbols fs f, ∀ z ∈ w, z ≠ .nonFinite := by
  intro w hw z hz
  obtain ⟨b, -, rfl⟩ := List.mem_map.mp hw
  exact h z (FsState.window_mem hz)

/-! ### Which part of a step calls FE (R280, R293, R298, R299) -/

/-- Where the search goes on or a header is due, there is no frame (R298). -/
theorem FsInv.frm_none {fs : FsState} (h : FsInv fs) (hn : ∀ k, fs.nextHdr = some k → fs.nIn = k + 89) :
    fs.frm = none := by
  refine Option.eq_none_iff_forall_ne_some.mpr fun f hf => ?_
  obtain ⟨hF, hnext⟩ := h.frame f hf
  have := hn _ hnext
  have := hF.unended
  omega

/-- Without a frame a step is its header part. -/
theorem fsSampleRun_noFrame (c : FsCfg) (z : Cx) {r : FsRun} (hf : r.fs.frm = none) :
    fsSampleRun c z r = headerStep c r.fs.nIn { r with fs := r.fs.push z } := by
  simp only [fsSampleRun, payloadStep, FsState.push_frm, hf]

/-- With a frame a step is its payload part: no header is due before the frame's end. -/
theorem fsSampleRun_inFrame (c : FsCfg) (z : Cx) {r : FsRun} (h : FsInv r.fs) {f : Frame} (hf : r.fs.frm = some f) :
    fsSampleRun c z r = payloadStep c r.fs.nIn z { r with fs := r.fs.push z } := by
  obtain ⟨hF, hnext⟩ := h.frame f hf
  have hlt := hF.unended
  have hn : (payloadStep c r.fs.nIn z { r with fs := r.fs.push z }).fs.nextHdr = some (f.h + f.geom.len) := by
    obtain h | ⟨_, -, -, -, h⟩ := payloadStep_fs c r.fs.nIn z { r with fs := r.fs.push z } <;> rw [h] <;> exact hnext
  simp only [fsSampleRun, headerStep, hn]
  exact if_neg (by omega)

/-- The cause of a lost frame at the expected header `k` (R274, R283, R285). -/
def FrameLost (c : FsCfg) (fs : FsState) (k : Nat) : Prop :=
  invalidPls (expectedPls c (latchOf c.csr) fs k) = true ∨
    (isHit c.ctx (latchOf c.csr).thresh fs k = false ∧
      (fs.lock = .locked → c.csr.fsUnlockCount.toNat ≤ fs.misses + 1))

theorem not_frameLost {c : FsCfg} {fs : FsState} {k : Nat}
    (hv : invalidPls (expectedPls c (latchOf c.csr) fs k) = false) (hl : fs.lock = .locked)
    (hm : fs.misses + 1 < c.csr.fsUnlockCount.toNat) : ¬ FrameLost c fs k := by
  rintro (hi | ⟨-, hle⟩)
  · simp [hv] at hi
  · exact absurd (hle hl) (Nat.not_le.mpr hm)

/-- FE's part of the evaluation of the expected header `k` (R281, R299). -/
structure EvaluatedFe (c : FsCfg) (r q : FsRun) (k : Nat) : Prop where
  lost   : FrameLost c r.fs k → q.feRun = feReset (feModeCheck (latchOf c.csr).mode r.feRun)
  hit    : invalidPls (expectedPls c (latchOf c.csr) r.fs k) = false →
    isHit c.ctx (latchOf c.csr).thresh r.fs k = true →
    q.feRun = feCoarse c.ctx (latchOf c.csr) (expectedPls c (latchOf c.csr) r.fs k) (r.fs.window k 90)
      (feModeCheck (latchOf c.csr).mode r.feRun)
  missed : ¬ FrameLost c r.fs k → isHit c.ctx (latchOf c.csr).thresh r.fs k = false →
    q.feRun = feModeCheck (latchOf c.csr).mode r.feRun

/-- A hit with a valid PLS measures. -/
theorem EvaluatedFe.of_hit {c : FsCfg} {r q : FsRun} {k : Nat} {p : Pls} (hv : invalidPls p = false)
    (hp : p = expectedPls c (latchOf c.csr) r.fs k) (hh : isHit c.ctx (latchOf c.csr).thresh r.fs k = true)
    (hfe : q.feRun = feCoarse c.ctx (latchOf c.csr) p (r.fs.window k 90) (feModeCheck (latchOf c.csr).mode r.feRun)) :
    EvaluatedFe c r q k := by
  subst hp
  exact ⟨fun hl => by simp [FrameLost, hv, hh] at hl, fun _ _ => hfe, fun _ hm => by simp [hh] at hm⟩

theorem HeaderCase.evaluatedFe {c : FsCfg} {r q : FsRun} {k : Nat} (h : HeaderCase c r q)
    (hk : r.fs.nextHdr = some k) : EvaluatedFe c r q k := by
  cases h with
  | invalid s hn | acquire s p hn =>
    rw [hk] at hn
    cases hn
  | lose k' hn hw hfe =>
    cases hk.symm.trans hn
    exact ⟨fun _ => hfe, fun hv hh => by simp [hv, hh] at hw, fun hl => absurd hw hl⟩
  | confirm k' p hn hv hp hh hu hl hfs hout hfe =>
    cases hk.symm.trans hn
    exact .of_hit hv hp hh hfe
  | lockOn k' p e hn hv hp hh hu hl he hfs hout hfe =>
    cases hk.symm.trans hn
    exact .of_hit hv hp hh hfe
  | hit k' p e hn hv hp hh hu he hfs hout hfe =>
    cases hk.symm.trans hn
    exact .of_hit hv hp hh hfe
  | miss k' p hn hv hp hh hu hm hfs hout hfe =>
    cases hk.symm.trans hn
    subst hp
    exact ⟨fun hl => absurd hl (not_frameLost hv hu hm), fun _ ht => by simp [hh] at ht, fun _ _ => hfe⟩

/-- FE's part of a search that finds a candidate, which stands at the only window there is (R279, R299). -/
theorem HeaderCase.foundFe {c : FsCfg} {r q : FsRun} (h : HeaderCase c r q) (hn : r.fs.nextHdr = none) :
    ∃ k p, k + 90 = r.fs.nIn ∧ r.fs.searchFrom ≤ k ∧ isCandidate c.ctx (latchOf c.csr).thresh r.fs k = true ∧
      p = decodePls c.ctx (r.fs.window k 90) ∧
      q.feRun = if invalidPls p then feModeCheck (latchOf c.csr).mode r.feRun
        else feCoarse c.ctx (latchOf c.csr) p (r.fs.window k 90) (feModeCheck (latchOf c.csr).mode r.feRun) := by
  cases h with
  | invalid s _ hs hf hc hv hfs hout hfe => exact ⟨s, _, hs, hf, hc, rfl, hfe.trans (if_pos hv).symm⟩
  | acquire s p _ hs hf hc hp hv hfs hout hfe => exact ⟨s, p, hs, hf, hc, hp, by simp [hfe, hv]⟩
  | lose k hk | confirm k p hk | lockOn k p e hk | hit k p e hk | miss k p hk =>
    rw [hn] at hk
    cases hk

/-- The header at `k` is expected and its last symbol is the next (R280). -/
def HeaderDue (fs : FsState) (k : Nat) : Prop := fs.nextHdr = some k ∧ fs.nIn = k + 89

/-- With the symbol `z`, the search finds a candidate at the window `k` (R279). -/
def CandidateFound (c : FsCfg) (z : Cx) (fs : FsState) (k : Nat) : Prop :=
  fs.nextHdr = none ∧ fs.nIn = k + 89 ∧ fs.searchFrom ≤ k ∧
    isCandidate c.ctx (latchOf c.csr).thresh (fs.push z) k = true

/-- The last pilot symbol of the frame `f`, which a hit started, is the next (R227, R293). -/
def FineDue (fs : FsState) (f : Frame) : Prop :=
  fs.frm = some f ∧ f.hit = true ∧ 1 ≤ f.geom.pilotBlocks ∧ fs.nIn = f.h + pilotOffset f.geom.pilotBlocks + 35

section
variable {c : FsCfg} {z : Cx} {r : FsRun}

/-- A step at which a header is due evaluates it (R280, R281). -/
theorem fsSampleRun_due (h : FsInv r.fs) {k : Nat} (hd : HeaderDue r.fs k) :
    EvaluatedFe c { r with fs := r.fs.push z } (fsSampleRun c z r) k := by
  obtain ⟨hn, hi⟩ := hd
  rw [fsSampleRun_noFrame c z (h.frm_none (by rw [hn]; rintro _ ⟨⟩; exact hi))]
  obtain ⟨-, hnot, -⟩ | ⟨-, hcase, -⟩ := headerStep_cases c r.fs.nIn { r with fs := r.fs.push z } rfl
  · exact absurd hi (hnot k hn)
  · exact hcase.evaluatedFe hn

/-- A step at whose window the search finds a candidate (R279). -/
theorem fsSampleRun_found (h : FsInv r.fs) {k : Nat} (hf : CandidateFound c z r.fs k) :
    (fsSampleRun c z r).feRun =
      if invalidPls (decodePls c.ctx ((r.fs.push z).window k 90)) then feModeCheck (latchOf c.csr).mode r.feRun
      else feCoarse c.ctx (latchOf c.csr) (decodePls c.ctx ((r.fs.push z).window k 90)) ((r.fs.push z).window k 90)
        (feModeCheck (latchOf c.csr).mode r.feRun) := by
  obtain ⟨hn, hi, hs, hc⟩ := hf
  rw [fsSampleRun_noFrame c z (h.frm_none (by simp [hn]))]
  have hk : r.fs.nIn - 89 = k := by omega
  obtain ⟨-, -, hnot⟩ | ⟨-, hcase, -⟩ := headerStep_cases c r.fs.nIn { r with fs := r.fs.push z } rfl
  · have := hnot hn (by omega) (by simpa [hk] using hs)
    simp [hk, hc] at this
  · obtain ⟨k', p, hk', -, -, rfl, hfe⟩ := hcase.foundFe hn
    obtain rfl : k' = k := by
      simp only [FsState.push_nIn] at hk'
      omega
    exact hfe

/-- A step at the last pilot symbol of a frame started by a hit (R227, R293). -/
theorem fsSampleRun_fine (h : FsInv r.fs) {f : Frame} (hd : FineDue r.fs f) :
    (fsSampleRun c z r).feRun = feFine c.ctx f.gold (pilotSymbols (r.fs.push z) f) r.feRun := by
  obtain ⟨hf, hh, hp, hi⟩ := hd
  obtain ⟨hF, -⟩ := h.frame f hf
  have hl : r.fs.lock = .locked := by
    cases hl : r.fs.lock with
    | locked => rfl
    | unlocked => simp [(h.unlocked hl).1] at hf
  rw [fsSampleRun_inFrame c z h hf]
  exact payloadStep_fine c r.fs.nIn z { r with fs := r.fs.push z } hf hF.started hF.unended hp hi hl hh

/-- At every other step FE and the outbox stay as they are (R244). -/
theorem fsSampleRun_feIdle (h : FsInv r.fs) (hdue : ∀ k, ¬ HeaderDue r.fs k)
    (hfound : ∀ k, ¬ CandidateFound c z r.fs k) (hfine : ∀ f, ¬ FineDue r.fs f) :
    (fsSampleRun c z r).feRun = r.feRun := by
  cases hf : r.fs.frm with
  | some f =>
    rw [fsSampleRun_inFrame c z h hf]
    obtain ⟨hfe, hhif⟩ | ⟨f', hf', -, -, -, hh, hp, hi, -⟩ :=
      (payloadStep_out c r.fs.nIn z { r with fs := r.fs.push z }).2
    · simp only [FsRun.feRun, hfe, hhif]
    · exact absurd ⟨hf', hh, hp, hi⟩ (hfine f')
  | none =>
    rw [fsSampleRun_noFrame c z hf]
    obtain ⟨he, -⟩ | ⟨hd, hcase, -⟩ := headerStep_cases c r.fs.nIn { r with fs := r.fs.push z } rfl
    · rw [he]
      rfl
    · cases hn : r.fs.nextHdr with
      | some k => exact absurd ⟨hn, hd k hn⟩ (hdue k)
      | none =>
        obtain ⟨k, p, hk, hs, hc, -⟩ := hcase.foundFe hn
        exact absurd ⟨hn, Nat.succ_injective hk.symm, hs, hc⟩ (hfound k)

/-- A hit header with a valid PLS, in search or where one was expected, measures after the mode check (R299). -/
theorem fsSampleRun_measures (h : FsInv r.fs) {k : Nat} {p : Pls} (hv : invalidPls p = false)
    (hw : (CandidateFound c z r.fs k ∧ p = decodePls c.ctx ((r.fs.push z).window k 90)) ∨
      (HeaderDue r.fs k ∧ isHit c.ctx (latchOf c.csr).thresh (r.fs.push z) k = true ∧
        p = expectedPls c (latchOf c.csr) (r.fs.push z) k)) :
    r.fs.nIn = k + 89 ∧ (fsSampleRun c z r).feRun = feCoarse c.ctx (latchOf c.csr) p ((r.fs.push z).window k 90)
      (feModeCheck (latchOf c.csr).mode r.feRun) := by
  obtain ⟨hf, rfl⟩ | ⟨hd, hh, rfl⟩ := hw
  · exact ⟨hf.2.1, (fsSampleRun_found h hf).trans (if_neg (by simp [hv]))⟩
  · exact ⟨hd.2, (fsSampleRun_due h hd).hit hv hh⟩

/-- A candidate with an invalid PLS, and a miss the lock outlasts, only check the mode (R279, R286). -/
theorem fsSampleRun_checks (h : FsInv r.fs) {k : Nat}
    (hw : (CandidateFound c z r.fs k ∧ invalidPls (decodePls c.ctx ((r.fs.push z).window k 90)) = true) ∨
      (HeaderDue r.fs k ∧ ¬ FrameLost c (r.fs.push z) k ∧
        isHit c.ctx (latchOf c.csr).thresh (r.fs.push z) k = false)) :
    (fsSampleRun c z r).feRun = feModeCheck (latchOf c.csr).mode r.feRun := by
  obtain ⟨hf, hv⟩ | ⟨hd, hl, hh⟩ := hw
  · exact (fsSampleRun_found h hf).trans (if_pos hv)
  · exact (fsSampleRun_due h hd).missed hl hh

end

/-! ### FE's part of FS.SAMPLE under the reference arithmetic -/

/-- Settles O60: the regression of the unwrapped phases, and for each event of a step the FE call it makes, with its
formula on finite symbols. -/
theorem feMeasuresAndCorrects : Obligations.FeMeasuresAndCorrects := by
  refine ⟨fun q => ⟨(wrapf_bounds q).1, (wrapf_bounds q).2, wrapf_congruent q⟩, fun f gold blocks => ?_,
    fun s re im hfs hfe heos href hfin hacc => ?_⟩
  · exact ⟨unwrapped fun b => pilotPhase f gold (pilotOffset (b + 1)) (blocks.getD b []), rfl, fun _ => rfl,
      (fineFormula_eq f gold blocks).trans (regression_range _ _ _)⟩
  refine ⟨_, exec_fsSample_open heos re im, ?_⟩
  intro fs mode hit pls cleared zeroed fe hif command due found fine
  have hcheck : (feModeCheck mode (fsRun s).feRun).records = (fe, hif) := feModeCheck_records hfe mode
  refine ⟨fun h p hv hw => ?_, fun h hd hl => ?_, fun h hw => ?_, fun f hf => ?_, fun hnone hfine => ?_⟩
  · obtain ⟨hi, hrun⟩ := fsSampleRun_measures (c := ⟨s.ctx, s.csr⟩) (r := fsRun s) hfs hv hw
    have hlen : (fs.window h 90).length = 90 :=
      FsState.window_length (congrArg Nat.succ hfs.count) (Nat.succ_le_succ hi.ge)
    have hmeas := feCoarse_records (c := s.ctx) (l := latchOf s.csr) (p := p) href hlen
      (fun z hz => hfin z (FsState.window_mem hz)) (feModeCheck_acc (r := (fsRun s).feRun) hfe mode hacc)
    obtain ⟨hfe', hhif'⟩ := Prod.mk.inj hcheck
    have hfreq : internalFreq fe = if mode then 0 else fe.fCum := by
      rw [internalFreq, ← hfe', feModeCheck_mode]
    rw [hfe', hhif', hfreq] at hmeas
    exact (congrArg FeRun.records hrun).trans hmeas
  · have hrun := (fsSampleRun_due (c := ⟨s.ctx, s.csr⟩) (z := f32Sample re im) (r := fsRun s) hfs hd).lost hl
    rw [feReset_feModeCheck hfe] at hrun
    exact congrArg FeRun.records hrun
  · have hrun := fsSampleRun_checks (c := ⟨s.ctx, s.csr⟩) (z := f32Sample re im) (r := fsRun s) hfs (k := h)
      (hw.imp_right fun ⟨hd, hv, hh, hl, hm⟩ => ⟨hd, not_frameLost hv hl hm, hh⟩)
    exact (congrArg FeRun.records hrun).trans hcheck
  · have hrun := fsSampleRun_fine (c := ⟨s.ctx, s.csr⟩) (z := f32Sample re im) (r := fsRun s) hfs hf
    exact (congrArg FeRun.records hrun).trans (feFine_records href (pilotSymbols_fin hfin))
  · exact congrArg FeRun.records (fsSampleRun_feIdle (c := ⟨s.ctx, s.csr⟩) (r := fsRun s) hfs
      (fun k => (hnone k).1) (fun k => (hnone k).2) hfine)

end Sys2Proof.Machine
end

section
/-!
PROOFS. The statements of 43_frame_sync.md about a header and a frame: the geometry, the payload offsets and pilot
blocks, the scrambling sequences, and the reception of a noise-free header.
-/

namespace Sys2Proof.Machine

/-! ### Geometry (R274, R275) -/

theorem toNat_modcodOf (p : Pls) : (modcodOf p).toNat = p.toNat / 4 := by
  have := p.isLt
  rw [modcodOf, BitVec.extractLsb'_toNat, Nat.shiftRight_eq_div_pow]
  omega

theorem invalidPls_iff (p : Pls) : invalidPls p = true ↔ 29 ≤ (modcodOf p).toNat := decide_eq_true_iff

theorem invalidPls_eq_false_iff (p : Pls) : invalidPls p = false ↔ (modcodOf p).toNat ≤ 28 := by
  rw [← Bool.not_eq_true, invalidPls_iff]
  omega

theorem normalSlots_bitsPerSymbol (m : Nat) : normalSlots (bitsPerSymbol m) =
    if m ≤ 11 then 360 else if m ≤ 17 then 240 else if m ≤ 23 then 180 else 144 := by
  unfold bitsPerSymbol
  split_ifs <;> rfl

/-- The slots in the words of R275: the table by MODCOD, divided by 4 for a short frame. -/
theorem slotsOf_eq (p : Pls) : slotsOf p = if p.toNat / 4 = 0 then 36 else
    (if p.toNat / 4 ≤ 11 then 360 else if p.toNat / 4 ≤ 17 then 240 else if p.toNat / 4 ≤ 23 then 180 else 144) /
      (if p.getLsbD 1 then 4 else 1) := by
  simp only [slotsOf, toNat_modcodOf, normalSlots_bitsPerSymbol, shortOf]
  split_ifs <;> rfl

theorem pilotBlocksOf_eq (p : Pls) : pilotBlocksOf p =
    if p.toNat / 4 = 0 ∨ p.getLsbD 0 = false then 0 else (slotsOf p - 1) / 16 := by
  simp [pilotBlocksOf, toNat_modcodOf, pilotsOf]

/-- Settles O34: the table by MODCOD and the formulas of the geometry's fields. -/
theorem frameGeometry : Obligations.FrameGeometry := by
  refine ⟨by decide, fun p _ => ?_⟩
  rw [plInfo, pilotBlocksOf_eq, slotsOf_eq]

/-! ### Payload offsets and pilot blocks (R291, R292) -/

/-- The 16 slots of a group are 1440 payload symbols. -/
theorem payloadOffset_eq (g : Geometry) (m : Nat) :
    payloadOffset g m = 90 + m + 36 * (m / 90 / 16) * (if 0 < g.pilotBlocks then 1 else 0) := by
  unfold payloadOffset
  split_ifs <;> omega

/-- The payload index inverts the payload offset. -/
theorem payloadIndex_eq_some_iff (g : Geometry) (k m : Nat) :
    payloadIndex g k = some m ↔ m < g.xfec ∧ k = payloadOffset g m := by
  unfold payloadIndex payloadOffset
  by_cases hk : k < 90
  · simp only [if_pos hk, reduceCtorEq, false_iff]
    omega
  · by_cases hp : 0 < g.pilotBlocks
    · simp only [if_neg hk, if_pos hp, Option.ite_none_right_eq_some, Option.some.injEq]
      constructor
      · rintro ⟨⟨h1, h2⟩, rfl⟩
        exact ⟨h2, h1.symm⟩
      · rintro ⟨h2, rfl⟩
        have hm : 1440 * ((90 + m + 36 * (m / 90 / 16) - 90) / 1476) +
            (90 + m + 36 * (m / 90 / 16) - 90) % 1476 = m := by
          omega
        exact ⟨⟨by rw [hm], by rwa [hm]⟩, hm⟩
    · simp only [if_neg hk, if_neg hp, Option.ite_none_right_eq_some, Option.some.injEq]
      omega

/-- The offset `k` belongs to the payload of `S` slots with (`j = 1`) or without (`j = 0`) pilots. -/
def PayloadAt (S j k : Nat) : Prop := ∃ m, m < 90 * S ∧ k = 90 + m + 36 * (m / 90 / 16) * j

/-- The offset `k` belongs to one of `P` pilot blocks. -/
def PilotAt (P k : Nat) : Prop :=
  ∃ b, 1 ≤ b ∧ b ≤ P ∧ 90 + 1440 * b + 36 * (b - 1) ≤ k ∧ k < 90 + 1440 * b + 36 * (b - 1) + 36

/-- The offsets past the header, up to the frame's end, are those of the payload and of the pilot blocks, and no offset
is both. -/
def OffsetsPartition (S P j k : Nat) : Prop :=
  (90 ≤ k ∧ k < 90 * (S + 1) + 36 * P ↔ PayloadAt S j k ∨ PilotAt P k) ∧ ¬ (PayloadAt S j k ∧ PilotAt P k)

/-- In each group of 1476 offsets past the header the first 1440 are payload, the last 36 a pilot block; the last group
has 1 to 16 slots and no pilot block. -/
theorem offsetsPartition_of_pilots {S P : Nat} (hP : P = (S - 1) / 16) (hS : 1 ≤ S) (k : Nat) :
    OffsetsPartition S P 1 k := by
  refine ⟨⟨fun ⟨h1, h2⟩ => ?_, ?_⟩, ?_⟩
  · by_cases hr : (k - 90) % 1476 < 1440
    · exact .inl ⟨1440 * ((k - 90) / 1476) + (k - 90) % 1476, by omega, by omega⟩
    · exact .inr ⟨(k - 90) / 1476 + 1, by omega, by omega, by omega, by omega⟩
  · rintro (⟨m, hm, rfl⟩ | ⟨b, h1, h2, h3, h4⟩) <;> omega
  · rintro ⟨⟨m, hm, rfl⟩, b, h1, h2, h3, h4⟩
    obtain hlt | hge := Nat.lt_or_ge (m / 90 / 16) b <;> omega

theorem offsetsPartition_of_no_pilots (S k : Nat) : OffsetsPartition S 0 0 k := by
  have hno : ¬ PilotAt 0 k := fun ⟨b, h1, h2, _⟩ => by omega
  refine ⟨⟨fun ⟨h1, h2⟩ => .inl ⟨k - 90, by omega, by omega⟩, ?_⟩, fun h => hno h.2⟩
  rintro (⟨m, hm, rfl⟩ | h)
  · omega
  · exact absurd h hno

/-- A frame has no pilot blocks or one after every 16 slots that more slots follow (R275). -/
theorem pilotBlocksOf_cases (p : Pls) : pilotBlocksOf p = 0 ∨
    (0 < pilotBlocksOf p ∧ pilotBlocksOf p = (slotsOf p - 1) / 16) := by
  have := slotsOf_ge p
  rw [pilotBlocksOf_eq]
  split_ifs <;> omega

/-- Settles O35: the payload index inverts R291's offset, and the groups of 16 slots and a pilot block. -/
theorem payloadAndPilotsPartitionTheFrame : Obligations.PayloadAndPilotsPartitionTheFrame := by
  intro p k _ g off
  refine ⟨fun m => ?_, ?_⟩
  · rw [payloadIndex_eq_some_iff, payloadOffset_eq]
    rfl
  · change OffsetsPartition (slotsOf p) (pilotBlocksOf p) (if 0 < pilotBlocksOf p then 1 else 0) k
    obtain h0 | ⟨hpos, hP⟩ := pilotBlocksOf_cases p
    · rw [h0]
      exact offsetsPartition_of_no_pilots _ k
    · rw [if_pos hpos]
      exact offsetsPartition_of_pilots hP (le_trans (by norm_num) (slotsOf_ge p)) k

/-! ### The scrambling sequences (R300) -/

/-- Bit `j` of the register `i` steps on is the sequence's bit `i + j`. -/
theorem xSeq_bit {n : Nat} (i j : Nat) (hn : n = i + j) (hj : j < 18) (h : n < 2 ^ 18) :
    xSeq n = (xStep^[i] 1).getLsbD j := by
  rw [xSeq_eq n h, hn, Nat.add_comm, Function.iterate_add_apply]
  exact (iterate_bit (fun r j hj => by rw [xStep_bit, if_pos hj]) j hj _).symm

theorem ySeq_bit {n : Nat} (i j : Nat) (hn : n = i + j) (hj : j < 18) (h : n < 2 ^ 18) :
    ySeq n = (yStep^[i] (BitVec.allOnes 18)).getLsbD j := by
  rw [ySeq_eq n h, hn, Nat.add_comm, Function.iterate_add_apply]
  exact (iterate_bit (fun r j hj => by rw [yStep_bit, if_pos hj]) j hj _).symm

/-- The bit that a step brings in is bit 17 of the next register. -/
theorem xSeq_recurrence {i : Nat} (h : i + 18 < 2 ^ 18) : xSeq (i + 18) = (xSeq (i + 7) ^^ xSeq i) := by
  rw [xSeq_bit (i + 1) 17 rfl (by omega) h, Function.iterate_succ_apply', xStep_bit,
    xSeq_bit i 7 rfl (by omega) (by omega), xSeq_eq i (by omega)]
  rfl

theorem ySeq_recurrence {i : Nat} (h : i + 18 < 2 ^ 18) :
    ySeq (i + 18) = (ySeq (i + 10) ^^ ySeq (i + 7) ^^ ySeq (i + 5) ^^ ySeq i) := by
  rw [ySeq_bit (i + 1) 17 rfl (by omega) h, Function.iterate_succ_apply', yStep_bit,
    ySeq_bit i 10 rfl (by omega) (by omega), ySeq_bit i 7 rfl (by omega) (by omega),
    ySeq_bit i 5 rfl (by omega) (by omega), ySeq_eq i (by omega)]
  rfl

/-- `R_n(i)` as a number.  Its definition is opened before it is applied to `n` and `i`: the kernel would otherwise
evaluate `z_n` at these variables. -/
theorem scrambleR_val (n i : Nat) :
    (scrambleR n i).val = 2 * (zSeq n ((i + 131072) % goldPeriod)).toNat + (zSeq n i).toNat := by
  obtain ⟨R, hR⟩ : ∃ R, R = scrambleR := ⟨_, rfl⟩
  rw [← hR]
  delta scrambleR at hR
  have h := congrFun₂ hR n i
  beta_reduce at h
  rw [h]
  split <;> simp [*]

/-- Settles O36: the registers' starting bits, the bit each step brings in, and `R_n` by its two bits. -/
theorem scramblingSequencesObeyTheirRecurrences : Obligations.ScramblingSequencesObeyTheirRecurrences := by
  have hx : ∀ j, j < 18 → xSeq j = (1 : Lfsr).getLsbD j := fun j hj =>
    xSeq_bit 0 j (Nat.zero_add j).symm hj (by omega)
  have hy : ∀ j, j < 18 → ySeq j = (BitVec.allOnes 18).getLsbD j := fun j hj =>
    ySeq_bit 0 j (Nat.zero_add j).symm hj (by omega)
  refine ⟨hx 0 (by omega), fun i h1 h17 => ?_, fun i h17 => ?_,
    fun i h => ⟨xSeq_recurrence h, ySeq_recurrence h⟩, fun n i _ => scrambleR_val n i⟩
  · rw [hx i (by omega)]
    simp
    omega
  · rw [hy i (by omega), BitVec.getLsbD_allOnes]
    exact decide_eq_true (by omega)

/-! ### A noise-free header (R263 to R273) -/

theorem sofLambda_clean (v : Pls) : sofLambda (cleanHeader v) = 1 := by
  have hroot : sqrtRef (CQ.normSq ⟨50, 0⟩) = 50 := by decide +kernel
  rw [sofLambda, sofE_clean, sofD_clean, hroot]
  norm_num

/-- The header's own PLS has the one largest score, 128. -/
theorem decodePls_clean (v : Pls) (k : Nat) : decodePls ⟨.reference, k⟩ ((cleanHeader v).map .fin) = v := by
  rw [decodePls, softValues_clean]
  refine argmaxFrom_unique (fun u hu => ?_) (fun u => ?_) _ _ (.inr ?_)
  · simpa [plscScore_clean, Num.gt, plscMetric_clean_self] using plscMetric_clean_lt hu
  · by_cases hu : u = v
    · simp [hu, plscScore_clean, Num.gt]
    · simpa [plscScore_clean, Num.gt, plscMetric_clean_self] using (plscMetric_clean_lt hu).le
  · exact List.mem_map.mpr ⟨v.toNat, List.mem_range.mpr v.isLt, BitVec.ofNat_toNat 7 v⟩

/-- Settles O37: the metric and the decision on the noise-free header. -/
theorem cleanHeaderDecodesToItsPls : Obligations.CleanHeaderDecodesToItsPls :=
  fun v k => ⟨sofLambda_clean v, decodePls_clean v k⟩

end Sys2Proof.Machine
end

section
/-!
PROOFS. The statements of 43_frame_sync.md about the steps of FS: its invariant, what FS.SAMPLE sends, the search, the
evaluation of an expected header and the lock.
-/

namespace Sys2Proof.Machine

/-! ### FS.TAG, FS.EOS and the end of the stream (R295, R296, R306) -/

theorem exec_fsEos_open {s : State} (h : s.fs.eos = false) : exec .fsEos s =
    .next { s with fs := { s.fs with eos := true }, fsOut := s.fsOut ++ [eosBeat] } := by
  simp only [exec, execFsEos, h, Bool.false_eq_true, if_false]

theorem exec_fsEos_ended {s : State} (h : s.fs.eos = true) : exec .fsEos s = .next s := by
  simp only [exec, execFsEos, h, if_true]

theorem exec_fsReserved_ended {s : State} (h : s.fs.eos = true) : exec .fsReserved s = .next s := by
  simp only [exec, execFsReserved, h, if_true]

theorem exec_fsSample_ended {s : State} (h : s.fs.eos = true) (re im : Word) : exec (.fsSample re im) s = .next s := by
  simp only [exec, execFsSample, h, if_true]

/-- Settles O33: each meaning before and after the end of the stream. -/
theorem fsTagAndEos : Obligations.FsTagAndEos := fun s p =>
  ⟨exec_fsTag p s, exec_fsEos_open,
    fun h => ⟨exec_fsEos_ended h, exec_fsReserved_ended h, exec_fsSample_ended h⟩⟩

/-! ### What an instruction can do to FS -/

/-- What an instruction can do to FS. -/
inductive FsCase (i : Instr) (s t : State) : Prop where
  | same (h : t.fs = s.fs)
  /-- R296 -/
  | ended (h : t.fs = { s.fs with eos := true })
  /-- R391 -/
  | reset (ts bb hif : Bool) (hi : i = .reset ts true bb hif) (h : t.fs = FsState.reset)
  /-- R280 -/
  | sample (re im : Word) (hi : i = .fsSample re im)
      (h : t = withFsRun (fsSampleRun ⟨s.ctx, s.csr⟩ (f32Sample re im) (fsRun s)) s)

theorem exec_fs_cases {i : Instr} {s t : State} (h : exec i s = .next t) : FsCase i s t := by
  have hf := instructionFrames i s t h
  cases i with
  | reset ts fs bb hif =>
    cases h
    rw [resetUnits_eq]
    cases fs
    · exact .same rfl
    · exact .reset ts bb hif rfl rfl
  | fsSample re im =>
    cases h
    split
    · exact .same rfl
    · exact .sample re im rfl rfl
  | fsEos =>
    cases h
    split
    · exact .same rfl
    · exact .ended rfl
  | tsSample _ _ => exact .same ((congrArg State.fs hf.1).trans rfl)
  | outEos port => cases port <;> exact .same ((congrArg State.fs hf).trans rfl)
  | _ => exact .same ((congrArg State.fs hf).trans rfl)

/-! ### The invariant (R279 to R293, R298) -/

theorem fsReset_inv : FsInv FsState.reset := by
  constructor <;> simp [FsState.reset]

/-- A legal `FS_LOCK_COUNT` is at least 2 (R66). -/
theorem CsrInv.two_le_lockCount {s : State} (h : CsrInv s) : 2 ≤ s.csr.fsLockCount.toNat := by
  have hl : u32Legal s.csr.fsLockCount 2 255 = true := by
    simpa [Csr.legal?, readCsr] using h.legal .fsLockCount
  exact ((u32Legal_iff _ _ _).mp hl).1

/-- Every instruction keeps FS's invariant. -/
theorem FsInv.exec {i : Instr} {s t : State} (hc : CsrInv s) (h : FsInv s.fs) (he : exec i s = .next t) :
    FsInv t.fs := by
  cases exec_fs_cases he with
  | same ht => rwa [ht]
  | ended ht =>
    rw [ht]
    exact ⟨h.count, h.search, h.idle, h.expected, h.unlocked, h.locked, h.frame⟩
  | reset ts bb hif hi ht =>
    rw [ht]
    exact fsReset_inv
  | sample re im hi ht =>
    rw [ht]
    exact fsSampleRun_inv (c := ⟨s.ctx, s.csr⟩) (r := fsRun s) hc.two_le_lockCount h

/-- Settles O55: the step's instruction, if it runs one, starts from a state with the same registers and FS. -/
theorem fsInvariantIsKept : Obligations.FsInvariantIsKept := by
  intro s t hc h hst
  obtain ⟨s', hcore, ht⟩ := step_cases hst
  have hs' : CsrInv s' ∧ FsInv s'.fs := by
    rw [hcore]
    exact ⟨hc.of_csr_eq rfl, h⟩
  obtain ⟨hc', h'⟩ := hs'
  obtain rfl | ⟨i, hi⟩ := ht
  · exact h'
  · exact h'.exec hc' hi

/-! ### The step of one symbol (R280) -/

/-- What one symbol can do to FS: it is taken, and beside it a frame may end, or a header part is due. -/
inductive SymbolCase (c : FsCfg) (z : Cx) (r q : FsRun) : Prop where
  | quiet (fr : Option Frame) (hfr : fr = none ∨ fr = r.fs.frm) (hfs : q.fs = { r.fs.push z with frm := fr })
      (hout : r.fs.frm = none → q.out = r.out) (hnot : NotDue c r.fs.nIn { r with fs := r.fs.push z })
  | header (hf : r.fs.frm = none) (hdue : ∀ k, r.fs.nextHdr = some k → r.fs.nIn = k + 89)
      (hcase : HeaderCase c { r with fs := r.fs.push z } q)

/-- Within a frame no header is due, between frames a step is its header part (R298). -/
theorem fsSampleRun_symbolCase (c : FsCfg) (z : Cx) {r : FsRun} (h : FsInv r.fs) :
    SymbolCase c z r (fsSampleRun c z r) := by
  cases hf : r.fs.frm with
  | some f =>
    obtain ⟨hF, hnext⟩ := h.frame f hf
    have hnot : NotDue c r.fs.nIn { r with fs := r.fs.push z } := by
      refine ⟨fun k hk => ?_, fun hn => by simp [hnext] at hn⟩
      cases hnext.symm.trans hk
      have := hF.unended
      omega
    rw [fsSampleRun_inFrame c z h hf]
    obtain he | ⟨_, -, -, -, he⟩ := payloadStep_fs c r.fs.nIn z { r with fs := r.fs.push z }
    · exact .quiet r.fs.frm (.inr rfl) he (by simp [hf]) hnot
    · exact .quiet none (.inl rfl) he (by simp [hf]) hnot
  | none =>
    rw [fsSampleRun_noFrame c z hf]
    obtain ⟨he, hnot⟩ | ⟨hdue, hcase, -⟩ := headerStep_cases c r.fs.nIn { r with fs := r.fs.push z } rfl
    · rw [he]
      exact .quiet r.fs.frm (.inr rfl) rfl (fun _ => rfl) hnot
    · exact .header hf hdue hcase

/-- The header part takes no symbol. -/
theorem HeaderCase.received {c : FsCfg} {r q : FsRun} (h : HeaderCase c r q) :
    q.fs.r = r.fs.r ∧ q.fs.nIn = r.fs.nIn := by
  cases h <;> rw [‹q.fs = _›] <;> exact ⟨rfl, rfl⟩

theorem SymbolCase.received {c : FsCfg} {z : Cx} {r q : FsRun} (h : SymbolCase c z r q) :
    q.fs.r = z :: r.fs.r ∧ q.fs.nIn = r.fs.nIn + 1 := by
  cases h with
  | quiet fr hfr hfs hout hnot =>
    rw [hfs]
    exact ⟨rfl, rfl⟩
  | header hf hdue hcase => exact hcase.received

theorem FsInv.locked_of_frame {fs : FsState} (h : FsInv fs) {f : Frame} (hf : fs.frm = some f) : fs.lock = .locked := by
  cases hl : fs.lock with
  | locked => rfl
  | unlocked => simp [(h.unlocked hl).1] at hf

/-- The lock changes only where a header is due, which is between frames. -/
theorem SymbolCase.lock_of_frame {c : FsCfg} {z : Cx} {r q : FsRun} (h : SymbolCase c z r q) {f : Frame}
    (hf : r.fs.frm = some f) : q.fs.lock = r.fs.lock := by
  cases h with
  | quiet fr hfr hfs hout hnot => rw [hfs, FsState.push_lock]
  | header hn hdue hcase => simp [hf] at hn

/-! ### What FS.SAMPLE sends (R289 to R294, R301, R303) -/

/-- Settles O31: one symbol is taken, and what it sends is nothing, a payload symbol or a tag. -/
theorem fsSampleCompletes : Obligations.FsSampleCompletes := by
  intro s re im h heos
  have hcase := fsSampleRun_symbolCase ⟨s.ctx, s.csr⟩ (f32Sample re im) (r := fsRun s) h
  obtain ⟨hr, hn⟩ := hcase.received
  have heos' := (fsSampleRun_eos ⟨s.ctx, s.csr⟩ (f32Sample re im) (fsRun s)).trans heos
  refine ⟨_, (fsSampleRun ⟨s.ctx, s.csr⟩ (f32Sample re im) (fsRun s)).out, exec_fsSample_open heos re im, rfl,
    hr, hn, heos', fsSampleRun_oneWrite (r := fsRun s) h, rfl, ?_⟩
  simp only [withFsRun_fs, hn]
  cases fsSampleRun_sent (c := ⟨s.ctx, s.csr⟩) (z := f32Sample re im) (r := fsRun s) h with
  | nothing ho hc => exact ⟨fun _ => ho, .inl ⟨ho, hc⟩⟩
  | payload f yr yi hf hemit hi hk ho hc =>
    have hlock := (hcase.lock_of_frame hf).trans (h.locked_of_frame hf)
    obtain ⟨m, hm⟩ := Option.isSome_iff_exists.mp hk
    obtain ⟨hlt, hoff⟩ := (payloadIndex_eq_some_iff f.geom _ m).mp hm
    have hindex : s.fs.nIn = f.h + payloadOffset f.geom m := by
      rw [← hoff]
      exact (Nat.add_sub_cancel' ((Nat.le_add_right _ 90).trans hi.1)).symm
    exact ⟨fun hu => by simp [hlock] at hu,
      .inr (.inl ⟨f, m, yr, yi, hf, hemit, hlt, hindex, ho, hc⟩)⟩
  | tag k p hnext hi hv he hf hl ho hc =>
    have hmod : modcodOf p ≠ 0 := of_decide_eq_true (Bool.and_eq_true_iff.mp he).2
    exact ⟨fun hu => by simp [hl] at hu,
      .inr (.inr ⟨_, hf, rfl, rfl, by simp only [hi], hmod, ho, hc⟩)⟩

@[simp] theorem closeFrame_out (f : Frame) (k : Nat) (r : FsRun) : (closeFrame f k r).out = r.out := by
  unfold closeFrame
  split <;> rfl

@[simp] theorem measureFine_out (c : FsCfg) (f : Frame) (k : Nat) (r : FsRun) : (measureFine c f k r).out = r.out := by
  obtain h | ⟨-, -, -, -, h⟩ := measureFine_cases c f k r <;> rw [h]
  rfl

/-- At payload offset `m` of a frame that is sent, the payload part sends the descrambled symbol (R293). -/
theorem payloadStep_sends (c : FsCfg) {i : Nat} (z : Cx) {r : FsRun} {f : Frame} {m : Nat} (hf : r.fs.frm = some f)
    (hemit : f.emit = true) (hm : m < f.geom.xfec) (hi : i = f.h + payloadOffset f.geom m)
    (h1 : f.h + 90 ≤ i) (h2 : i < f.h + f.geom.len) :
    let bits := cxBits c.ctx.tick 0 (descrambled c.ctx f.gold (payloadOffset f.geom m) z)
    (payloadStep c i z r).out = r.out ++ [sampleBeat bits.1 bits.2] := by
  have hk : i - f.h = payloadOffset f.geom m := by omega
  have hix : payloadIndex f.geom (payloadOffset f.geom m) = some m := (payloadIndex_eq_some_iff ..).mpr ⟨hm, rfl⟩
  simp only [payloadStep, hf]
  rw [if_pos ⟨h1, by omega⟩, closeFrame_out, measureFine_out, hk, sendPayload, if_pos (by simp [hemit, hix])]

/-- The same for a whole step: no header is due within a frame. -/
theorem fsSampleRun_sends (c : FsCfg) (z : Cx) {r : FsRun} (h : FsInv r.fs) {f : Frame} {m : Nat}
    (hf : r.fs.frm = some f) (hemit : f.emit = true) (hm : m < f.geom.xfec)
    (hi : r.fs.nIn = f.h + payloadOffset f.geom m) :
    let bits := cxBits c.ctx.tick 0 (descrambled c.ctx f.gold (payloadOffset f.geom m) z)
    (fsSampleRun c z r).out = r.out ++ [sampleBeat bits.1 bits.2] := by
  obtain ⟨hF, -⟩ := h.frame f hf
  rw [fsSampleRun_inFrame c z h hf]
  exact payloadStep_sends c z (r := { r with fs := r.fs.push z }) hf hemit hm hi hF.started hF.unended

theorem descrambled_reference {c : NumCtx} (hc : c.numerics = .reference) (gold k : Nat) (z : CQ) :
    descrambled c gold k (.fin z) = .fin (z.mulJNeg (scrambleR gold (k - 90))) := by
  simp [descrambled, numCx, NumCtx.exact, hc, Cx.operands, Num.isFin, Cx.val]

/-- Settles O32: the payload symbol a step sends, which the reference arithmetic multiplies by `j^(−R)`. -/
theorem payloadSymbolsAreDescrambled : Obligations.PayloadSymbolsAreDescrambled := by
  intro s re im f m z h heos href hf hemit hm hi hz
  have hout := fsSampleRun_sends ⟨s.ctx, s.csr⟩ (.fin z) (r := fsRun s) h hf hemit hm hi
  rw [descrambled_reference href] at hout
  refine ⟨_, z.mulJNeg (scrambleR f.gold (payloadOffset f.geom m - 90)), exec_fsSample_open heos re im, ?_, ?_⟩
  · rw [hz, withFsRun_fsOut, hout, fsRun_out, List.nil_append, cxBits]
  · split <;> next hq => rw [hq]; rfl

/-! ### The search (R269, R279) -/

/-- A candidate in the words of R269. -/
theorem isCandidate_iff (c : NumCtx) (T : Rat) (fs : FsState) (w : Nat) : isCandidate c T fs w = true ↔
    (sofMetric c fs w).gt (.fin T) = true ∧
    (sofMetric c fs w).gt (if w = 0 then .fin 0 else sofMetric c fs (w - 1)) = true ∧
    (sofMetric c fs w).ge (sofMetric c fs (w + 1)) = true := by
  have hbefore : sofMetricBefore c fs w = if w = 0 then .fin 0 else sofMetric c fs (w - 1) := by
    cases w <;> rfl
  rw [← hbefore]
  simp only [isCandidate, isHit, Bool.and_eq_true, and_assoc]

/-- Settles O38: the search's one window is no candidate, one with an invalid PLS, or a hit. -/
theorem searchFindsAHeader : Obligations.SearchFindsAHeader := by
  intro s re im h heos hn fs w c T found p
  have hfrm : s.fs.frm = none := h.frm_none (by simp [hn])
  have hfound : found ↔ 89 ≤ s.fs.nIn ∧ s.fs.searchFrom ≤ w ∧
      isCandidate c (f32Val s.csr.fsSofThresh) fs w = true ∧ invalidPls p = false := by
    rw [isCandidate_iff, invalidPls_eq_false_iff]
    simp only [found, p, T, and_assoc]
  refine ⟨_, exec_fsSample_open heos re im, ?_⟩
  rw [hfound, withFsRun_fsOut, withFsRun_fs]
  cases fsSampleRun_symbolCase ⟨s.ctx, s.csr⟩ (f32Sample re im) (r := fsRun s) h with
  | quiet fr hfr hfs hout hnot =>
    have hsame : fr = fs.frm := by simpa [fs, hfrm] using hfr
    refine ⟨by rw [hout hfrm, fsRun_out, List.append_nil],
      fun ⟨h1, h2, h3, _⟩ => absurd (h3.symm.trans (hnot.2 hn h1 h2)) (by decide), fun _ => ?_⟩
    rw [hfs, hsame]
    rfl
  | header _ hdue hcase =>
    cases hcase with
    | invalid k _ hk hsf hcand hv hfs hout =>
      obtain rfl : k = w := by
        simp only [FsState.push_nIn, fsRun_fs] at hk
        omega
      exact ⟨by rw [hout, fsRun_out, List.append_nil], fun ⟨_, _, _, h4⟩ => absurd (h4.symm.trans hv) (by decide),
        fun _ => hfs⟩
    | acquire k q _ hk hsf hcand hq hv hfs hout =>
      have hk' : k + 90 = s.fs.nIn + 1 := hk
      obtain rfl : k = w := by omega
      subst hq
      exact ⟨by rw [hout, fsRun_out, List.append_nil], fun _ => hfs,
        fun hno => absurd ⟨by omega, hsf, hcand, hv⟩ hno⟩
    | lose k hk | confirm k q hk | lockOn k q e hk | hit k q e hk | miss k q hk =>
      cases hn.symm.trans hk

/-! ### The evaluation of an expected header (R276, R277, R281 to R287) -/

/-- At its last symbol an expected header is evaluated (R280). -/
theorem fsSampleRun_headerCase {c : FsCfg} {z : Cx} {r : FsRun} (h : FsInv r.fs) {k : Nat} (hd : HeaderDue r.fs k) :
    HeaderCase c { r with fs := r.fs.push z } (fsSampleRun c z r) := by
  cases fsSampleRun_symbolCase c z h with
  | quiet fr hfr hfs hout hnot => exact absurd hd.2 (hnot.1 k hd.1)
  | header _ _ hcase => exact hcase

/-- The four filter words as one 128-bit filter (R277). -/
theorem accepts_latchOf (csr : Csrs) (p : Pls) : accepts (latchOf csr) p =
    (csr.fsPlsFilter3 ++ csr.fsPlsFilter2 ++ csr.fsPlsFilter1 ++ csr.fsPlsFilter0).getLsbD p.toNat := by
  have hp := p.isLt
  obtain h | h | h | h : p.toNat / 32 = 0 ∨ p.toNat / 32 = 1 ∨ p.toNat / 32 = 2 ∨ p.toNat / 32 = 3 := by omega
  all_goals simp only [accepts, h, latchOf, BitVec.getLsbD_append]
  · rw [if_pos (by omega), show p.toNat % 32 = p.toNat by omega]
  · rw [if_neg (by omega), if_pos (by omega), show p.toNat % 32 = p.toNat - 32 by omega]
  · rw [if_neg (by omega), if_neg (by omega), if_pos (by omega), show p.toNat % 32 = p.toNat - 32 - 32 by omega]
  · rw [if_neg (by omega), if_neg (by omega), if_neg (by omega), show p.toNat % 32 = p.toNat - 32 - 32 - 32 by omega]

/-- In UNLOCKED and in ACM the PLS is the decoded one (R276). -/
theorem expectedPls_decoded {c : FsCfg} {fs : FsState} {k : Nat}
    (h : fs.lock = .unlocked ∨ (latchOf c.csr).acm = true) :
    expectedPls c (latchOf c.csr) fs k = decodePls c.ctx (fs.window k 90) := by
  refine if_neg fun ⟨hl, ha⟩ => ?_
  simp [hl, ha] at h

/-- In CCM while LOCKED the PLS is the one latched at lock (R276). -/
theorem expectedPls_latched {c : FsCfg} {fs : FsState} {k : Nat} {q : Pls} (hl : fs.lock = .locked)
    (ha : (latchOf c.csr).acm = false) (hq : fs.ccmPls = some q) : expectedPls c (latchOf c.csr) fs k = q := by
  rw [expectedPls, if_pos ⟨hl, ha⟩, hq]

/-- Settles O39: case by case of what the header part does where a header is due. -/
theorem headerEvaluation : Obligations.HeaderEvaluation := by
  intro s re im k h heos hn hi fs c hit p acm filter emit lost tag next
  have hcase := fsSampleRun_headerCase (c := c) (z := f32Sample re im) (r := fsRun s) h ⟨hn, hi⟩
  have hemit : emits (latchOf s.csr) p = emit := by rw [emits, accepts_latchOf]
  have hcount : (if emit then s.fs.frameCount + 1 else s.fs.frameCount) =
      s.fs.frameCount + BitVec.ofNat 32 tag.length := by
    simp only [tag]
    cases emit <;> simp
  have hsent : ∀ q : FsRun, q.out = [] → s.fsOut ++ q.out = s.fsOut := fun q hq => by rw [hq, List.append_nil]
  have hvalid : invalidPls p = false → ¬ 29 ≤ (modcodOf p).toNat := fun hv => by
    rw [← invalidPls_iff, hv]
    decide
  refine ⟨expectedPls_decoded (c := c) (fs := fs), fun hl ha q => expectedPls_latched (c := c) (fs := fs) hl ha, _,
    exec_fsSample_open heos re im, ?_⟩
  rw [withFsRun_fsOut, withFsRun_fs]
  cases hcase with
  | invalid j hj | acquire j q hj => cases hn.symm.trans hj
  | lose j hj hw hfe hfs hout =>
    cases hn.symm.trans hj
    by_cases hv : 29 ≤ (modcodOf p).toNat
    · rw [if_pos hv]
      exact ⟨hfs, hsent _ hout⟩
    · obtain hv' | ⟨hh, hm⟩ := hw
      · exact absurd ((invalidPls_iff p).mp hv') hv
      · rw [if_neg hv, show hit = false from hh]
        cases hl : s.fs.lock with
        | unlocked => exact ⟨hfs, hsent _ hout⟩
        | locked => exact ⟨hsent _ hout, (if_pos (hm hl)).mpr hfs⟩
  | confirm j q hj hv hp hh hu hl hfs hout =>
    cases hn.symm.trans hj
    subst hp
    rw [if_neg (hvalid hv), show hit = true from hh, show s.fs.lock = .unlocked from hu]
    exact (if_neg (Nat.not_le.mpr hl)).mpr ⟨hfs, hsent _ hout⟩
  | lockOn j q e hj hv hp hh hu hl he hfs hout =>
    cases hn.symm.trans hj
    subst hp
    obtain rfl : e = emit := he.trans hemit
    rw [if_neg (hvalid hv), show hit = true from hh, show s.fs.lock = .unlocked from hu]
    rw [← hcount]
    exact (if_pos hl).mpr ⟨hfs, congrArg (s.fsOut ++ ·) hout⟩
  | hit j q e hj hv hp hh hu he hfs hout =>
    cases hn.symm.trans hj
    subst hp
    obtain rfl : e = emit := he.trans hemit
    rw [if_neg (hvalid hv), show hit = true from hh, show s.fs.lock = .locked from hu]
    rw [← hcount]
    exact ⟨hfs, congrArg (s.fsOut ++ ·) hout⟩
  | miss j q hj hv hp hh hu hm hfs hout =>
    cases hn.symm.trans hj
    subst hp
    rw [if_neg (hvalid hv), show hit = false from hh, show s.fs.lock = .locked from hu]
    exact ⟨hsent _ hout, (if_neg (Nat.not_le.mpr hm)).mpr hfs⟩

/-! ### The lock (R282, R283, R285, R287) -/

/-- LOCKED is entered by a hit that completes the run (R282). -/
theorem HeaderCase.locks {c : FsCfg} {r q : FsRun} (h : HeaderCase c r q) (hr : r.fs.lock = .unlocked)
    (hq : q.fs.lock = .locked) : ∃ k, r.fs.nextHdr = some k ∧ c.csr.fsLockCount.toNat ≤ r.fs.hits + 1 ∧
      q.fs.hits = r.fs.hits + 1 ∧ isHit c.ctx (latchOf c.csr).thresh r.fs k = true := by
  cases h with
  | lockOn k p e hn hv hp hh hu hl he hfs hout hfe => exact ⟨k, hn, hl, by rw [hfs], hh⟩
  | _ => simp [‹q.fs = _›, hr] at hq

/-- LOCKED is left by `lose_frame` (R283, R285, R287). -/
theorem HeaderCase.loses {c : FsCfg} {r q : FsRun} (h : HeaderCase c r q) (hr : r.fs.lock = .locked)
    (hq : q.fs.lock = .unlocked) : ∃ k, r.fs.nextHdr = some k ∧ q.fs.frm = none ∧ q.fs.searchFrom = k + 1 ∧
      q.feRun = feReset (feModeCheck (latchOf c.csr).mode r.feRun) ∧
      (invalidPls (expectedPls c (latchOf c.csr) r.fs k) = true ∨
        (isHit c.ctx (latchOf c.csr).thresh r.fs k = false ∧ c.csr.fsUnlockCount.toNat ≤ r.fs.misses + 1)) := by
  cases h with
  | lose k hn hw hfe hfs hout =>
    exact ⟨k, hn, by rw [hfs], by rw [hfs], hfe, hw.imp_right fun ⟨hh, hm⟩ => ⟨hh, hm hr⟩⟩
  | _ => simp [‹q.fs = _›, hr] at hq

/-- Settles O40: the lock changes in the header part of a symbol or by a RESET of FS. -/
theorem lockChangesOnlyAtHeaders : Obligations.LockChangesOnlyAtHeaders := by
  intro i s t hc h hst
  by_cases hkeep : t.fs.lock = s.fs.lock
  · rw [hkeep]
    exact ⟨fun hu hl => absurd (hu.symm.trans hl) (by decide), fun hl hu => absurd (hl.symm.trans hu) (by decide)⟩
  cases exec_fs_cases hst with
  | same ht | ended ht => exact absurd (by rw [ht]) hkeep
  | reset ts bb hif hi ht =>
    rw [ht]
    exact ⟨fun _ hl => (by cases hl), fun _ _ => .inl ⟨ts, bb, hif, hi⟩⟩
  | sample re im hi ht =>
    subst ht
    cases fsSampleRun_symbolCase ⟨s.ctx, s.csr⟩ (f32Sample re im) (r := fsRun s) h with
    | quiet fr hfr hfs hout hnot => exact absurd (by rw [withFsRun_fs, hfs]; rfl) hkeep
    | header hf hdue hcase =>
      refine ⟨fun hu hl => ?_, fun hl hu => .inr ?_⟩
      · obtain ⟨k, hn, hle, hhits, hh⟩ := hcase.locks hu hl
        have hone := (h.expected k hn).2.1
        exact ⟨re, im, k, hi, hn, hdue k hn, hle, hhits,
          by rw [withFsRun_fs, hhits]; exact Nat.succ_le_succ hone, hh⟩
      · obtain ⟨k, hn, hfrm, hsf, hfe, hw⟩ := hcase.loses hl hu
        have hfe : (fsSampleRun ⟨s.ctx, s.csr⟩ (f32Sample re im) (fsRun s)).fe = _ := congrArg FeRun.fe hfe
        refine ⟨re, im, k, hi, hn, hdue k hn, hfrm, hsf, ?_, ?_, ?_, hw⟩ <;> rw [withFsRun_fe, hfe] <;> rfl

end Sys2Proof.Machine
end

section
/-!
PROOFS. The statements of 44_bb_deheader.md: the CRC, the beats that frame the stream, the frames discarded and sent,
and what a frame depends on.
-/

namespace Sys2Proof.Machine

/-! ### The beats of BB before the end of its stream (R325 to R327, R331) -/

theorem exec_bbStart_open {s : State} (h : s.bb.eos = false) (k : BitVec 16) (d : Bool) :
    exec (.bbStart k d) s = .next { s with bb := startBb k.toNat d s.bb } := by
  simp only [exec, execBbStart, h, Bool.false_eq_true, if_false]

theorem exec_bbEos_open {s : State} (h : s.bb.eos = false) :
    exec .bbEos s = .next (withBbRun { bb := endBb s.bb, out := [bbEosBeat] } s) := by
  simp only [exec, execBbEos, h, Bool.false_eq_true, if_false]

theorem exec_bbByte_stray {s : State} (h : s.bb.eos = false) (ho : s.bb.isOpen = false) (x : Byte) :
    exec (.bbByte x) s = .next (WithError 0x40 s) := by
  simp only [exec, execBbByte, h, ho, Bool.false_eq_true, if_false, raise_eq, mask_bbStray]

theorem exec_bbByte_open {s : State} (h : s.bb.eos = false) (ho : s.bb.isOpen = true) (x : Byte) :
    exec (.bbByte x) s = .next (withBbRun (appendByte x s.bb) s) := by
  simp only [exec, execBbByte, h, ho, Bool.false_eq_true, if_false, if_true]

/-- Outside an open frame, and after the end of the stream, BB ignores a byte (R331, R342). -/
theorem exec_bbByte_idle {s t : State} {x : Byte} (hi : ¬(s.bb.eos = false ∧ s.bb.isOpen = true))
    (h : exec (.bbByte x) s = .next t) : t.bb = s.bb ∧ t.bbOut = s.bbOut := by
  cases h
  split
  · exact ⟨rfl, rfl⟩
  next he =>
    rw [if_neg fun ho => hi ⟨Bool.eq_false_of_not_eq_true he, ho⟩]
    exact ⟨rfl, rfl⟩

/-! ### A byte of the open frame (R326) -/

theorem appendByte_collects {b : BbState} (h : b.nbytes + 1 ≠ b.kbch / 8) (x : Byte) :
    appendByte x b = ⟨{ b with fbuf := b.fbuf ++ [x], nbytes := b.nbytes + 1 }, []⟩ :=
  if_neg h

/-- BB when the byte `x` has closed the open frame, before the frame is processed. -/
def closedBy (x : Byte) (b : BbState) : BbState :=
  { b with isOpen := false, fbuf := b.fbuf ++ [x], nbytes := b.nbytes + 1 }

theorem appendByte_completes {b : BbState} (h : b.nbytes + 1 = b.kbch / 8) (x : Byte) :
    appendByte x b = processFrame (b.fbuf ++ [x]) b.kbch b.disc (closedBy x b) :=
  if_pos h

/-- The last byte of a frame does to BB what processing the frame can do. -/
theorem appendByte_cases {b : BbState} (h : b.nbytes + 1 = b.kbch / 8) (x : Byte) :
    FrameCase (b.fbuf ++ [x]) b.kbch b.disc (closedBy x b) (appendByte x b) := by
  rw [appendByte_completes h]
  exact processFrame_cases ..

/-- The beats of a packet as numbers (R130, R343). -/
theorem upBeats_eq : upBeats = packetWords := by
  funext u
  have hbyte : (fun b : Byte => outByteBeat b false) = fun b => b.setWidth 32 := by
    funext b
    apply BitVec.eq_of_toNat_eq
    rw [toNat_outByteBeat, BitVec.toNat_setWidth, Nat.mod_eq_of_lt (by omega)]
    simp only [Bool.false_eq_true, if_false, Nat.zero_add]
  rw [upBeats, hbyte]
  rfl

/-! ### CRC-8 (R324) -/

/-- Settles O44: the last byte meets a register equal to it. -/
theorem crcCheckValues : Obligations.CrcCheckValues := by
  refine ⟨by decide +kernel, by decide +kernel, by decide +kernel, by decide +kernel, fun l => ?_⟩
  calc crc8 (l ++ [crc8 l]) = crcByte (crc8 l) (crc8 l) := crc8_append l _
    _ = 0 := crcByte_self _

/-! ### Framing (R325, R327, R329, R332, R333) -/

theorem legalKbch_iff (k : Nat) : legalKbch k = true ↔ k % 8 = 0 ∧ 80 ≤ k ∧ k ≤ 65528 := by
  simp [legalKbch, and_assoc]

/-- Settles O45: a frame is open or not, and the new one's length is legal or not. -/
theorem framingBeats : Obligations.FramingBeats := by
  intro s k d he
  dsimp only
  rw [exec_bbStart_open he, exec_bbEos_open he]
  refine ⟨?_, ?_⟩
  · simp only [startBb, legalKbch_iff]
    cases s.bb.isOpen <;> split <;> rfl
  · unfold endBb
    cases s.bb.isOpen <;> rfl

/-- Settles O46: the two guards of BB.BYTE. -/
theorem bytesAreCollectedOrStray : Obligations.BytesAreCollectedOrStray := by
  intro s x he
  refine ⟨fun ho => exec_bbByte_stray he ho x, fun ho hn => ?_⟩
  rw [exec_bbByte_open he ho, appendByte_collects hn, withBbRun, List.append_nil]

/-! ### Frames discarded and frames sent (R330, R334 to R343) -/

theorem headerGood_eq_false {f : List Byte} {kbch : Nat}
    (h : kbch < dflOf f + 80 ∨ dflOf f % 8 ≠ 0 ∨ dflOf f < syncdOf f ∨ syncdOf f % 8 ≠ 0) :
    headerGood f kbch = false := by
  rw [← Bool.not_eq_true, headerGood_iff]
  omega

/-- Settles O47: each cause leaves one case of what processing a frame can do. -/
theorem badFramesAreDiscarded : Obligations.BadFramesAreDiscarded := by
  intro s x he ho hn
  dsimp only
  rw [exec_bbByte_open he ho]
  refine ⟨fun hcrc => ?_, fun hcrc hbad => ?_⟩
  · cases appendByte_cases hn x with
    | crc _ hr => rw [hr, withBbRun, List.append_nil]; rfl
    | header h => exact absurd h hcrc
    | valid _ h => exact absurd h hcrc
  · cases appendByte_cases hn x with
    | crc h => exact absurd hcrc h
    | header _ _ hr => rw [hr, withBbRun, List.append_nil]; rfl
    | valid _ _ hh => exact absurd (hh.symm.trans (headerGood_eq_false hbad)) Bool.noConfusion

/-- Settles O48: the case of a valid frame, its packets written as the statement has them. -/
theorem validFramesSendTheirPackets : Obligations.ValidFramesSendTheirPackets := by
  intro s x he ho hn
  dsimp only
  intro hcrc hfit hdfl hle hsyncd
  have hgood : headerGood (s.bb.fbuf ++ [x]) s.bb.kbch = true := (headerGood_iff _ _).mpr ⟨hfit, hdfl, hle, hsyncd⟩
  rw [exec_bbByte_open he ho]
  cases appendByte_cases hn x with
  | crc h => exact absurd hcrc h
  | header _ hh => simp [hgood] at hh
  | valid ups _ _ hu hr =>
    rw [packetsOf_disc] at hu
    have hpart : ∀ l : List Byte, (!l.isEmpty) = decide (l ≠ []) := by
      intro l
      cases l <;> rfl
    rw [hr, upBeats_eq, hpart, hu]
    rfl

/-! ### What BB sends (R344) -/

/-- What a byte of the open frame sends is whole packets, and the counter counts them. -/
theorem BbInv.appendByte_sends {b : BbState} (h : BbInv b) (x : Byte) :
    ∃ ups : List (List Byte), (∀ u ∈ ups, u.length = 188) ∧
      (Machine.appendByte x b).out = ups.flatMap packetWords ∧
      (Machine.appendByte x b).bb.packetsOut = b.packetsOut + BitVec.ofNat 32 ups.length := by
  by_cases hn : b.nbytes + 1 = b.kbch / 8
  · cases appendByte_cases hn x with
    | crc _ hr | header _ _ hr => rw [hr]; exact ⟨[], by simp, rfl, (BitVec.add_zero _).symm⟩
    | valid ups _ hh hu hr =>
      have hlen : (dataField (b.fbuf ++ [x])).length = dflOf (b.fbuf ++ [x]) / 8 :=
        dataField_length (by rw [List.length_append, ← h.count]; exact hn) hh
      obtain ⟨-, -, hle, -⟩ := (headerGood_iff _ _).mp hh
      rw [hr, ← upBeats_eq]
      refine ⟨ups, fun u hmem => ?_, rfl, rfl⟩
      rw [hu] at hmem
      exact packetsOf_length (by omega) hmem
  · rw [appendByte_collects hn]
    exact ⟨[], by simp, rfl, (BitVec.add_zero _).symm⟩

@[simp] theorem startBb_packetsOut (k : Nat) (d : Bool) (b : BbState) : (startBb k d b).packetsOut = b.packetsOut := by
  unfold startBb
  cases b.isOpen <;> dsimp only <;> split <;> rfl

@[simp] theorem endBb_packetsOut (b : BbState) : (endBb b).packetsOut = b.packetsOut := by
  unfold endBb
  cases b.isOpen <;> rfl

/-- Only BB.BYTE and BB.EOS send on `BB_OUT` (R326, R327). -/
theorem exec_bbOut {i : Instr} {s t : State} (h : exec i s = .next t) (hbyte : ∀ x, i ≠ .bbByte x)
    (heos : i ≠ .bbEos) (hout : ∀ b sop, i ≠ .outBbByte b sop) (hend : i ≠ .outBbEos) : t.bbOut = s.bbOut := by
  have hf := instructionFrames i s t h
  cases i with
  | bbByte x => exact absurd rfl (hbyte x)
  | bbEos => exact absurd rfl heos
  | outBbByte b sop => exact absurd rfl (hout b sop)
  | outBbEos => exact absurd rfl hend
  | tsSample _ _ | fsSample _ _ => exact (congrArg State.bbOut hf.1).trans rfl
  | outEos port => cases port <;> exact (congrArg State.bbOut hf).trans rfl
  | _ => exact (congrArg State.bbOut hf).trans rfl

/-- Only a packet sent or a RESET of BB changes the packet counter (R343, R391). -/
theorem exec_packetsOut {i : Instr} {s t : State} (h : exec i s = .next t) (hbyte : ∀ x, i ≠ .bbByte x)
    (hreset : ∀ ts fs hif, i ≠ .reset ts fs true hif) : t.bb.packetsOut = s.bb.packetsOut := by
  cases exec_bb_cases h with
  | same ht => rw [ht]
  | byte x hi => exact absurd hi (hbyte x)
  | start k d _ _ ht => rw [ht, startBb_packetsOut]
  | eos _ _ ht => rw [ht, endBb_packetsOut]
  | reset ts fs hif hi => exact absurd hi (hreset ts fs hif)

/-- BB.BYTE sends whole packets, none outside a frame, and counts them (R326, R331, R343). -/
theorem exec_bbByte_sends {s t : State} {x : Byte} (hb : BbInv s.bb) (h : exec (.bbByte x) s = .next t) :
    ∃ ups : List (List Byte), (∀ u ∈ ups, u.length = 188) ∧ t.bbOut = s.bbOut ++ ups.flatMap packetWords ∧
      t.bb.packetsOut = s.bb.packetsOut + BitVec.ofNat 32 ups.length := by
  by_cases hi : s.bb.eos = false ∧ s.bb.isOpen = true
  · rw [exec_bbByte_open hi.1 hi.2] at h
    cases h
    obtain ⟨ups, hlen, hsent, hcount⟩ := hb.appendByte_sends x
    exact ⟨ups, hlen, congrArg (s.bbOut ++ ·) hsent, hcount⟩
  · obtain ⟨hsame, hout⟩ := exec_bbByte_idle hi h
    exact ⟨[], by simp, by simp [hout], by simp [hsame]⟩

/-- BB.EOS sends one EOS beat, or nothing after the end of the stream (R327, R342). -/
theorem exec_bbEos_bbOut {s t : State} (h : exec .bbEos s = .next t) :
    t.bbOut = s.bbOut ∨ t.bbOut = s.bbOut ++ [0x80000000] := by
  cases h
  split
  · exact .inl rfl
  · exact .inr rfl

/-- Settles O49: a byte sends whole packets, the end of the stream its EOS beat, and nothing else sends. -/
theorem onlyWholePacketsAreSent : Obligations.OnlyWholePacketsAreSent := by
  intro i s t hb h hout hend
  cases i with
  | bbByte x =>
    obtain ⟨ups, hlen, hsent, hcount⟩ := exec_bbByte_sends hb h
    exact ⟨ups, hlen, .inl hsent, fun _ => hcount⟩
  | bbEos =>
    refine ⟨[], by simp, ?_, fun hr => by simp [exec_packetsOut h nofun hr]⟩
    obtain hsame | heos := exec_bbEos_bbOut h
    · exact .inl (by simp [hsame])
    · exact .inr ⟨rfl, rfl, heos⟩
  | _ =>
    exact ⟨[], by simp, .inl (by simp [exec_bbOut h nofun nofun hout hend]),
      fun hr => by simp [exec_packetsOut h nofun hr]⟩

/-! ### What a frame depends on (R330, R340, R345, R373) -/

/-- What BB has sent in a step, and its partial packet and frame without the counters. -/
structure Reception where
  sent     : List Word
  part     : List Byte
  havePart : Bool
  isOpen   : Bool
  fbuf     : List Byte

def BbRun.reception (r : BbRun) : Reception := ⟨r.out, r.bb.part, r.bb.havePart, r.bb.isOpen, r.bb.fbuf⟩

/-- The partial packet that a frame finds, none under DISC (R330). -/
theorem packetsOf_disc_congr {disc : Bool} {b b' : BbState} (d : List Byte) (s : Nat)
    (h : disc = true ∨ b.part = b'.part ∧ b.havePart = b'.havePart) :
    packetsOf (if disc then dropPartial b else b) d s = packetsOf (if disc then dropPartial b' else b') d s := by
  cases disc with
  | true => exact packetsOf_congr d s rfl rfl
  | false =>
    obtain ⟨hp, hh⟩ := h.resolve_left Bool.false_ne_true
    exact packetsOf_congr d s hp hh

/-- A frame's checks are on its bytes alone: what it leaves and sends, counters aside. -/
theorem processFrame_reception (f : List Byte) (kbch : Nat) (disc : Bool) (b : BbState) :
    (processFrame f kbch disc b).reception =
      if crc8 (f.take 9) = byteAt f 9 ∧ headerGood f kbch = true then
        ⟨(packetsOf (if disc then dropPartial b else b) (dataField f) (syncdOf f / 8)).flatMap upBeats,
          leftOver (dataField f) (syncdOf f / 8), !(leftOver (dataField f) (syncdOf f / 8)).isEmpty, b.isOpen, b.fbuf⟩
      else ⟨[], [], false, b.isOpen, b.fbuf⟩ := by
  cases processFrame_cases f kbch disc b with
  | crc h hr => rw [hr, if_neg fun hc => h hc.1]; rfl
  | header h hh hr => rw [hr, if_neg fun hc => by simp [hh] at hc]; rfl
  | valid ups h hh hu hr => rw [hr, if_pos ⟨h, hh⟩, hu]; rfl

/-- Two states with the same frame, and the same partial packet where it matters, receive a byte alike. -/
theorem appendByte_reception_congr {b b' : BbState} (x : Byte) (ho : b.isOpen = b'.isOpen) (hk : b.kbch = b'.kbch)
    (hd : b.disc = b'.disc) (hf : b.fbuf = b'.fbuf) (hn : b.nbytes = b'.nbytes)
    (hp : b.part = b'.part ∧ b.havePart = b'.havePart ∨ b.disc = true ∧ b.nbytes + 1 = b.kbch / 8) :
    (appendByte x b).reception = (appendByte x b').reception := by
  by_cases hc : b.nbytes + 1 = b.kbch / 8
  · have hpart : b'.disc = true ∨ b.part = b'.part ∧ b.havePart = b'.havePart :=
      hp.symm.imp_left fun hdisc => hd ▸ hdisc.1
    rw [appendByte_completes hc, appendByte_completes (by rw [← hn, ← hk]; exact hc), hk, hd, hf,
      processFrame_reception, processFrame_reception,
      packetsOf_disc_congr (b := closedBy x b) (b' := closedBy x b') _ _ hpart]
    simp only [closedBy, hf]
  · obtain ⟨hpart, hhave⟩ := hp.resolve_right fun hdisc => hc hdisc.2
    rw [appendByte_collects hc, appendByte_collects (by rw [← hn, ← hk]; exact hc)]
    simp only [BbRun.reception, ho, hf, hpart, hhave]

/-- Settles O50: outside an open frame nothing happens to BB, inside it both runs receive the byte alike. -/
theorem framesAreIndependent : Obligations.FramesAreIndependent := by
  intro s s' t t' x ho hk hd hf hn he hp h h'
  by_cases hi : s.bb.eos = false ∧ s.bb.isOpen = true
  · rw [exec_bbByte_open hi.1 hi.2] at h
    rw [exec_bbByte_open (he ▸ hi.1) (ho ▸ hi.2)] at h'
    cases h
    cases h'
    have hr : (appendByte x s.bb).reception = (appendByte x s'.bb).reception :=
      appendByte_reception_congr x ho hk hd hf hn (hp.imp_right fun hlast => hlast.2.2)
    simp only [BbRun.reception, Reception.mk.injEq] at hr
    obtain ⟨hsent, hafter⟩ := hr
    exact ⟨⟨(appendByte x s.bb).out, rfl, congrArg (s'.bbOut ++ ·) hsent.symm⟩, hafter⟩
  · obtain ⟨hsame, hout⟩ := exec_bbByte_idle hi h
    obtain ⟨hsame', hout'⟩ := exec_bbByte_idle (by rwa [← he, ← ho]) h'
    obtain ⟨hpart, hhave⟩ := hp.resolve_right fun hlast => hi ⟨hlast.2.1, hlast.1⟩
    rw [hsame, hsame', hout, hout']
    exact ⟨⟨[], by simp⟩, hpart, hhave, ho, hf⟩

end Sys2Proof.Machine
end

section
/-!
PROOFS. The statement of 60_exceptions.md: the core never stops (R360).  Beside the invariants of the units, which the
sections above keep, a step keeps the gains, the status word and the output ports, and the ports are why it is no fault.
-/

namespace Sys2Proof.Machine

/-! ### The gains (R161, R392) -/

/-- The gains depend on the three gain inputs only (R183). -/
theorem gains_writeCsr_other {c : Csr} (h : c.isGainInput = false) (n : Numerics) (csr : Csrs) (w : Word) :
    gains n (writeCsr csr w c) = gains n csr := by
  cases c with
  | tsLoopBw | tsDamping | tsTedGain => cases h
  | _ => rfl

theorem GainsInv.csrWritten {s : State} (h : GainsInv s) (c : Csr) (w : Word) : GainsInv (csrWritten c w s) := by
  rw [GainsInv, csrWritten_gains]
  split
  · rfl
  next hc => exact h.trans (gains_writeCsr_other (Bool.eq_false_of_not_eq_true hc) s.params.numerics s.csr w).symm

/-- Every instruction keeps the gains those of the registers: a CSRW and a RESET of TS compute them, nothing else
changes them. -/
theorem GainsInv.exec {i : Instr} {s t : State} (h : GainsInv s) (he : exec i s = .next t) : GainsInv t := by
  have hf := instructionFrames i s t he
  cases i with
  | csrw a w =>
    cases he
    obtain ⟨-, hw⟩ | ⟨c, -, -, hw⟩ | ⟨c, -, -, hw⟩ := writeAddr_cases a w s <;> rw [hw]
    · exact h
    · exact h
    · exact h.csrWritten c w
  | reset ts fs bb hif =>
    cases he
    rw [resetUnits_eq]
    cases ts
    · exact h
    · rfl
  | tsSample re im =>
    obtain ⟨hts, hk1, hk2, -⟩ := hf
    rw [GainsInv, hk1, hk2, hts]
    exact h
  | fsSample re im => rw [hf.1]; exact h
  | outEos port => cases port <;> (rw [hf]; exact h)
  | _ => rw [hf]; exact h

/-! ### The status word (R43) -/

theorem Err.toNat_mask_lt (e : Err) : e.mask.toNat < 2 ^ 7 := by
  cases e <;> decide

/-- Every instruction keeps the reserved bits of `HIF_STATUS` 0. -/
theorem HifInv.exec {i : Instr} {s t : State} (hfs : FsInv s.fs) (h : HifInv s.hif) (he : exec i s = .next t) :
    HifInv t.hif := by
  unfold HifInv at h ⊢
  cases exec_status_cases hfs he with
  | same ht => rwa [ht]
  | cleared hi ht => simp [ht]
  | raised e hc ht =>
    rw [ht, BitVec.toNat_or]
    exact Nat.or_lt_two_pow h e.toNat_mask_lt

/-! ### The output ports (R126, R127, R130) -/

/-- Every word of a port is one that its decoder knows. -/
def Decodes {α : Type} (dec : α → Decoded Instr) (port : List α) : Prop := ∀ b ∈ port, ∃ i, dec b = .ok i

theorem Decodes.append {α : Type} {dec : α → Decoded Instr} {p l : List α} (hp : Decodes dec p)
    (hl : Decodes dec l) : Decodes dec (p ++ l) :=
  List.forall_mem_append.mpr ⟨hp, hl⟩

theorem Decodes.singleton {α : Type} {dec : α → Decoded Instr} {b : α} {i : Instr} (h : dec b = .ok i) :
    Decodes dec [b] :=
  List.forall_mem_singleton.mpr ⟨i, h⟩

theorem Decodes.takeHead {α : Type} [DecidableEq α] {dec : α → Decoded Instr} {p : List α} (h : Decodes dec p)
    (b : α) : Decodes dec (takeHead p b) := by
  obtain ht | ht := takeHead_cases p b
  · rwa [ht]
  · rw [ht] at h
    exact (List.forall_mem_cons.mp h).2

theorem decodes_tagBeats (tags : List Tag) : Decodes decodeTsOut (tagBeats tags) := by
  intro b hb
  obtain ⟨p, rfl⟩ := tagBeats_kinds hb
  exact ⟨_, decodeTsOut_tagBeat p⟩

/-- One sample sends SAMPLE and TAG beats (R191, R195). -/
theorem TsSent.decodes {ts : TsState} {r : TsRun} (h : TsSent ts r) : Decodes decodeTsOut r.out := by
  intro b hb
  obtain ⟨re, im, rfl⟩ | ⟨p, rfl⟩ := h.kinds b hb
  · exact ⟨_, decodeTsOut_sampleBeat re im⟩
  · exact ⟨_, decodeTsOut_tagBeat p⟩

/-- The end of the stream sends the tags before the held interpolant (R200). -/
theorem tsFlush_decodes (c : TsCfg) (ts : TsState) : Decodes decodeTsOut (tsFlush c ts).out := by
  unfold tsFlush
  split
  · exact (decodes_tagBeats ts.tags).append (.singleton (decodeTsOut_sampleBeat _ _))
  · exact List.forall_mem_nil _

theorem tsEnd_decodes {s : State} (h : Decodes decodeTsOut s.tsOut) : Decodes decodeTsOut (tsEnd s).tsOut := by
  have hsent : (tsEnd s).tsOut = s.tsOut ++ ((tsFlush (tsCfg s) s.ts).out ++ [eosBeat]) := by
    unfold tsEnd
    cases tsDropsTags s.ts <;> rfl
  rw [hsent]
  exact h.append ((tsFlush_decodes (tsCfg s) s.ts).append (.singleton decodeTsOut_eosBeat))

theorem exec_decodes_tsOut {i : Instr} {s t : State} (hc : CsrInv s) (hts : TsInv s.params.tagW s.ts)
    (h : Decodes decodeTsOut s.tsOut) (he : exec i s = .next t) : Decodes decodeTsOut t.tsOut := by
  have hf := instructionFrames i s t he
  cases i with
  | tsSample re im =>
    cases he
    split
    · exact h
    · exact h.append (tsSampleRun_sent hc.sps_nonneg hts _).decodes
  | tsEos =>
    cases he
    split
    · exact h
    · exact tsEnd_decodes h
  | outTsSample _ _ | outTsTag _ => cases he; exact h.takeHead _
  | outEos port =>
    cases port <;> cases he
    · exact h.takeHead _
    · exact h
  | fsSample _ _ => rw [hf.1]; exact h
  | _ => rw [hf]; exact h

/-- A frame that is sent has a MODCOD that its TAG beat can carry (R127, R303). -/
theorem decodeFsOut_tag_of_emits {l : Latch} {p : Pls} (hv : invalidPls p = false) (he : emits l p = true) :
    decodeFsOut (frameTagBeat (modcodOf p) (shortOf p)) = .ok (.outFsTag (modcodOf p) (shortOf p)) := by
  have hne : modcodOf p ≠ 0 := of_decide_eq_true (Bool.and_eq_true_iff.mp he).2
  have hle : ¬ 28 < (modcodOf p).toNat := of_decide_eq_false hv
  refine decodeFsOut_frameTagBeat _ (Nat.one_le_iff_ne_zero.mpr fun h0 => hne (BitVec.eq_of_toNat_eq h0)) (by omega)

/-- One symbol sends nothing, a SAMPLE beat or the TAG beat of a frame (R293, R294). -/
theorem FsSent.decodes {c : FsCfg} {r q : FsRun} (h : FsSent c r q) (hr : r.out = []) : Decodes decodeFsOut q.out := by
  cases h with
  | nothing ho hc =>
    rw [ho, hr]
    exact List.forall_mem_nil _
  | payload f re im hf he hi hk ho hc =>
    rw [ho, hr]
    exact .singleton (decodeFsOut_sampleBeat re im)
  | tag k p hn hi hv he hf hl ho hc =>
    rw [ho, hr]
    exact .singleton (decodeFsOut_tag_of_emits hv he)

theorem exec_decodes_fsOut {i : Instr} {s t : State} (hfs : FsInv s.fs) (h : Decodes decodeFsOut s.fsOut)
    (he : exec i s = .next t) : Decodes decodeFsOut t.fsOut := by
  have hf := instructionFrames i s t he
  cases i with
  | fsSample re im =>
    cases he
    split
    · exact h
    · exact h.append ((fsSampleRun_sent (r := fsRun s) hfs).decodes rfl)
  | fsEos =>
    cases he
    split
    · exact h
    · exact h.append (.singleton decodeFsOut_eosBeat)
  | outFsSample _ _ | outFsTag _ _ => cases he; exact h.takeHead _
  | outEos port =>
    cases port <;> cases he
    · exact h
    · exact h.takeHead _
  | tsSample _ _ => rw [hf.1]; exact h
  | _ => rw [hf]; exact h

/-- A packet is sent as its restored 0x47 with SOP, and bytes without SOP (R343). -/
theorem decodes_packetWords (u : List Byte) : Decodes decodeBbOut (packetWords u) := by
  rw [← upBeats_eq]
  refine List.forall_mem_cons.mpr ⟨⟨_, decodeBbOut_outByteBeat fun _ => rfl⟩, ?_⟩
  exact List.forall_mem_map.mpr fun b _ => ⟨_, decodeBbOut_outByteBeat (b := b) nofun⟩

theorem exec_decodes_bbOut {i : Instr} {s t : State} (hb : BbInv s.bb) (h : Decodes decodeBbOut s.bbOut)
    (he : exec i s = .next t) : Decodes decodeBbOut t.bbOut := by
  by_cases hhead : (∃ b sop, i = .outBbByte b sop) ∨ i = .outBbEos
  · obtain ⟨b, sop, rfl⟩ | rfl := hhead <;> cases he <;> exact h.takeHead _
  · obtain ⟨hnbyte, hneos⟩ := not_or.mp hhead
    obtain ⟨ups, -, hsent | ⟨-, -, hsent⟩, -⟩ :=
      onlyWholePacketsAreSent i s t hb he (fun b sop hi => hnbyte ⟨b, sop, hi⟩) hneos <;> rw [hsent]
    · exact h.append (List.forall_mem_flatMap.mpr fun u _ => decodes_packetWords u)
    · exact h.append (.singleton decodeBbOut_bbEosBeat)

/-! ### All the invariants -/

theorem SameCore.coreInv {s s' : State} (hc : SameCore s s') (h : CoreInv s) : CoreInv s' := by
  rw [hc]
  exact ⟨h.csr.of_csr_eq rfl, h.gains, h.ts, h.fs, h.fe, h.bb, h.hif, ⟨h.ports.ts, h.ports.fs, h.ports.bb⟩⟩

/-- Every instruction keeps every invariant. -/
theorem CoreInv.exec {i : Instr} {s t : State} (h : CoreInv s) (he : exec i s = .next t) : CoreInv t where
  csr := h.csr.exec he
  gains := h.gains.exec he
  ts := exec_params he ▸ h.ts.exec h.csr he
  fs := h.fs.exec h.csr he
  fe := h.fe.exec h.csr h.fs he
  bb := h.bb.exec he
  hif := h.hif.exec h.fs he
  ports := ⟨exec_decodes_tsOut h.csr h.ts h.ports.ts he, exec_decodes_fsOut h.fs h.ports.fs he,
    exec_decodes_bbOut h.bb h.ports.bb he⟩

/-! ### No step is a fault (R360) -/

/-- The host finds nothing on an empty port, and an instruction on one whose words decode. -/
theorem Decodes.fetchOut_ne_neverSent {α : Type} {dec : α → Decoded Instr} {port : List α} (h : Decodes dec port)
    (p q : OutPort) (s : State) : fetchOut p s (headOf port dec) ≠ .neverSent q := by
  cases hport : port with
  | nil => exact nofun
  | cons b rest =>
    obtain ⟨i, hi⟩ := h b (by simp [hport])
    simp [fetchOut_headOf rfl hi]

/-- No agent's turn finds a beat that no rule sends. -/
theorem PortsInv.fetch_ne_neverSent {s : State} (h : PortsInv s) (a : Agent) (q : OutPort) :
    fetch a s ≠ .neverSent q := by
  cases a with
  | host p =>
    cases p with
    | rsp => exact Decodes.fetchOut_ne_neverSent (fun w _ => ⟨decodeRspOut w, rfl⟩) .rsp q s
    | ts => exact Decodes.fetchOut_ne_neverSent h.ts .ts q s
    | fs => exact Decodes.fetchOut_ne_neverSent h.fs .fs q s
    | bb => exact Decodes.fetchOut_ne_neverSent h.bb .bb q s
  | hif | ts | fs | bb | rotator =>
    simp only [fetch, fetchHif, fetchTs, fetchFs, fetchBb, fetchRotator]
    split <;> exact nofun

theorem PortsInv.turn_next {s : State} (h : PortsInv s) (a : Agent) : ∃ t, turn a s = .next t := by
  unfold turn
  cases hf : fetch a s with
  | run i s' => exact exec_next i s'
  | idle => exact ⟨s, rfl⟩
  | neverSent p => exact absurd hf (h.fetch_ne_neverSent a p)

theorem PortsInv.step_next {s : State} (h : PortsInv s) : ∃ t, step s = .next t := by
  cases hs : s.sched with
  | nil => exact ⟨s, step_of_nil hs⟩
  | cons e rest =>
    cases e with
    | turn a =>
      rw [step_of_turn hs]
      refine PortsInv.turn_next ?_ a
      exact ⟨h.ts, h.fs, h.bb⟩
    | _ => exact ⟨_, step_of_supply hs nofun⟩

/-- Settles O58: the ports' invariant excludes the one fault, and the step's instruction keeps all the invariants. -/
theorem coreNeverStops : Obligations.CoreNeverStops := by
  intro s h
  obtain ⟨t, hst⟩ := h.ports.step_next
  exact ⟨t, hst, step_keeps (P := CoreInv) (fun _ _ hc hs => hc.coreInv hs) (fun _ _ _ hs he => hs.exec he) h hst⟩

end Sys2Proof.Machine
end

section
/-!
PROOFS. The statements of 70_reset_and_hazards.md: the state right after power-on reset (R390), the RESET command
(R391), and the gains, which follow their registers at reset and at every step (R392).
-/

namespace Sys2Proof.Machine

/-! ### The gains (R392) -/

/-- The gains are no matter of the script and the input ports. -/
theorem SameCore.gainsInv {s s' : State} (hc : SameCore s s') (h : GainsInv s) : GainsInv s' := by
  rw [hc]
  exact h

/-- At reset the bandwidth is 0, and so are the gains (R183). -/
theorem gains_reset (n : Numerics) : gains n Csrs.reset = (0, 0) := by
  have hb : f32 Csrs.reset.tsLoopBw = .fin 0 := by decide
  simp [gains, hb]

theorem gainsInv_reset : GainsInv State.reset := (gains_reset .reference).symm

/-- Settles O21: the reset values, and every instruction keeps the gains those of the registers. -/
theorem gainsFollowTheRegisters : Obligations.GainsFollowTheRegisters :=
  ⟨rfl, rfl, gainsInv_reset, fun _ _ h hst =>
    step_keeps (P := GainsInv) (fun _ _ hc hs => hc.gainsInv hs) (fun _ _ _ hs he => hs.exec he) h hst⟩

/-! ### Power-on reset (R390) -/

/-- The number 0 is sent as the pattern 0 (R15). -/
theorem bits32_zero : bits32 0 = 0 := if_pos rfl

/-- Settles O11: each address has its register, whose reset value `readCsr` shows; the records and ports are those of
`State.reset`. -/
theorem resetLeavesTheStatedValues : Obligations.ResetLeavesTheStatedValues := by
  have read (a : BitVec 8) (c : Csr) {w : Word} (h : Csr.ofAddr a = some c) (hw : readCsr State.reset c = w) :
      Answers State.reset a w := hw ▸ answers_readCsr h State.reset
  refine ⟨?_, rfl, rfl, rfl, rfl, rfl, rfl, rfl, rfl, rfl, rfl, rfl, rfl, rfl⟩
  exact ⟨read 0x00 .hifId rfl rfl, read 0x01 .hifVersion rfl rfl, read 0x02 .hifStatus rfl rfl,
    read 0x03 .hifOutbox rfl bits32_zero, read 0x04 .hifOutboxStatus rfl (outboxStatusWord_eq HifState.reset),
    read 0x10 .tsSps rfl rfl, read 0x11 .tsLoopBw rfl rfl, read 0x12 .tsDamping rfl rfl, read 0x13 .tsRolloff rfl rfl,
    read 0x14 .tsRrcDelay rfl rfl, read 0x15 .tsNfilt rfl rfl, read 0x16 .tsInterp rfl rfl,
    read 0x17 .tsTedGain rfl rfl, read 0x18 .tsK1 rfl bits32_zero, read 0x19 .tsK2 rfl bits32_zero,
    read 0x1A .tsOutCount rfl rfl,
    read 0x20 .fsGold rfl rfl, read 0x21 .fsFreqPeriod rfl rfl, read 0x22 .fsCtrl rfl rfl,
    read 0x24 .fsPlsFilter0 rfl rfl, read 0x25 .fsPlsFilter1 rfl rfl, read 0x26 .fsPlsFilter2 rfl rfl,
    read 0x27 .fsPlsFilter3 rfl rfl, read 0x28 .fsSofThresh rfl rfl, read 0x29 .fsLockCount rfl rfl,
    read 0x2A .fsUnlockCount rfl rfl, read 0x2B .fsFineThresh rfl rfl,
    read 0x30 .fsStatus rfl (BitVec.eq_of_toNat_eq (toNat_fsStatusWord FsState.reset FeState.reset)),
    read 0x31 .fsFreqEst rfl bits32_zero, read 0x32 .fsFrameCount rfl rfl, read 0x33 .fsLastCmd rfl bits32_zero,
    read 0x40 .bbFramesOk rfl rfl, read 0x41 .bbFramesCrcErr rfl rfl, read 0x42 .bbFramesHdrErr rfl rfl,
    read 0x43 .bbFramesMalformed rfl rfl, read 0x44 .bbPacketsOut rfl rfl⟩

/-! ### The RESET command (R163, R391) -/

/-- Settles O12: RESET is the unit resets, mask bit by mask bit, and each unit's reset record is the one in
`State.reset`. -/
theorem resetCommandResetsSelectedUnits : Obligations.ResetCommandResetsSelectedUnits := fun s ts fs bb hif =>
  congrArg Host.Outcome.next (resetUnits_eq ts fs bb hif s)

/-! ### The reset state meets the invariants (R35, R78 to R82, R390) -/

/-- Every reset value is in its register's legal set, and `FS_CTRL` is 0. -/
theorem csrInv_reset : CsrInv State.reset where
  legal c := by
    cases c with
    -- The registers that hold a real number: its value is computed from the pattern.
    | tsSps | tsLoopBw | tsDamping | tsRolloff | tsTedGain | fsSofThresh | fsFineThresh => decide +kernel
    -- The registers that hold a natural number.
    | tsRrcDelay | tsNfilt | tsInterp | fsGold | fsFreqPeriod | fsLockCount | fsUnlockCount => decide
    -- Every value is legal, or the register is RO and has no legal set.
    | _ => simp [Csr.legal?]
  reserved := by decide

/-- Settles O52: each part's reset record meets its invariant, and no word is on an output port. -/
theorem resetMeetsTheInvariants : Obligations.ResetMeetsTheInvariants where
  csr := csrInv_reset
  gains := gainsInv_reset
  ts := tsReset_inv 64 .reference Csrs.reset
  fs := fsReset_inv
  fe := feReset_inv .reference
  bb := bbReset_inv
  hif := by simp [HifInv, State.reset, HifState.reset]
  ports := ⟨List.forall_mem_nil _, List.forall_mem_nil _, List.forall_mem_nil _⟩

end Sys2Proof.Machine
end
